-- ==== Sys2Proof/Word.lean ====
section
/-! DEFINITION. The word types of the model. All quantities of this hardware are unsigned
(spec/00_scope.md R12); a register is a bit vector of the width spec/10_state.md R21, R30 and R42
give it, and arithmetic is done on naturals and narrowed at the end (R17: no result wraps). -/

namespace Sys2Proof

/-- One byte of `IN` or `OUT` (20_memory.md R60, R61). -/
abbrev Byte := BitVec 8

/-- One 32-bit host register (10_state.md R30). -/
abbrev Word := BitVec 32

/-- A byte memory as plain data: address and byte, addresses strictly rising (the canonical form). -/
abbrev Memory := List Host.Cell

end Sys2Proof
end

