-- ==== Sys2Proof/Config.lean ====
section
/-! DEFINITION. What is fixed for the machine (spec/00_scope.md R8) and the free values: constants
without a body, so that nothing in Lean can evaluate one or prove a value of it. -/

namespace Sys2Proof.Config

/-- `MAXBITS_LL`: the longest literal/length code (R8). -/
abbrev maxBitsLL : Nat := 15

/-- `MAXBITS_D`: the longest distance code (R8). -/
abbrev maxBitsD : Nat := 15

/-- `MAXBITS_CL`: the longest code-length code (R8). -/
abbrev maxBitsCL : Nat := 7

/-- `N_LL`: entries of a literal/length code-length array (R8, R42). -/
abbrev nLL : Nat := 288

/-- `N_D`: entries of a distance code-length array (R8, R42). -/
abbrev nD : Nat := 32

/-- `N_CL`: entries of the code-length alphabet (R8, R42). -/
abbrev nCL : Nat := 19

/-- Entries of `FLAT` (R42): 286 + 32. -/
abbrev nFlat : Nat := 318

/-- `MAX_LEN`: the longest match (R8). -/
abbrev maxLen : Nat := 258

/-- `MAX_DIST`: the farthest back-reference (R8). -/
abbrev maxDist : Nat := 32768

/-- `READ_MAX`: the largest `n` of `read_bits(n)` the reader accepts (R8, R111); no operation asks for more than 13. -/
abbrev readMax : Nat := 32

/-- `P_STRICT_KRAFT`: an under-subscribed transmitted array is rejected (R8, R124; 90_conflicts.md C1).
The check takes the flag as an argument; this hardware passes `true`. -/
abbrev strictKraft : Bool := true

/-- `P_MULTI_MEMBER`: one gzip member per run (R8, R212; 90_conflicts.md C6). -/
abbrev multiMember : Bool := false

/-- The `OUT_CAP` that `State.reset` holds. DESIGN CHOICE, safe (log 5): R8 leaves `OUT_CAP` open, a natural below
2^64; it is a field of State that no step writes, and no statement rests on this value. -/
abbrev resetOutCap : BitVec 64 := BitVec.ofNat 64 (2 ^ 64 - 1)

/-- FREE VALUE (log 4): what a byte of `IN` that nothing has written reads as, by address (R48, U9). -/
opaque unwrittenIn : Nat → Byte

/-- FREE VALUE (log 4): what a byte of `OUT` that nothing has written reads as, by epoch and address (R48, R280, U9, U15). -/
opaque unwrittenOut : Nat → Nat → Byte

/-- FREE VALUE (log 6): what a host read of a result register returns while BUSY, by draw (R35, U6). -/
opaque busyRead : Nat → Word

/-- FREE VALUE (log 3): an array entry after a hardware reset, by draw, array number and index (R48, U9). -/
opaque resetEntry : Nat → Nat → Nat → BitVec 4

end Sys2Proof.Config
end

