-- ==== Sys2Proof/Syntax.lean ====
section
/-! DEFINITION. The syntax: the sequencer's phases (spec/10_state.md R23), which are this hardware's branch
targets, and the instructions, one constructor per row of spec/opcode_table.json (R3, R99). An instruction is a
stream element, or the host's START. Its constructor carries what selects it: BFINAL beside the block type, the
byte of a literal. What the rule of an instruction reads by itself (extra bits, byte fields) it reads from the
stream when it runs, in the rule's order, because it may fault half way (60_exceptions.md R254). -/

namespace Sys2Proof

/-- `PHASE`, the sequencer state (R23): which operation runs next. -/
inductive Phase where
  /-- `IDLE` (0): waiting for START after reset; not busy. -/
  | idle
  /-- `HDR_FIXED` (1): GZ.HDR. -/
  | hdrFixed
  /-- `HDR_EXTRA` (2): GZ.FEXTRA. -/
  | hdrExtra
  /-- `HDR_NAME` (3): GZ.FNAME. -/
  | hdrName
  /-- `HDR_COMMENT` (4): GZ.FCOMMENT. -/
  | hdrComment
  /-- `HDR_HCRC` (5): GZ.FHCRC. -/
  | hdrHcrc
  /-- `BLK_HDR` (6): BLK.HDR and dispatch. -/
  | blkHdr
  /-- `STORED_LEN` (7): STORED.LEN. -/
  | storedLen
  /-- `STORED_COPY` (8): STORED.BYTE. -/
  | storedCopy
  /-- `DYN_COUNTS` (9): DYN.COUNTS. -/
  | dynCounts
  /-- `DYN_CLLEN` (10): DYN.CLLEN. -/
  | dynCllen
  /-- `DYN_LENS` (11): one CL symbol. -/
  | dynLens
  /-- `DYN_BUILD` (12): DYN.BUILD. -/
  | dynBuild
  /-- `SYM` (13): one literal/length symbol. -/
  | sym
  /-- The MODEL's own name for the point of `SYM` between a LEN and the DIST that must follow it (log 1; R23, U16: a model may split steps). Its code is that of `SYM`. -/
  | symDist
  /-- `COPY` (14): one byte of a match. -/
  | copy
  /-- `TRAILER` (15): GZ.TRAILER. -/
  | trailer
  /-- `DONE` (16): the run ended without fault; not busy. -/
  | done
  /-- `ERROR` (17): the run ended with a fault; not busy. -/
  | error
  deriving DecidableEq, Repr

/-- One stream element or host operation: one constructor per row of the opcode table. -/
inductive Instr where
  /-- GZ.HDR: the fixed gzip header (R81, R201). -/
  | gzHdr
  /-- GZ.FEXTRA: the extra field, present when `HDR_FLG[2]` = 1 (R83, R202). -/
  | gzFextra
  /-- GZ.FNAME: the file name, present when `HDR_FLG[3]` = 1 (R84, R203). -/
  | gzFname
  /-- GZ.FCOMMENT: the comment, present when `HDR_FLG[4]` = 1 (R84, R204). -/
  | gzFcomment
  /-- GZ.FHCRC: the header CRC, present when `HDR_FLG[1]` = 1 (R85, R205). -/
  | gzFhcrc
  /-- GZ.TRAILER: the trailer (R86, R210). -/
  | gzTrailer
  /-- BLK.STORED: block header with this BTYPE and the given BFINAL (R87, R162). -/
  | blkStored (bfinal : BitVec 1)
  /-- BLK.FIXED: block header with this BTYPE and the given BFINAL (R87, R163). -/
  | blkFixed (bfinal : BitVec 1)
  /-- BLK.DYNAMIC: block header with this BTYPE and the given BFINAL (R87, R164). -/
  | blkDynamic (bfinal : BitVec 1)
  /-- BLK.RESERVED: block header with this BTYPE and the given BFINAL (R87, R165). -/
  | blkReserved (bfinal : BitVec 1)
  /-- STORED.LEN: LEN and NLEN of a stored block (R88, R166). -/
  | storedLen
  /-- STORED.BYTE: one raw byte of a stored block, or its end (R167). -/
  | storedByte
  /-- DYN.COUNTS: the three counts of a dynamic block (R89, R141). -/
  | dynCounts
  /-- DYN.CLLEN: the code lengths of the code-length alphabet (R89, R142). -/
  | dynCllen
  /-- DYN.BUILD: splitting `FLAT` into the two arrays (R148). -/
  | dynBuild
  /-- CL.LEN.0: the next code length is 0 (R91, R144). -/
  | clLen0
  /-- CL.LEN.1: the next code length is 1 (R91, R144). -/
  | clLen1
  /-- CL.LEN.2: the next code length is 2 (R91, R144). -/
  | clLen2
  /-- CL.LEN.3: the next code length is 3 (R91, R144). -/
  | clLen3
  /-- CL.LEN.4: the next code length is 4 (R91, R144). -/
  | clLen4
  /-- CL.LEN.5: the next code length is 5 (R91, R144). -/
  | clLen5
  /-- CL.LEN.6: the next code length is 6 (R91, R144). -/
  | clLen6
  /-- CL.LEN.7: the next code length is 7 (R91, R144). -/
  | clLen7
  /-- CL.LEN.8: the next code length is 8 (R91, R144). -/
  | clLen8
  /-- CL.LEN.9: the next code length is 9 (R91, R144). -/
  | clLen9
  /-- CL.LEN.10: the next code length is 10 (R91, R144). -/
  | clLen10
  /-- CL.LEN.11: the next code length is 11 (R91, R144). -/
  | clLen11
  /-- CL.LEN.12: the next code length is 12 (R91, R144). -/
  | clLen12
  /-- CL.LEN.13: the next code length is 13 (R91, R144). -/
  | clLen13
  /-- CL.LEN.14: the next code length is 14 (R91, R144). -/
  | clLen14
  /-- CL.LEN.15: the next code length is 15 (R91, R144). -/
  | clLen15
  /-- CL.REP16: repeat the previous length (R91, R145). -/
  | clRep16
  /-- CL.ZREP17: 3 to 10 zero lengths (R91, R146). -/
  | clZrep17
  /-- CL.ZREP18: 11 to 138 zero lengths (R91, R147). -/
  | clZrep18
  /-- LIT: literal/length symbol 0 to 255 (R92, R170). -/
  | lit (value : Byte)
  /-- EOB: literal/length symbol 256, end of block (R92, R171). -/
  | eob
  /-- LEN.257: length 3 plus 0 extra bits (R94, R172). -/
  | len257
  /-- LEN.258: length 4 plus 0 extra bits (R94, R172). -/
  | len258
  /-- LEN.259: length 5 plus 0 extra bits (R94, R172). -/
  | len259
  /-- LEN.260: length 6 plus 0 extra bits (R94, R172). -/
  | len260
  /-- LEN.261: length 7 plus 0 extra bits (R94, R172). -/
  | len261
  /-- LEN.262: length 8 plus 0 extra bits (R94, R172). -/
  | len262
  /-- LEN.263: length 9 plus 0 extra bits (R94, R172). -/
  | len263
  /-- LEN.264: length 10 plus 0 extra bits (R94, R172). -/
  | len264
  /-- LEN.265: length 11 plus 1 extra bits (R94, R172). -/
  | len265
  /-- LEN.266: length 13 plus 1 extra bits (R94, R172). -/
  | len266
  /-- LEN.267: length 15 plus 1 extra bits (R94, R172). -/
  | len267
  /-- LEN.268: length 17 plus 1 extra bits (R94, R172). -/
  | len268
  /-- LEN.269: length 19 plus 2 extra bits (R94, R172). -/
  | len269
  /-- LEN.270: length 23 plus 2 extra bits (R94, R172). -/
  | len270
  /-- LEN.271: length 27 plus 2 extra bits (R94, R172). -/
  | len271
  /-- LEN.272: length 31 plus 2 extra bits (R94, R172). -/
  | len272
  /-- LEN.273: length 35 plus 3 extra bits (R94, R172). -/
  | len273
  /-- LEN.274: length 43 plus 3 extra bits (R94, R172). -/
  | len274
  /-- LEN.275: length 51 plus 3 extra bits (R94, R172). -/
  | len275
  /-- LEN.276: length 59 plus 3 extra bits (R94, R172). -/
  | len276
  /-- LEN.277: length 67 plus 4 extra bits (R94, R172). -/
  | len277
  /-- LEN.278: length 83 plus 4 extra bits (R94, R172). -/
  | len278
  /-- LEN.279: length 99 plus 4 extra bits (R94, R172). -/
  | len279
  /-- LEN.280: length 115 plus 4 extra bits (R94, R172). -/
  | len280
  /-- LEN.281: length 131 plus 5 extra bits (R94, R172). -/
  | len281
  /-- LEN.282: length 163 plus 5 extra bits (R94, R172). -/
  | len282
  /-- LEN.283: length 195 plus 5 extra bits (R94, R172). -/
  | len283
  /-- LEN.284: length 227 plus 5 extra bits (R94, R172). -/
  | len284
  /-- LEN.285: length 258 plus 0 extra bits (R94, R172). -/
  | len285
  /-- LL.RSVD.286: reserved literal/length symbol (R100, R174). -/
  | llRsvd286
  /-- LL.RSVD.287: reserved literal/length symbol (R100, R174). -/
  | llRsvd287
  /-- DIST.0: distance 1 plus 0 extra bits (R95, R173). -/
  | dist0
  /-- DIST.1: distance 2 plus 0 extra bits (R95, R173). -/
  | dist1
  /-- DIST.2: distance 3 plus 0 extra bits (R95, R173). -/
  | dist2
  /-- DIST.3: distance 4 plus 0 extra bits (R95, R173). -/
  | dist3
  /-- DIST.4: distance 5 plus 1 extra bits (R95, R173). -/
  | dist4
  /-- DIST.5: distance 7 plus 1 extra bits (R95, R173). -/
  | dist5
  /-- DIST.6: distance 9 plus 2 extra bits (R95, R173). -/
  | dist6
  /-- DIST.7: distance 13 plus 2 extra bits (R95, R173). -/
  | dist7
  /-- DIST.8: distance 17 plus 3 extra bits (R95, R173). -/
  | dist8
  /-- DIST.9: distance 25 plus 3 extra bits (R95, R173). -/
  | dist9
  /-- DIST.10: distance 33 plus 4 extra bits (R95, R173). -/
  | dist10
  /-- DIST.11: distance 49 plus 4 extra bits (R95, R173). -/
  | dist11
  /-- DIST.12: distance 65 plus 5 extra bits (R95, R173). -/
  | dist12
  /-- DIST.13: distance 97 plus 5 extra bits (R95, R173). -/
  | dist13
  /-- DIST.14: distance 129 plus 6 extra bits (R95, R173). -/
  | dist14
  /-- DIST.15: distance 193 plus 6 extra bits (R95, R173). -/
  | dist15
  /-- DIST.16: distance 257 plus 7 extra bits (R95, R173). -/
  | dist16
  /-- DIST.17: distance 385 plus 7 extra bits (R95, R173). -/
  | dist17
  /-- DIST.18: distance 513 plus 8 extra bits (R95, R173). -/
  | dist18
  /-- DIST.19: distance 769 plus 8 extra bits (R95, R173). -/
  | dist19
  /-- DIST.20: distance 1025 plus 9 extra bits (R95, R173). -/
  | dist20
  /-- DIST.21: distance 1537 plus 9 extra bits (R95, R173). -/
  | dist21
  /-- DIST.22: distance 2049 plus 10 extra bits (R95, R173). -/
  | dist22
  /-- DIST.23: distance 3073 plus 10 extra bits (R95, R173). -/
  | dist23
  /-- DIST.24: distance 4097 plus 11 extra bits (R95, R173). -/
  | dist24
  /-- DIST.25: distance 6145 plus 11 extra bits (R95, R173). -/
  | dist25
  /-- DIST.26: distance 8193 plus 12 extra bits (R95, R173). -/
  | dist26
  /-- DIST.27: distance 12289 plus 12 extra bits (R95, R173). -/
  | dist27
  /-- DIST.28: distance 16385 plus 13 extra bits (R95, R173). -/
  | dist28
  /-- DIST.29: distance 24577 plus 13 extra bits (R95, R173). -/
  | dist29
  /-- D.RSVD.30: reserved distance symbol (R100, R175). -/
  | dRsvd30
  /-- D.RSVD.31: reserved distance symbol (R100, R175). -/
  | dRsvd31
  /-- COPY: one byte of a match, or its end (R185). -/
  | copy
  /-- START: the host's START (R31, R232). -/
  | start
  deriving DecidableEq, Repr

end Sys2Proof
end

