-- ==== Sys2Proof/Decode.lean ====
section
/-! DEFINITION. Decoding and encoding: the ROM tables (spec/10_state.md R43), canonical Huffman codes
(spec/41_huffman_tables.md R121), the opcode map from selectors to instructions (spec/30_encoding.md R99) and its
inverse, the bits the fetch consumes for an instruction, and the host's view of the opcode table. A selector is the
small number that R99 says chooses an operation; the machine gets one from the stream (Machine/Fetch.lean). -/

namespace Sys2Proof

/-- Whether the core has a step in this phase (R23, the "busy?" column). -/
def Phase.busy : Phase → Bool
  | .idle | .done | .error => false
  | .hdrFixed | .hdrExtra | .hdrName | .hdrComment | .hdrHcrc | .blkHdr | .storedLen | .storedCopy | .dynCounts
  | .dynCllen | .dynLens | .dynBuild | .sym | .symDist | .copy | .trailer => true

/-- The 5-bit code of a phase (R23). `symDist` is the model's own point inside `SYM` and has that code (log 1). -/
def Phase.code : Phase → BitVec 5
  | .idle => 0 | .hdrFixed => 1 | .hdrExtra => 2 | .hdrName => 3 | .hdrComment => 4 | .hdrHcrc => 5
  | .blkHdr => 6 | .storedLen => 7 | .storedCopy => 8 | .dynCounts => 9 | .dynCllen => 10 | .dynLens => 11
  | .dynBuild => 12 | .sym => 13 | .symDist => 13 | .copy => 14 | .trailer => 15 | .done => 16 | .error => 17

/-! ### Read-only tables (R43) -/

/-- `CL_ORDER[0..18]` (R90). -/
def clOrder : List Nat := [16, 17, 18, 0, 8, 7, 9, 6, 10, 5, 11, 4, 12, 3, 13, 2, 14, 1, 15]

/-- `LEXT[0..28]` (R94). -/
def lext : List Nat := [0, 0, 0, 0, 0, 0, 0, 0, 1, 1, 1, 1, 2, 2, 2, 2, 3, 3, 3, 3, 4, 4, 4, 4, 5, 5, 5, 5, 0]

/-- `LBASE[0..28]` (R94). -/
def lbase : List Nat :=
  [3, 4, 5, 6, 7, 8, 9, 10, 11, 13, 15, 17, 19, 23, 27, 31, 35, 43, 51, 59, 67, 83, 99, 115, 131, 163, 195, 227, 258]

/-- `DEXT[0..29]` (R95). -/
def dext : List Nat :=
  [0, 0, 0, 0, 1, 1, 2, 2, 3, 3, 4, 4, 5, 5, 6, 6, 7, 7, 8, 8, 9, 9, 10, 10, 11, 11, 12, 12, 13, 13]

/-- `DBASE[0..29]` (R95). -/
def dbase : List Nat :=
  [1, 2, 3, 4, 5, 7, 9, 13, 17, 25, 33, 49, 65, 97, 129, 193, 257, 385, 513, 769] ++
  [1025, 1537, 2049, 3073, 4097, 6145, 8193, 12289, 16385, 24577]

/-- `FIX_LL_LEN[0..287]` (R96): 0..143 have length 8, 144..255 length 9, 256..279 length 7, 280..287 length 8. -/
def fixLL : List Nat :=
  List.replicate 144 8 ++ (List.replicate 112 9 ++ (List.replicate 24 7 ++ List.replicate 8 8))

/-- `FIX_D_LEN[0..31]` (R97): all 32 symbols have length 5. -/
def fixD : List Nat := List.replicate 32 5

/-! ### Canonical codes (R121) -/

/-- Step 1 of R121: how many symbols have this code length. -/
def countLen (lens : List Nat) (len : Nat) : Nat := lens.count len

/-- Step 2 of R121: the first code of each length, `first[len] = (first[len-1] + count[len-1]) << 1`. -/
def firstCode (lens : List Nat) : Nat → Nat
  | 0 => 0
  | 1 => 0
  | n + 2 => (firstCode lens (n + 1) + countLen lens (n + 1)) <<< 1

/-- `CODE[s]` (R121, step 3): symbols of one length take consecutive codes in increasing symbol order, so the code of
`s` is the first code of its length plus the number of earlier symbols of that length. -/
def codeOf (lens : List Nat) (s : Nat) : Nat :=
  firstCode lens (lens.getD s 0) + (lens.take s).count (lens.getD s 0)

/-- The walk of step 3 of R121 over the symbols from `s` on, for one length: a symbol of length `len` is assigned
`next`, and the answer is the first symbol whose code is `code`. -/
def findFrom (len code : Nat) : (next s : Nat) → List Nat → Option Nat
  | _, _, [] => none
  | next, s, l :: rest =>
    if l = len then (if next = code then some s else findFrom len code (next + 1) (s + 1) rest)
    else findFrom len code next (s + 1) rest

/-- The test of R126: the symbol `s` with `LENS[s] == len` and `CODE[s] == code`, if there is one. -/
def findSym (lens : List Nat) (len code : Nat) : Option Nat := findFrom len code (firstCode lens len) 0 lens

/-- Whether symbol `s` has a code in this code-length array (R120: 0 means it has none). -/
def hasCode (lens : List Nat) (s : Nat) : Bool := decide (lens.getD s 0 ≠ 0)

/-- The low `n` bits of `v`, most significant first: the order in which a Huffman code stands in the stream (R65). -/
def bitsMsb (v : Nat) : Nat → List Bool
  | 0 => []
  | n + 1 => v.testBit n :: bitsMsb v n

/-- The low `n` bits of `v`, least significant first: the order in which a `read_bits(n)` field stands (R63). -/
def bitsLsb (v : Nat) : Nat → List Bool
  | 0 => []
  | n + 1 => v.testBit 0 :: bitsLsb (v / 2) n

/-- The stream bits of the code of symbol `s` (R65, R121). -/
def codeBits (lens : List Nat) (s : Nat) : List Bool := bitsMsb (codeOf lens s) (lens.getD s 0)

/-! ### Selectors (R99) -/

/-- What selects an operation (R99). -/
inductive Selector where
  /-- The operation is reached by position: the phase alone names it (R23, R99). -/
  | byPhase (p : Phase)
  /-- Input bytes 0..2 as a 24-bit little-endian number (the opcode table's GZ.HDR row). -/
  | magic (w : BitVec 24)
  /-- BTYPE, with the BFINAL bit that was read before it (R87). -/
  | btype (bfinal : BitVec 1) (w : BitVec 2)
  /-- A code-length symbol (R91). -/
  | cl (s : Nat)
  /-- A literal/length symbol (R92). -/
  | ll (s : Nat)
  /-- A distance symbol (R93). -/
  | dist (s : Nat)
  /-- The data of a host write to CTRL (R31). -/
  | ctrl (data : Word)
  deriving DecidableEq, Repr

/-- Why a selector is no instruction. -/
inductive Reject where
  /-- No operation is reached by position in this phase. -/
  | noOperation (p : Phase)
  /-- Bytes 0..1 are not 0x1F, 0x8B (R100). -/
  | invalidMagic
  /-- Byte 2 is not 8 (R100). -/
  | unsupportedMethod
  /-- The number is no symbol of its alphabet. -/
  | noSuchSymbol (s : Nat)
  /-- `CTRL[0]` is 0 (R233). -/
  | startNotSet
  deriving DecidableEq, Repr

/-- The operation each phase reaches by position (R23, R99). -/
def decodePhase : Phase → Except Reject Instr
  | .hdrFixed => .ok .gzHdr
  | .hdrExtra => .ok .gzFextra
  | .hdrName => .ok .gzFname
  | .hdrComment => .ok .gzFcomment
  | .hdrHcrc => .ok .gzFhcrc
  | .storedLen => .ok .storedLen
  | .storedCopy => .ok .storedByte
  | .dynCounts => .ok .dynCounts
  | .dynCllen => .ok .dynCllen
  | .dynBuild => .ok .dynBuild
  | .copy => .ok .copy
  | .trailer => .ok .gzTrailer
  | .idle => .error (.noOperation .idle)
  | .blkHdr => .error (.noOperation .blkHdr)
  | .dynLens => .error (.noOperation .dynLens)
  | .sym => .error (.noOperation .sym)
  | .symDist => .error (.noOperation .symDist)
  | .done => .error (.noOperation .done)
  | .error => .error (.noOperation .error)

/-- The block type rows (R87, R99). -/
def decodeBtype (bfinal : BitVec 1) (w : BitVec 2) : Instr :=
  if w = 0 then .blkStored bfinal else if w = 1 then .blkFixed bfinal
  else if w = 2 then .blkDynamic bfinal else .blkReserved bfinal

/-- The code-length symbol rows (R91, R99). -/
def decodeCL : Nat → Except Reject Instr
  | 0 => .ok .clLen0
  | 1 => .ok .clLen1
  | 2 => .ok .clLen2
  | 3 => .ok .clLen3
  | 4 => .ok .clLen4
  | 5 => .ok .clLen5
  | 6 => .ok .clLen6
  | 7 => .ok .clLen7
  | 8 => .ok .clLen8
  | 9 => .ok .clLen9
  | 10 => .ok .clLen10
  | 11 => .ok .clLen11
  | 12 => .ok .clLen12
  | 13 => .ok .clLen13
  | 14 => .ok .clLen14
  | 15 => .ok .clLen15
  | 16 => .ok .clRep16
  | 17 => .ok .clZrep17
  | 18 => .ok .clZrep18
  | s => .error (.noSuchSymbol s)

/-- The literal/length symbol rows from 256 on (R92, R99). -/
def decodeLLHigh : Nat → Except Reject Instr
  | 256 => .ok .eob
  | 257 => .ok .len257
  | 258 => .ok .len258
  | 259 => .ok .len259
  | 260 => .ok .len260
  | 261 => .ok .len261
  | 262 => .ok .len262
  | 263 => .ok .len263
  | 264 => .ok .len264
  | 265 => .ok .len265
  | 266 => .ok .len266
  | 267 => .ok .len267
  | 268 => .ok .len268
  | 269 => .ok .len269
  | 270 => .ok .len270
  | 271 => .ok .len271
  | 272 => .ok .len272
  | 273 => .ok .len273
  | 274 => .ok .len274
  | 275 => .ok .len275
  | 276 => .ok .len276
  | 277 => .ok .len277
  | 278 => .ok .len278
  | 279 => .ok .len279
  | 280 => .ok .len280
  | 281 => .ok .len281
  | 282 => .ok .len282
  | 283 => .ok .len283
  | 284 => .ok .len284
  | 285 => .ok .len285
  | 286 => .ok .llRsvd286
  | 287 => .ok .llRsvd287
  | s => .error (.noSuchSymbol s)

/-- The literal/length symbol rows (R92, R99): LIT is one row for symbols 0..255. -/
def decodeLL (s : Nat) : Except Reject Instr :=
  if s < 256 then .ok (.lit (BitVec.ofNat 8 s)) else decodeLLHigh s

/-- The distance symbol rows (R93, R99). -/
def decodeDist : Nat → Except Reject Instr
  | 0 => .ok .dist0
  | 1 => .ok .dist1
  | 2 => .ok .dist2
  | 3 => .ok .dist3
  | 4 => .ok .dist4
  | 5 => .ok .dist5
  | 6 => .ok .dist6
  | 7 => .ok .dist7
  | 8 => .ok .dist8
  | 9 => .ok .dist9
  | 10 => .ok .dist10
  | 11 => .ok .dist11
  | 12 => .ok .dist12
  | 13 => .ok .dist13
  | 14 => .ok .dist14
  | 15 => .ok .dist15
  | 16 => .ok .dist16
  | 17 => .ok .dist17
  | 18 => .ok .dist18
  | 19 => .ok .dist19
  | 20 => .ok .dist20
  | 21 => .ok .dist21
  | 22 => .ok .dist22
  | 23 => .ok .dist23
  | 24 => .ok .dist24
  | 25 => .ok .dist25
  | 26 => .ok .dist26
  | 27 => .ok .dist27
  | 28 => .ok .dist28
  | 29 => .ok .dist29
  | 30 => .ok .dRsvd30
  | 31 => .ok .dRsvd31
  | s => .error (.noSuchSymbol s)

/-- The GZ.HDR row (R99): the 24-bit number must be 0x088B1F; the magic is tested before CM (R201). -/
def decodeMagic (w : BitVec 24) : Except Reject Instr :=
  if w.setWidth 16 ≠ (0x8B1F : BitVec 16) then .error .invalidMagic
  else if w >>> 16 ≠ (8 : BitVec 24) then .error .unsupportedMethod else .ok .gzHdr

/-- The opcode map (R99), total on every selector: an instruction, or a rejection by name. -/
def decode : Selector → Except Reject Instr
  | .byPhase p => decodePhase p
  | .magic w => decodeMagic w
  | .btype bfinal w => .ok (decodeBtype bfinal w)
  | .cl s => decodeCL s
  | .ll s => decodeLL s
  | .dist s => decodeDist s
  | .ctrl data => if data.getLsbD 0 then .ok .start else .error .startNotSet

/-! ### The encoder -/

/-- The selector of each instruction, from the opcode table's match values (R99). -/
def selectorOf : Instr → Selector
  | .gzHdr => .byPhase .hdrFixed
  | .gzFextra => .byPhase .hdrExtra
  | .gzFname => .byPhase .hdrName
  | .gzFcomment => .byPhase .hdrComment
  | .gzFhcrc => .byPhase .hdrHcrc
  | .gzTrailer => .byPhase .trailer
  | .blkStored bfinal => .btype bfinal 0
  | .blkFixed bfinal => .btype bfinal 1
  | .blkDynamic bfinal => .btype bfinal 2
  | .blkReserved bfinal => .btype bfinal 3
  | .storedLen => .byPhase .storedLen
  | .storedByte => .byPhase .storedCopy
  | .dynCounts => .byPhase .dynCounts
  | .dynCllen => .byPhase .dynCllen
  | .dynBuild => .byPhase .dynBuild
  | .clLen0 => .cl 0
  | .clLen1 => .cl 1
  | .clLen2 => .cl 2
  | .clLen3 => .cl 3
  | .clLen4 => .cl 4
  | .clLen5 => .cl 5
  | .clLen6 => .cl 6
  | .clLen7 => .cl 7
  | .clLen8 => .cl 8
  | .clLen9 => .cl 9
  | .clLen10 => .cl 10
  | .clLen11 => .cl 11
  | .clLen12 => .cl 12
  | .clLen13 => .cl 13
  | .clLen14 => .cl 14
  | .clLen15 => .cl 15
  | .clRep16 => .cl 16
  | .clZrep17 => .cl 17
  | .clZrep18 => .cl 18
  | .lit value => .ll value.toNat
  | .eob => .ll 256
  | .len257 => .ll 257
  | .len258 => .ll 258
  | .len259 => .ll 259
  | .len260 => .ll 260
  | .len261 => .ll 261
  | .len262 => .ll 262
  | .len263 => .ll 263
  | .len264 => .ll 264
  | .len265 => .ll 265
  | .len266 => .ll 266
  | .len267 => .ll 267
  | .len268 => .ll 268
  | .len269 => .ll 269
  | .len270 => .ll 270
  | .len271 => .ll 271
  | .len272 => .ll 272
  | .len273 => .ll 273
  | .len274 => .ll 274
  | .len275 => .ll 275
  | .len276 => .ll 276
  | .len277 => .ll 277
  | .len278 => .ll 278
  | .len279 => .ll 279
  | .len280 => .ll 280
  | .len281 => .ll 281
  | .len282 => .ll 282
  | .len283 => .ll 283
  | .len284 => .ll 284
  | .len285 => .ll 285
  | .llRsvd286 => .ll 286
  | .llRsvd287 => .ll 287
  | .dist0 => .dist 0
  | .dist1 => .dist 1
  | .dist2 => .dist 2
  | .dist3 => .dist 3
  | .dist4 => .dist 4
  | .dist5 => .dist 5
  | .dist6 => .dist 6
  | .dist7 => .dist 7
  | .dist8 => .dist 8
  | .dist9 => .dist 9
  | .dist10 => .dist 10
  | .dist11 => .dist 11
  | .dist12 => .dist 12
  | .dist13 => .dist 13
  | .dist14 => .dist 14
  | .dist15 => .dist 15
  | .dist16 => .dist 16
  | .dist17 => .dist 17
  | .dist18 => .dist 18
  | .dist19 => .dist 19
  | .dist20 => .dist 20
  | .dist21 => .dist 21
  | .dist22 => .dist 22
  | .dist23 => .dist 23
  | .dist24 => .dist 24
  | .dist25 => .dist 25
  | .dist26 => .dist 26
  | .dist27 => .dist 27
  | .dist28 => .dist 28
  | .dist29 => .dist 29
  | .dRsvd30 => .dist 30
  | .dRsvd31 => .dist 31
  | .copy => .byPhase .copy
  | .start => .ctrl 1

/-- What decoding depends on besides the bits (R99, R102): the phase, the FLG byte and the three decodable arrays
(R44), which are the code-length array and the active literal/length and distance arrays (R168). -/
structure Context where
  /-- The sequencer's phase. -/
  phase : Phase
  /-- `HDR_FLG`. -/
  flg : BitVec 8
  /-- `CL_LEN`. -/
  cl : List Nat
  /-- The active literal/length array, `ALL`. -/
  ll : List Nat
  /-- The active distance array, `AD`. -/
  dist : List Nat
  deriving DecidableEq, Repr

/-- The bits the fetch consumes for an instruction, in stream order: BFINAL and BTYPE (R87), or the Huffman code of
its symbol (R65, R91 to R93); an instruction reached by position has none. -/
def encode (c : Context) (i : Instr) : List Bool :=
  match selectorOf i with
  | .byPhase _ | .magic _ | .ctrl _ => []
  | .btype bfinal w => bitsLsb bfinal.toNat 1 ++ bitsLsb w.toNat 2
  | .cl s => codeBits c.cl s
  | .ll s => codeBits c.ll s
  | .dist s => codeBits c.dist s

/-! ### The opcode table's words

The table numbers a row's bits over its SELECTOR, and selectors of different kinds share numbers (0 is BLK.STORED,
CL.LEN.0 and DIST.0), so a word of 8 bits does not say which kind it is: here it is a distance symbol, the one kind
whose 32 numbers all have a row (log 7). -/

/-- The instruction of a table word (log 7): 24 bits are the first three input bytes, 16 bits a literal/length symbol,
8 bits a distance symbol, and no bits at all DYN.BUILD, which consumes none. -/
def decodeTableWord (nbits w : Nat) : Option Instr :=
  if nbits = 24 then (decode (.magic (BitVec.ofNat 24 w))).toOption
  else if nbits = 16 then (decode (.ll w)).toOption
  else if nbits = 8 then (decode (.dist w)).toOption
  else if nbits = 0 then (decode (.byPhase .dynBuild)).toOption
  else none

end Sys2Proof
end

