-- ==== Sys2Proof/WellFormed.lean ====
section
/-! DEFINITION. When an instruction can stand in the stream at a point (spec/30_encoding.md R80, R82, R99, R102):
the phase is the one that performs it, the optional header field it is is present, and the symbol it is has a code in
the active array. -/

namespace Sys2Proof

/-- The phase of the sequencer performs this instruction (the opcode table's "phase" column; START: R232). -/
def inPhase (c : Context) (i : Instr) : Bool :=
  match selectorOf i with
  | .byPhase p => decide (c.phase = p)
  | .magic _ => decide (c.phase = .hdrFixed)
  | .btype _ _ => decide (c.phase = .blkHdr)
  | .cl _ => decide (c.phase = .dynLens)
  | .ll _ => decide (c.phase = .sym)
  | .dist _ => decide (c.phase = .symDist)
  | .ctrl _ => !c.phase.busy

/-- An optional header field is present when its FLG bit is 1 (R82, R99); everything else always is. -/
def present (c : Context) (i : Instr) : Bool :=
  match selectorOf i with
  | .byPhase .hdrExtra => c.flg.getLsbD 2
  | .byPhase .hdrName => c.flg.getLsbD 3
  | .byPhase .hdrComment => c.flg.getLsbD 4
  | .byPhase .hdrHcrc => c.flg.getLsbD 1
  | _ => true

/-- A Huffman-coded instruction has a code in the array it is decoded with (R120). -/
def coded (c : Context) (i : Instr) : Bool :=
  match selectorOf i with
  | .cl s => hasCode c.cl s
  | .ll s => hasCode c.ll s
  | .dist s => hasCode c.dist s
  | .byPhase _ | .magic _ | .btype _ _ | .ctrl _ => true

/-- The instruction can stand in the stream here. -/
def wellFormed (c : Context) (i : Instr) : Bool := inPhase c i && present c i && coded c i

end Sys2Proof
end

