-- ==== Sys2Proof/Machine/State.lean ====
section
/-! DEFINITION. The state of the block (spec/10_state.md R20 to R48), plain data: the datapath registers (R21), the
host-visible registers (R30), the four arrays (R42), the two memories (20_memory.md R60, R61), and the model's own
fields (the open parameter OUT_CAP, the host's pending moves, the counters of the free values). -/

namespace Sys2Proof.Machine

/-- The faults of the stream (60_exceptions.md R250). Each is a trap the spec describes (R251), so it ends in a NEXT
state; none of them is a stop of the model. -/
inductive Trap where
  /-- 1: a bit or byte read past the end of the input (R255). -/
  | unexpectedEof
  /-- 2: the first two bytes are not 0x1F, 0x8B (R256). -/
  | invalidMagic
  /-- 3: the CM byte is not 8 (R257). -/
  | unsupportedMethod
  /-- 4: a dynamic block's table description is inconsistent (R258). -/
  | malformedTable
  /-- 5: a decode point yields no valid symbol (R259). -/
  | invalidCode
  /-- 6: BTYPE is 3 (R260). -/
  | reservedBlockType
  /-- 7: NLEN is not the complement of LEN (R261). -/
  | lengthMismatch
  /-- 8: a distance beyond the bytes produced so far (R262). -/
  | invalidDistance
  /-- 9: the trailer's CRC-32 does not match (R263). -/
  | crcMismatch
  /-- 10: the trailer's size does not match (R264). -/
  | sizeMismatch
  /-- 11: the header CRC-16 does not match while it is checked (R265). -/
  | headerCrcMismatch
  /-- 12: the output memory is full (R266). -/
  | outputOverflow
  deriving DecidableEq, Repr

/-- Why the model stops. -/
inductive Fault where
  /-- Raised by step when PHASE is IDLE, DONE or ERROR and no host move is pending: the spec gives the core no step
  there (10_state.md R23, 44_inflate_engine.md R189). Safe. -/
  | noStep
  /-- Raised by emit and COPY for an `OUT` address outside 0..OUT_CAP-1, which does not exist (20_memory.md R61, R74);
  reached only in states that no run reaches. Safe. -/
  | noSuchOutAddress
  /-- Raised by a host access to an `IN` address of 2^32 or more, or an `OUT` address of OUT_CAP or more, which does not
  exist (R60, R61). Safe. -/
  | noSuchHostAddress
  /-- Raised by the fetch in phase SYM with BTYPE 0 or 3, which the spec says never happens (43_block_decoder.md R168);
  reached only in states that no run reaches. Safe. -/
  | noActiveTable
  deriving DecidableEq, Repr

/-- What the model gives no meaning. -/
inductive Refusal where
  /-- Raised by exec's arm of an instruction that has no meaning yet. Safe. -/
  | notModelled (mnemonic : String)
  /-- Raised by a host register access that is not 32 bits wide and aligned (10_state.md R32, 93 U8: "refuse"). Safe. -/
  | unalignedRegisterAccess
  /-- Raised by a host write of `IN`, or a host read or write of `OUT`, while BUSY (20_memory.md R73, 93 U7: "refuse").
  It assumes that the host keeps the rule: unsafe (92_eei_decisions.md D25 "toward proving"), log 2. -/
  | hostTouchesMemoryWhileBusy
  /-- Raised by the fetch for a symbol past the end of its alphabet; reached only in states that no run reaches. Safe. -/
  | noSuchSymbol
  deriving DecidableEq, Repr

/-- A move of the host (46_host_control.md R231 to R239). -/
inductive HostMove where
  /-- A register read of `size` bytes at a byte offset (R234). -/
  | regRead (offset size : Nat)
  /-- A register write of `size` bytes at a byte offset (R235); a write of 1 to `CTRL[0]` is START (R232). -/
  | regWrite (offset size : Nat) (data : Word)
  /-- A read of one byte of `IN` (R239, R73). -/
  | readIn (address : Nat)
  /-- A write of one byte of `IN` (R231, R239). -/
  | writeIn (address : Nat) (data : Byte)
  /-- A read of one byte of `OUT` (R239). -/
  | readOut (address : Nat)
  /-- A write of one byte of `OUT` (R239). -/
  | writeOut (address : Nat) (data : Byte)
  /-- Hardware reset (70_reset_and_hazards.md R280). -/
  | hardReset
  /-- The host makes no access and lets the core take one step. -/
  | wait
  deriving DecidableEq, Repr

/-- The header record (R40). -/
structure HeaderRecord where
  /-- `HDR_FLG`. -/
  flg : BitVec 8
  /-- `HDR_MTIME`. -/
  mtime : BitVec 32
  /-- `HDR_XFL`. -/
  xfl : BitVec 8
  /-- `HDR_OS`. -/
  os : BitVec 8
  /-- `HDR_EXTRA_OFF`. -/
  extraOff : BitVec 32
  /-- `HDR_EXTRA_LEN`. -/
  extraLen : BitVec 16
  /-- `HDR_NAME_OFF`. -/
  nameOff : BitVec 32
  /-- `HDR_NAME_LEN`. -/
  nameLen : BitVec 32
  /-- `HDR_COMMENT_OFF`. -/
  commentOff : BitVec 32
  /-- `HDR_COMMENT_LEN`. -/
  commentLen : BitVec 32
  /-- `HDR_HCRC`. -/
  hcrc : BitVec 16
  deriving DecidableEq, Repr

/-- The trailer record (R41). -/
structure TrailerRecord where
  /-- `TRL_CRC32`. -/
  crc32 : BitVec 32
  /-- `TRL_ISIZE`. -/
  isize : BitVec 32
  deriving DecidableEq, Repr

/-- The header record after reset and START (R48, R49): all 0. -/
def HeaderRecord.zero : HeaderRecord :=
  { flg := 0, mtime := 0, xfl := 0, os := 0, extraOff := 0, extraLen := 0, nameOff := 0, nameLen := 0,
    commentOff := 0, commentLen := 0, hcrc := 0 }

/-- The trailer record after reset and START (R48, R49): all 0. -/
def TrailerRecord.zero : TrailerRecord := { crc32 := 0, isize := 0 }

/-- The state of the block. -/
structure State where
  /-- `PHASE` (R23). -/
  phase : Phase
  /-- `BYTE_POS`, half of the cursor (R22); the host sees it as `IN_POS` (R37). -/
  bytePos : BitVec 32
  /-- `BIT_OFF`, half of the cursor (R22); the host sees it as `IN_BIT` (R37). -/
  bitOff : BitVec 3
  /-- `BFINAL` (R24). -/
  bfinal : BitVec 1
  /-- `BTYPE` (R24). -/
  btype : BitVec 2
  /-- `HLIT` (R25). -/
  hlit : BitVec 9
  /-- `HDIST` (R25). -/
  hdist : BitVec 6
  /-- `HCLEN` (R25). -/
  hclen : BitVec 5
  /-- `IDX` (R25). -/
  idx : BitVec 9
  /-- `S_REM` (R26). -/
  sRem : BitVec 16
  /-- `M_LEN` (R26). -/
  mLen : BitVec 9
  /-- `M_DIST` (R26). -/
  mDist : BitVec 16
  /-- `OUT_POS` (R27); the host sees it as `OUT_LEN_HI ++ OUT_LEN_LO` (R38). -/
  outPos : BitVec 64
  /-- `CRC` (R28, R39). -/
  crc : BitVec 32
  /-- `CFG.HCRC_CHECK` (R33). -/
  hcrcCheck : BitVec 1
  /-- `IN_LEN` (R34). -/
  inLen : BitVec 32
  /-- `STATUS.TRAILING` (R35); `STATUS.STATE` is a function of `PHASE`. -/
  trailing : BitVec 1
  /-- `ERR` (R36). -/
  err : BitVec 4
  /-- `HDR_*` (R40). -/
  hdr : HeaderRecord
  /-- `TRL_*` (R41). -/
  trl : TrailerRecord
  /-- `CL_LEN[0..18]` (R42). -/
  clLen : List (BitVec 3)
  /-- `FLAT[0..317]` (R42). -/
  flat : List (BitVec 4)
  /-- `LL_LEN[0..287]` (R42). -/
  llLen : List (BitVec 4)
  /-- `D_LEN[0..31]` (R42). -/
  dLen : List (BitVec 4)
  /-- The input memory `IN` (20_memory.md R60). -/
  inMem : Memory
  /-- The output memory `OUT`, which is the window (20_memory.md R61, 44_inflate_engine.md R182). -/
  outMem : Memory
  /-- MODEL: the open parameter `OUT_CAP` (00_scope.md R8); no step writes it (log 5). -/
  outCap : BitVec 64
  /-- MODEL: the host's pending moves, oldest first (log 2). -/
  pending : List HostMove
  /-- MODEL: what the host's last read returned (log 2). -/
  hostData : Word
  /-- MODEL: the counter the free values are drawn from (log 6). -/
  draws : Nat
  /-- MODEL: which free content an unlisted byte of `OUT` shows (log 4). -/
  outEpoch : Nat
  deriving DecidableEq, Repr

/-- The machine right after reset (R48, 70_reset_and_hazards.md R281). R48 leaves the arrays and memories unspecified:
the arrays are 0 here (log 3), the memories list nothing (log 4). -/
def State.reset : State :=
  { phase := .idle, bytePos := 0, bitOff := 0, bfinal := 0, btype := 0, hlit := 0, hdist := 0, hclen := 0, idx := 0,
    sRem := 0, mLen := 0, mDist := 0, outPos := 0, crc := 0, hcrcCheck := 0, inLen := 0, trailing := 0, err := 0,
    hdr := HeaderRecord.zero, trl := TrailerRecord.zero,
    clLen := List.replicate Config.nCL 0, flat := List.replicate Config.nFlat 0,
    llLen := List.replicate Config.nLL 0, dLen := List.replicate Config.nD 0,
    inMem := [], outMem := [], outCap := Config.resetOutCap, pending := [], hostData := 0, draws := 0, outEpoch := 0 }

end Sys2Proof.Machine
end

