-- ==== Sys2Proof/Machine/Flags.lean ====
section
/-! DEFINITION. The one-bit state and what is computed over it (spec/10_state.md R29): STATUS, the bits of HDR_FLG,
the fault codes of ERR, and the check values (CRC-32, spec/45_gzip_container.md R208, R209). There are no condition
codes. -/

namespace Sys2Proof.Machine

/-- `STATUS.STATE` is BUSY (R35): the core has a step (R23). -/
def State.busy (s : State) : Bool := s.phase.busy

/-- `STATUS.STATE` (R35). -/
def statusState (p : Phase) : BitVec 2 :=
  match p with
  | .idle => 0
  | .done => 2
  | .error => 3
  | .hdrFixed | .hdrExtra | .hdrName | .hdrComment | .hdrHcrc | .blkHdr | .storedLen | .storedCopy | .dynCounts
  | .dynCllen | .dynLens | .dynBuild | .sym | .symDist | .copy | .trailer => 1

/-- `STATUS` (R30, R35): [1:0] STATE, [2] TRAILING, [31:3] read 0. -/
def statusWord (s : State) : Word := s.trailing.setWidth 32 <<< 2 ||| (statusState s.phase).setWidth 32

/-- `HDR_FLG[1]` (R82). -/
def flagHcrc (s : State) : Bool := s.hdr.flg.getLsbD 1

/-- `HDR_FLG[2]` (R82). -/
def flagExtra (s : State) : Bool := s.hdr.flg.getLsbD 2

/-- `HDR_FLG[3]` (R82). -/
def flagName (s : State) : Bool := s.hdr.flg.getLsbD 3

/-- `HDR_FLG[4]` (R82). -/
def flagComment (s : State) : Bool := s.hdr.flg.getLsbD 4

/-- The code of a fault in `ERR` (60_exceptions.md R250). -/
def trapCode : Trap → BitVec 4
  | .unexpectedEof => 1
  | .invalidMagic => 2
  | .unsupportedMethod => 3
  | .malformedTable => 4
  | .invalidCode => 5
  | .reservedBlockType => 6
  | .lengthMismatch => 7
  | .invalidDistance => 8
  | .crcMismatch => 9
  | .sizeMismatch => 10
  | .headerCrcMismatch => 11
  | .outputOverflow => 12

/-- One of the eight shift steps of `crc_update` (R208). -/
def crcShift (x : BitVec 32) : BitVec 32 := if x.getLsbD 0 then x >>> 1 ^^^ 0xEDB88320 else x >>> 1

/-- `n` shift steps. -/
def crcShifts : Nat → BitVec 32 → BitVec 32
  | 0, x => x
  | n + 1, x => crcShifts n (crcShift x)

/-- `crc_update(c, b)` (R208). -/
def crcUpdate (c : BitVec 32) (b : Byte) : BitVec 32 :=
  crcShifts 8 (c ^^^ 0xFFFFFFFF ^^^ b.setWidth 32) ^^^ 0xFFFFFFFF

/-- `CRC32(bytes)` (R209). -/
def crc32 (bytes : List Byte) : BitVec 32 := bytes.foldl crcUpdate 0

end Sys2Proof.Machine
end

