-- ==== Sys2Proof/Machine/Ops.lean ====
section
/-! DEFINITION. The named operations over memory and registers: the two byte memories (spec/20_memory.md), the
operation type with its trap and its stops, taking a trap (spec/60_exceptions.md R251), the reader primitives
(spec/40_bitstream_reader.md R111 to R114), `emit` (spec/44_inflate_engine.md R183), `block_end`
(spec/43_block_decoder.md R176) and the writes of `FLAT`. -/

namespace Sys2Proof.Machine

/-! ### Memory -/

/-- The canonical form of a memory: addresses strictly rising. What an unlisted address reads as is a free value, so
no entry can be left out for its byte. -/
abbrev Memory.wf (m : Memory) : Prop := m.Pairwise fun p q => p.1 < q.1

/-- The byte listed at an address. -/
def memLookup : Memory → Nat → Option Byte
  | [], _ => none
  | (a, b) :: rest, x => if a = x then some b else memLookup rest x

/-- `MemWrite` (R14): the byte is listed at its address, in order, once. -/
def memWrite : Memory → Nat → Byte → Memory
  | [], x, v => [(x, v)]
  | (a, b) :: rest, x, v =>
    if x < a then (x, v) :: (a, b) :: rest
    else if a = x then (x, v) :: rest
    else (a, b) :: memWrite rest x v

/-- `MemRead(IN:a, 1)` (R14): a byte nothing has written reads as a free value (log 4). -/
def inByte (s : State) (a : Nat) : Byte := (memLookup s.inMem a).getD (Config.unwrittenIn a)

/-- `MemRead(OUT:a, 1)` (R14): a byte nothing has written reads as a free value (log 4). -/
def outByte (s : State) (a : Nat) : Byte := (memLookup s.outMem a).getD (Config.unwrittenOut s.outEpoch a)

/-- `IN[a : a+n)` (R14). -/
def inBytes (s : State) (a : Nat) : Nat → List Byte
  | 0 => []
  | n + 1 => inByte s a :: inBytes s (a + 1) n

/-- `OUT[a : a+n)` (R14). -/
def outBytes (s : State) (a : Nat) : Nat → List Byte
  | 0 => []
  | n + 1 => outByte s a :: outBytes s (a + 1) n

/-! ### Operations

An operation reads and writes the state in the order its rule lists, and may end early: with a trap of the spec, which
keeps every write before it (R15, R251), or with a stop of the model. -/

/-- How an operation ends early. -/
inductive Stop where
  /-- `raise E` (R15). -/
  | trap (e : Trap)
  /-- The model stops. -/
  | fault (f : Fault)
  /-- The model gives no meaning. -/
  | refuse (r : Refusal)
  deriving DecidableEq, Repr

/-- An operation with a result: it ends `.ok result state` or `.error stop state`, the state as it was left. -/
abbrev Op (α : Type) : Type := EStateM Stop State α

/-- The state now. -/
def getState : Op State := fun s => .ok s s

/-- Register and memory writes. -/
def update (f : State → State) : Op Unit := fun s => .ok () (f s)

/-- `raise E` (R15): what was written stands, nothing after it happens. -/
def raise {α : Type} (e : Trap) : Op α := fun s => .error (.trap e) s

/-- A stop of the model. -/
def stopFault {α : Type} (f : Fault) : Op α := fun s => .error (.fault f) s

/-- A refusal of the model. -/
def stopRefuse {α : Type} (r : Refusal) : Op α := fun s => .error (.refuse r) s

/-- `if not c: raise E`. -/
def require (c : Bool) (e : Trap) : Op Unit := fun s => if c then .ok () s else .error (.trap e) s

/-- TAKING A TRAP (60_exceptions.md R251): `ERR <- code(E)`, `PHASE <- ERROR`, and nothing else. There is no return
from one (R252). -/
def takeTrap (e : Trap) (s : State) : State := { s with err := trapCode e, phase := .error }

/-- The end of an operation as a step: a trap is taken in the state the operation left (R189). -/
def finish (op : Op Unit) (s : State) : Host.Outcome State Fault Refusal :=
  match op s with
  | .ok _ t => .next t
  | .error (.trap e) t => .next (takeTrap e t)
  | .error (.fault f) _ => .fault f
  | .error (.refuse r) _ => .refused r

/-- `PHASE <- P` (R13). -/
def setPhase (p : Phase) (s : State) : State := { s with phase := p }

/-! ### bitstream_reader -/

/-- The linear bit position of the cursor, `8 * BYTE_POS + BIT_OFF` (R22). -/
def linPos (s : State) : Nat := 8 * s.bytePos.toNat + s.bitOff.toNat

/-- The cursor at a linear bit position, in the normal form of R22. -/
def cursorTo (k : Nat) (s : State) : State :=
  { s with bytePos := BitVec.ofNat 32 (k / 8), bitOff := BitVec.ofNat 3 (k % 8) }

/-- The input bit at a linear bit position: bit `k mod 8` of byte `k / 8` (R63). -/
def inBit (s : State) (k : Nat) : Bool := (inByte s (k / 8)).getLsbD (k % 8)

/-- The number formed by `n` input bits from linear position `k`, the first one least significant (R63, R111). -/
def inField (s : State) (k : Nat) : Nat → Nat
  | 0 => 0
  | n + 1 => (inBit s k).toNat + 2 * inField s (k + 1) n

/-- `n` more bits would cross the end of the input: `n > 8 * (IN_LEN - BYTE_POS) - BIT_OFF` (R111), as an exact sum. -/
def pastEnd (s : State) (n : Nat) : Bool := decide (8 * s.inLen.toNat < linPos s + n)

/-- `read_bits(n)` (R111): atomic, so a read that fails moves nothing (R110). -/
def readBits (n : Nat) : Op Nat := fun s =>
  if pastEnd s n then .error (.trap .unexpectedEof) s
  else .ok (inField s (linPos s) n) (cursorTo (linPos s + n) s)

/-- `align_to_byte()` (R112). -/
def alignToByte : Op Unit := fun s =>
  .ok () (if s.bitOff = 0 then s else { s with bitOff := 0, bytePos := s.bytePos + 1 })

/-- The little-endian number of `k` input bytes from address `a` (R64, R113). -/
def inLe (s : State) (a : Nat) : Nat → Nat
  | 0 => 0
  | k + 1 => (inByte s a).toNat + 256 * inLe s (a + 1) k

/-- `read_bytes_le(k)` (R113), at `BIT_OFF` = 0: atomic (R110). -/
def readBytesLe (k : Nat) : Op Nat := fun s =>
  if s.inLen.toNat < s.bytePos.toNat + k then .error (.trap .unexpectedEof) s
  else .ok (inLe s s.bytePos.toNat k) { s with bytePos := BitVec.ofNat 32 (s.bytePos.toNat + k) }

/-- `at_end()` (R114). -/
def atEnd (s : State) : Bool := decide (s.bytePos = s.inLen)

/-- `repeat: b = read_byte() until b == 0` (R203, R204). Each round reads one byte or raises, so the bytes that remain,
and one more, are rounds enough (R116). -/
def skipString : Nat → Op Unit
  | 0 => raise .unexpectedEof
  | n + 1 => do
    let b ← readBytesLe 1
    if b = 0 then pure () else skipString n

/-! ### lz77_window -/

/-- The state after `emit(b)` has found room (R183): the byte is written, `CRC` and `OUT_POS` follow. -/
def emitted (b : Byte) (s : State) : State :=
  { s with outMem := memWrite s.outMem s.outPos.toNat b, crc := crcUpdate s.crc b, outPos := s.outPos + 1 }

/-- `emit(b)` (R183), the only writer of `OUT`, `OUT_POS` and `CRC`. -/
def emit (b : Byte) : Op Unit := fun s =>
  if s.outPos = s.outCap then .error (.trap .outputOverflow) s
  else if s.outPos.toNat < s.outCap.toNat then .ok () (emitted b s)
  else .error (.fault .noSuchOutAddress) s

/-- `MemRead(OUT:OUT_POS - M_DIST, 1)` (R185): the difference is never negative in a run (R184); an address that does
not exist stops the model. -/
def readWindow : Op Byte := fun s =>
  if s.mDist.toNat ≤ s.outPos.toNat ∧ s.outPos.toNat - s.mDist.toNat < s.outCap.toNat then
    .ok (outByte s (s.outPos.toNat - s.mDist.toNat)) s
  else .error (.fault .noSuchOutAddress) s

/-! ### Sequencing and tables -/

/-- Where `block_end()` goes (R176). -/
def blockEndPhase (s : State) : Phase := if s.bfinal = 1 then .trailer else .blkHdr

/-- `block_end()` (R176). -/
def blockEnd : Op Unit := update fun s => setPhase (blockEndPhase s) s

/-- `for j = 0 .. n-1: FLAT[i + j] <- v` (R144 to R147). -/
def fillFlat (v : BitVec 4) (i : Nat) : Nat → List (BitVec 4) → List (BitVec 4)
  | 0, l => l
  | n + 1, l => fillFlat v (i + 1) n (l.set i v)

/-- `total = HLIT + HDIST` (R143). -/
def flatTotal (s : State) : Nat := s.hlit.toNat + s.hdist.toNat

/-- `n` entries of value `v` at `IDX`, and `IDX` moved past them (R144 to R147). -/
def appendFlat (v : BitVec 4) (n : Nat) (s : State) : State :=
  { s with flat := fillFlat v s.idx.toNat n s.flat, idx := BitVec.ofNat 9 (s.idx.toNat + n) }

end Sys2Proof.Machine
end

