-- ==== Sys2Proof/Machine/Operands.lean ====
section
/-! DEFINITION. Operand assembly (spec/30_encoding.md R98): Huffman symbols (spec/41_huffman_tables.md R123, R124,
R126, R127), the active arrays (spec/43_block_decoder.md R168), and the shared bodies of the operations whose rows
differ only in a constant: code lengths, zero runs, lengths, distances. -/

namespace Sys2Proof.Machine

/-! ### huffman_table_builder -/

/-- What `kraft_check` answers (R123). -/
inductive Kraft where
  /-- Complete. -/
  | ok
  /-- Over-subscribed. -/
  | over
  /-- Under-subscribed. -/
  | under
  deriving DecidableEq, Repr

/-- The loop of `kraft_check` (R123) over the lengths `len`, `len + 1`, ...: `left * 2 - count[len]` below 0 is `over`. -/
def kraftLoop (lens : List Nat) : (left len : Nat) → Nat → Kraft
  | left, _, 0 => if 0 < left then .under else .ok
  | left, len, n + 1 =>
    if left * 2 < countLen lens len then .over else kraftLoop lens (left * 2 - countLen lens len) (len + 1) n

/-- `kraft_check(LENS, maxbits)` (R123). -/
def kraftCheck (lens : List Nat) (maxbits : Nat) : Kraft := kraftLoop lens 1 1 maxbits

/-- The test of R124: `over` is rejected, and `under` too when `P_STRICT_KRAFT` is true. -/
def kraftAccepts (strict : Bool) : Kraft → Bool
  | .ok => true
  | .over => false
  | .under => !strict

/-- Applying the check to a transmitted array (R124). -/
def requireKraft (lens : List Nat) (maxbits : Nat) : Op Unit :=
  require (kraftAccepts Config.strictKraft (kraftCheck lens maxbits)) .malformedTable

/-- A code-length array as naturals. -/
def lensOf {w : Nat} (l : List (BitVec w)) : List Nat := l.map BitVec.toNat

/-! ### huffman_decoder -/

/-- The loop of `huff_decode` (R126) from length `len` on, with `code` read so far and `n` lengths left. -/
def huffLoop (lens : List Nat) : (len code n : Nat) → Op Nat
  | _, _, 0 => raise .invalidCode
  | len, code, n + 1 => do
    let b ← readBits 1
    match findSym lens len (code <<< 1 ||| b) with
    | some s => pure s
    | none => huffLoop lens (len + 1) (code <<< 1 ||| b) n

/-- `huff_decode(LENS, maxbits)` (R126). -/
def huffDecode (lens : List Nat) (maxbits : Nat) : Op Nat := huffLoop lens 1 0 maxbits

/-- The symbols of code length `len`, in increasing order, from symbol `s` on. -/
def symbolsOfLen (len : Nat) : (s : Nat) → List Nat → List Nat
  | _, [] => []
  | s, l :: rest => if l = len then s :: symbolsOfLen len (s + 1) rest else symbolsOfLen len (s + 1) rest

/-- `sorted[]` of R127: the symbols with a code, sorted by length and then by index. -/
def sortedSymbols (lens : List Nat) : (len n : Nat) → List Nat
  | _, 0 => []
  | len, n + 1 => symbolsOfLen len 0 lens ++ sortedSymbols lens (len + 1) n

/-- The loop of R127: `code`, `first` and `index` as the rule keeps them, `n` lengths left from `len` on. -/
def countLoop (lens sorted : List Nat) : (len code first index n : Nat) → Op Nat
  | _, _, _, _, 0 => raise .invalidCode
  | len, code, first, index, n + 1 => do
    let b ← readBits 1
    if (code ||| b) < first + countLen lens len then
      pure (sorted.getD (index + ((code ||| b) - first)) 0)
    else
      countLoop lens sorted (len + 1) ((code ||| b) <<< 1) ((first + countLen lens len) <<< 1)
        (index + countLen lens len) n

/-- The count-based decoder of R127. The machine does not use it: R126 is the normative definition, and that the two
agree is stated as an obligation. -/
def huffDecodeByCount (lens : List Nat) (maxbits : Nat) : Op Nat :=
  countLoop lens (sortedSymbols lens 1 maxbits) 1 0 0 0 maxbits

/-! ### Active tables -/

/-- `ALL` (R168), in phase SYM. -/
def activeLL (s : State) : List Nat := if s.btype = 1 then fixLL else lensOf s.llLen

/-- `AD` (R168), in phase SYM. -/
def activeDist (s : State) : List Nat := if s.btype = 1 then fixD else lensOf s.dLen

/-- `BTYPE` is 1 or 2 in phase SYM (R168). -/
def hasActiveTables (s : State) : Bool := decide (s.btype = 1) || decide (s.btype = 2)

/-- What the decoder sees of the state (R99, R102). -/
def contextOf (s : State) : Context :=
  { phase := s.phase, flg := s.hdr.flg, cl := lensOf s.clLen, ll := activeLL s, dist := activeDist s }

/-! ### Shared bodies -/

/-- CL.LEN (R144): the next code length is `v`. -/
def appendLength (v : BitVec 4) : Op Unit := update (appendFlat v 1)

/-- CL.ZREP17 and CL.ZREP18 (R146, R147): `base` plus `n` extra bits zero lengths. -/
def zeroRun (base n : Nat) : Op Unit := do
  let e ← readBits n
  let s ← getState
  require (decide (s.idx.toNat + (base + e) ≤ flatTotal s)) .malformedTable
  update (appendFlat 0 (base + e))

/-- LEN (R172) for index `i` = symbol - 257 of the length table; DIST is next. -/
def matchLength (i : Nat) : Op Unit := do
  let e ← readBits (lext.getD i 0)
  update fun s => { s with mLen := BitVec.ofNat 9 (lbase.getD i 0 + e), phase := .symDist }

/-- DIST (R173) for distance symbol `d` below 30, after the symbol itself. -/
def matchDistance (d : Nat) : Op Unit := do
  let e ← readBits (dext.getD d 0)
  let s ← getState
  require (decide (dbase.getD d 0 + e ≤ s.outPos.toNat)) .invalidDistance
  update fun s => { s with mDist := BitVec.ofNat 16 (dbase.getD d 0 + e), phase := .copy }

end Sys2Proof.Machine
end

