-- ==== Sys2Proof/Machine/Block.lean ====
section
/-! DEFINITION. block_state_machine: the block types and the stored block (spec/43_block_decoder.md R161 to R167).
BLK.HDR is the 3-bit read that produces the BTYPE selector and has no row of its own (spec/30_encoding.md R99): the
fetch makes it, and its four outcomes are the instructions here. -/

namespace Sys2Proof.Machine

/-- The registers a block header leaves (R161): `BFINAL`, `BTYPE`, and the phase its type selects. -/
def blockHeader (bfinal : BitVec 1) (btype : BitVec 2) (p : Phase) : Op Unit :=
  update fun s => { s with bfinal := bfinal, btype := btype, phase := p }

/-- BLK.STORED (R161, R162). -/
def execBlkStored (bfinal : BitVec 1) (s : State) : Host.Outcome State Fault Refusal :=
  finish (blockHeader bfinal 0 .storedLen) s

/-- BLK.FIXED (R161, R163). -/
def execBlkFixed (bfinal : BitVec 1) (s : State) : Host.Outcome State Fault Refusal :=
  finish (blockHeader bfinal 1 .sym) s

/-- BLK.DYNAMIC (R161, R164). -/
def execBlkDynamic (bfinal : BitVec 1) (s : State) : Host.Outcome State Fault Refusal :=
  finish (blockHeader bfinal 2 .dynCounts) s

/-- BLK.RESERVED (R161, R165): BFINAL and BTYPE hold the header's values, and it faults (R260). -/
def execBlkReserved (bfinal : BitVec 1) (s : State) : Host.Outcome State Fault Refusal :=
  finish (do
    update fun s => { s with bfinal := bfinal, btype := 3 }
    raise .reservedBlockType) s

/-- STORED.LEN (R166): `NLEN` must be `LEN ^ 0xFFFF` (R18). -/
def execStoredLen (s : State) : Host.Outcome State Fault Refusal :=
  finish (do
    alignToByte
    let len ← readBytesLe 2
    let nlen ← readBytesLe 2
    require (decide (nlen = len ^^^ 0xFFFF)) .lengthMismatch
    update fun s => { s with sRem := BitVec.ofNat 16 len }
    update (setPhase .storedCopy)) s

/-- STORED.BYTE (R167). -/
def execStoredByte (s : State) : Host.Outcome State Fault Refusal :=
  finish (
    if s.sRem = 0 then blockEnd
    else do
      let b ← readBytesLe 1
      emit (BitVec.ofNat 8 b)
      update fun s => { s with sRem := s.sRem - 1 }) s

end Sys2Proof.Machine
end

