-- ==== Sys2Proof/Machine/Dynamic.lean ====
section
/-! DEFINITION. The dynamic table reader: DYN.* and CL.* (spec/42_dynamic_tables.md). The loop test of R143 and the
decoding of the CL symbol are the fetch's; what each symbol does is here. -/

namespace Sys2Proof.Machine

/-- DYN.COUNTS (R141). `HDIST > 32` and `HCLEN > 19` cannot happen with 5- and 4-bit fields (90_conflicts.md C2), and
are tested all the same. -/
def execDynCounts (s : State) : Host.Outcome State Fault Refusal :=
  finish (do
    let hlitf ← readBits 5
    update fun s => { s with hlit := BitVec.ofNat 9 (hlitf + 257) }
    let hdistf ← readBits 5
    update fun s => { s with hdist := BitVec.ofNat 6 (hdistf + 1) }
    let hclenf ← readBits 4
    update fun s => { s with hclen := BitVec.ofNat 5 (hclenf + 4) }
    let s ← getState
    require (decide (s.hlit.toNat ≤ 286)) .malformedTable
    require (decide (s.hdist.toNat ≤ 32 ∧ s.hclen.toNat ≤ 19)) .malformedTable
    update (setPhase .dynCllen)) s

/-- `CL_LEN[CL_ORDER[i]] <- read_bits(3)` for the given positions of `CL_ORDER` (R142). -/
def readClLens : List Nat → Op Unit
  | [] => pure ()
  | sym :: rest => do
    let v ← readBits 3
    update fun s => { s with clLen := s.clLen.set sym (BitVec.ofNat 3 v) }
    readClLens rest

/-- DYN.CLLEN (R142). -/
def execDynCllen (s : State) : Host.Outcome State Fault Refusal :=
  finish (do
    update fun s => { s with clLen := List.replicate Config.nCL 0 }
    readClLens (clOrder.take s.hclen.toNat)
    let t ← getState
    requireKraft (lensOf t.clLen) Config.maxBitsCL
    update fun s => { s with idx := 0 }
    update (setPhase .dynLens)) s

/-- CL.LEN.0 (R144). -/
def execClLen0 (s : State) : Host.Outcome State Fault Refusal := finish (appendLength 0) s

/-- CL.LEN.1 (R144). -/
def execClLen1 (s : State) : Host.Outcome State Fault Refusal := finish (appendLength 1) s

/-- CL.LEN.2 (R144). -/
def execClLen2 (s : State) : Host.Outcome State Fault Refusal := finish (appendLength 2) s

/-- CL.LEN.3 (R144). -/
def execClLen3 (s : State) : Host.Outcome State Fault Refusal := finish (appendLength 3) s

/-- CL.LEN.4 (R144). -/
def execClLen4 (s : State) : Host.Outcome State Fault Refusal := finish (appendLength 4) s

/-- CL.LEN.5 (R144). -/
def execClLen5 (s : State) : Host.Outcome State Fault Refusal := finish (appendLength 5) s

/-- CL.LEN.6 (R144). -/
def execClLen6 (s : State) : Host.Outcome State Fault Refusal := finish (appendLength 6) s

/-- CL.LEN.7 (R144). -/
def execClLen7 (s : State) : Host.Outcome State Fault Refusal := finish (appendLength 7) s

/-- CL.LEN.8 (R144). -/
def execClLen8 (s : State) : Host.Outcome State Fault Refusal := finish (appendLength 8) s

/-- CL.LEN.9 (R144). -/
def execClLen9 (s : State) : Host.Outcome State Fault Refusal := finish (appendLength 9) s

/-- CL.LEN.10 (R144). -/
def execClLen10 (s : State) : Host.Outcome State Fault Refusal := finish (appendLength 10) s

/-- CL.LEN.11 (R144). -/
def execClLen11 (s : State) : Host.Outcome State Fault Refusal := finish (appendLength 11) s

/-- CL.LEN.12 (R144). -/
def execClLen12 (s : State) : Host.Outcome State Fault Refusal := finish (appendLength 12) s

/-- CL.LEN.13 (R144). -/
def execClLen13 (s : State) : Host.Outcome State Fault Refusal := finish (appendLength 13) s

/-- CL.LEN.14 (R144). -/
def execClLen14 (s : State) : Host.Outcome State Fault Refusal := finish (appendLength 14) s

/-- CL.LEN.15 (R144). -/
def execClLen15 (s : State) : Host.Outcome State Fault Refusal := finish (appendLength 15) s

/-- CL.REP16 (R145): the extra bits are read before the tests. -/
def execClRep16 (s : State) : Host.Outcome State Fault Refusal :=
  finish (do
    let e ← readBits 2
    let s ← getState
    require (decide (s.idx ≠ 0)) .malformedTable
    require (decide (s.idx.toNat + (3 + e) ≤ flatTotal s)) .malformedTable
    update (appendFlat (s.flat.getD (s.idx.toNat - 1) 0) (3 + e))) s

/-- CL.ZREP17 (R146). -/
def execClZrep17 (s : State) : Host.Outcome State Fault Refusal := finish (zeroRun 3 3) s

/-- CL.ZREP18 (R147). -/
def execClZrep18 (s : State) : Host.Outcome State Fault Refusal := finish (zeroRun 11 7) s

/-- `LL_LEN[s] <- (s < HLIT) ? FLAT[s] : 0` for the 288 symbols (R148). -/
def builtLL (s : State) : List (BitVec 4) :=
  (List.range Config.nLL).map fun i => if i < s.hlit.toNat then s.flat.getD i 0 else 0

/-- `D_LEN[s] <- (s < HDIST) ? FLAT[HLIT + s] : 0` for the 32 symbols (R148). -/
def builtDist (s : State) : List (BitVec 4) :=
  (List.range Config.nD).map fun i => if i < s.hdist.toNat then s.flat.getD (s.hlit.toNat + i) 0 else 0

/-- DYN.BUILD (R148). -/
def execDynBuild (s : State) : Host.Outcome State Fault Refusal :=
  finish (do
    update fun s => { s with llLen := builtLL s }
    update fun s => { s with dLen := builtDist s }
    let t ← getState
    requireKraft (lensOf t.llLen) Config.maxBitsLL
    requireKraft (lensOf t.dLen) Config.maxBitsD
    update (setPhase .sym)) s

end Sys2Proof.Machine
end

