-- ==== Sys2Proof/Machine/Gzip.lean ====
section
/-! DEFINITION. gzip_header_parser and crc32_validator: the GZ.* instructions (spec/45_gzip_container.md). -/

namespace Sys2Proof.Machine

/-- GZ.HDR (R201). -/
def execGzHdr (s : State) : Host.Outcome State Fault Refusal :=
  finish (do
    let magic ← readBytesLe 2
    require (decide (magic = 0x8B1F)) .invalidMagic
    let cm ← readBytesLe 1
    require (decide (cm = 8)) .unsupportedMethod
    let flg ← readBytesLe 1
    update fun s => { s with hdr := { s.hdr with flg := BitVec.ofNat 8 flg } }
    let mtime ← readBytesLe 4
    update fun s => { s with hdr := { s.hdr with mtime := BitVec.ofNat 32 mtime } }
    let xfl ← readBytesLe 1
    update fun s => { s with hdr := { s.hdr with xfl := BitVec.ofNat 8 xfl } }
    let os ← readBytesLe 1
    update fun s => { s with hdr := { s.hdr with os := BitVec.ofNat 8 os } }
    update (setPhase .hdrExtra)) s

/-- The body of GZ.FEXTRA when the field is present (R202). The payload is skipped, not read. -/
def extraField : Op Unit := do
  let xlen ← readBytesLe 2
  let s ← getState
  require (decide (s.bytePos.toNat + xlen ≤ s.inLen.toNat)) .unexpectedEof
  update fun s => { s with hdr := { s.hdr with extraOff := s.bytePos } }
  update fun s => { s with hdr := { s.hdr with extraLen := BitVec.ofNat 16 xlen } }
  update fun s => { s with bytePos := BitVec.ofNat 32 (s.bytePos.toNat + xlen) }

/-- GZ.FEXTRA (R202). -/
def execGzFextra (s : State) : Host.Outcome State Fault Refusal :=
  finish (do
    if flagExtra s then extraField else pure ()
    update (setPhase .hdrName)) s

/-- Rounds enough for `skipString` (R116): every input byte left, and one more for the read that raises. -/
def stringRounds (s : State) : Nat := s.inLen.toNat - s.bytePos.toNat + 1

/-- The body of GZ.FNAME when the field is present (R203). -/
def nameField : Op Unit := do
  update fun s => { s with hdr := { s.hdr with nameOff := s.bytePos } }
  let s ← getState
  skipString (stringRounds s)
  update fun s =>
    { s with hdr := { s.hdr with nameLen := BitVec.ofNat 32 (s.bytePos.toNat - 1 - s.hdr.nameOff.toNat) } }

/-- GZ.FNAME (R203). -/
def execGzFname (s : State) : Host.Outcome State Fault Refusal :=
  finish (do
    if flagName s then nameField else pure ()
    update (setPhase .hdrComment)) s

/-- The body of GZ.FCOMMENT when the field is present (R204). -/
def commentField : Op Unit := do
  update fun s => { s with hdr := { s.hdr with commentOff := s.bytePos } }
  let s ← getState
  skipString (stringRounds s)
  update fun s =>
    { s with hdr := { s.hdr with commentLen := BitVec.ofNat 32 (s.bytePos.toNat - 1 - s.hdr.commentOff.toNat) } }

/-- GZ.FCOMMENT (R204). -/
def execGzFcomment (s : State) : Host.Outcome State Fault Refusal :=
  finish (do
    if flagComment s then commentField else pure ()
    update (setPhase .hdrHcrc)) s

/-- The header CRC-16 of the bytes `IN[0:p)` (R85, R206): the low half of their CRC-32. -/
def headerCrc16 (s : State) (p : Nat) : BitVec 16 := (crc32 (inBytes s 0 p)).setWidth 16

/-- The body of GZ.FHCRC when the field is present (R205): it is checked only when `CFG.HCRC_CHECK` is 1 (R33). -/
def hcrcField : Op Unit := do
  let before ← getState
  let v ← readBytesLe 2
  update fun s => { s with hdr := { s.hdr with hcrc := BitVec.ofNat 16 v } }
  let s ← getState
  if s.hcrcCheck = 1 then
    require (decide (headerCrc16 s before.bytePos.toNat = s.hdr.hcrc)) .headerCrcMismatch
  else pure ()

/-- GZ.FHCRC (R205). -/
def execGzFhcrc (s : State) : Host.Outcome State Fault Refusal :=
  finish (do
    if flagHcrc s then hcrcField else pure ()
    update (setPhase .blkHdr)) s

/-- GZ.TRAILER (R210, R212). -/
def execGzTrailer (s : State) : Host.Outcome State Fault Refusal :=
  finish (do
    alignToByte
    let crc ← readBytesLe 4
    update fun s => { s with trl := { s.trl with crc32 := BitVec.ofNat 32 crc } }
    let isize ← readBytesLe 4
    update fun s => { s with trl := { s.trl with isize := BitVec.ofNat 32 isize } }
    let s ← getState
    require (decide (s.trl.crc32 = s.crc)) .crcMismatch
    require (decide (s.trl.isize = s.outPos.setWidth 32)) .sizeMismatch
    update fun s => { s with trailing := if atEnd s then 0 else 1 }
    update (setPhase .done)) s

end Sys2Proof.Machine
end

