-- ==== Sys2Proof/Machine/HostControl.lean ====
section
/-! DEFINITION. The host interface and run control: START, register reads and writes, host access to the memories,
hardware reset (spec/46_host_control.md; spec/10_state.md R30 to R41, R48, R49; spec/70_reset_and_hazards.md R280). -/

namespace Sys2Proof.Machine

/-- What an accepted START leaves (R49, R232): every datapath register, `STATUS.TRAILING`, `ERR`, the header and
trailer records at their reset values, `PHASE` at HDR_FIXED; `CFG`, `IN_LEN`, the arrays and the memories unchanged. -/
def started (s : State) : State :=
  { s with
    phase := .hdrFixed, bytePos := 0, bitOff := 0, bfinal := 0, btype := 0, hlit := 0, hdist := 0, hclen := 0, idx := 0,
    sRem := 0, mLen := 0, mDist := 0, outPos := 0, crc := 0, trailing := 0, err := 0,
    hdr := HeaderRecord.zero, trl := TrailerRecord.zero }

/-- START (R31, R232): ignored while BUSY (R233). -/
def execStart (s : State) : Host.Outcome State Fault Refusal := .next (if s.busy then s else started s)

/-- The value of the register at an offset (R30), zero-extended; offsets not in R30 read 0 (R32), CTRL reads 0 (R31). -/
def regValue (s : State) : Nat → Word
  | 0x04 => s.hcrcCheck.setWidth 32
  | 0x08 => s.inLen
  | 0x0C => statusWord s
  | 0x10 => s.err.setWidth 32
  | 0x14 => s.bytePos
  | 0x18 => s.bitOff.setWidth 32
  | 0x1C => s.outPos.setWidth 32
  | 0x20 => (s.outPos >>> 32).setWidth 32
  | 0x24 => s.crc
  | 0x28 => s.hdr.flg.setWidth 32
  | 0x2C => s.hdr.mtime
  | 0x30 => s.hdr.xfl.setWidth 32
  | 0x34 => s.hdr.os.setWidth 32
  | 0x38 => s.hdr.extraOff
  | 0x3C => s.hdr.extraLen.setWidth 32
  | 0x40 => s.hdr.nameOff
  | 0x44 => s.hdr.nameLen
  | 0x48 => s.hdr.commentOff
  | 0x4C => s.hdr.commentLen
  | 0x50 => s.hdr.hcrc.setWidth 32
  | 0x54 => s.trl.crc32
  | 0x58 => s.trl.isize
  | _ => 0

/-- What a read returns while BUSY (R35, R234): `CFG` and `IN_LEN` are defined, `STATUS.STATE` is 1 and
`STATUS.TRAILING` is a free bit, the other registers of R30 return a free value (log 6), and what is no readable
register reads 0. -/
def busyValue (s : State) (offset : Nat) : Word :=
  if offset = 0x04 ∨ offset = 0x08 then regValue s offset
  else if offset = 0x0C then (Config.busyRead s.draws &&& 4) ||| 1
  else if 0x10 ≤ offset ∧ offset ≤ 0x58 then Config.busyRead s.draws
  else 0

/-- A register access is 32 bits wide and aligned (R32); another one is refused (U8). -/
def aligned (offset size : Nat) : Bool := decide (size = 4) && decide (offset % 4 = 0)

/-- A register read (R234): no side effect on the block. While BUSY it draws a free value. -/
def hostRegRead (offset size : Nat) (s : State) : Host.Outcome State Fault Refusal :=
  if !aligned offset size then .refused .unalignedRegisterAccess
  else if s.busy then .next { s with hostData := busyValue s offset, draws := s.draws + 1 }
  else .next { s with hostData := regValue s offset }

/-- A register write (R31, R33, R34, R235): only CTRL, CFG and IN_LEN accept one, the last two only while not BUSY;
every other write is ignored. -/
def hostRegWrite (offset size : Nat) (data : Word) (s : State) : Host.Outcome State Fault Refusal :=
  if !aligned offset size then .refused .unalignedRegisterAccess
  else if offset = 0x00 then (if data.getLsbD 0 then execStart s else .next s)
  else if offset = 0x04 then .next (if s.busy then s else { s with hcrcCheck := data.setWidth 1 })
  else if offset = 0x08 then .next (if s.busy then s else { s with inLen := data })
  else .next s

/-- A host read of `IN` (R239; harmless while BUSY, R73). -/
def hostReadIn (a : Nat) (s : State) : Host.Outcome State Fault Refusal :=
  if 2 ^ 32 ≤ a then .fault .noSuchHostAddress else .next { s with hostData := (inByte s a).setWidth 32 }

/-- A host write of `IN` (R231, R239): forbidden while BUSY (R71, R73, U7). -/
def hostWriteIn (a : Nat) (b : Byte) (s : State) : Host.Outcome State Fault Refusal :=
  if s.busy then .refused .hostTouchesMemoryWhileBusy
  else if 2 ^ 32 ≤ a then .fault .noSuchHostAddress
  else .next { s with inMem := memWrite s.inMem a b }

/-- A host read of `OUT` (R239): forbidden while BUSY (R73, U7). -/
def hostReadOut (a : Nat) (s : State) : Host.Outcome State Fault Refusal :=
  if s.busy then .refused .hostTouchesMemoryWhileBusy
  else if s.outCap.toNat ≤ a then .fault .noSuchHostAddress
  else .next { s with hostData := (outByte s a).setWidth 32 }

/-- A host write of `OUT` (R239): forbidden while BUSY (R73, U7). -/
def hostWriteOut (a : Nat) (b : Byte) (s : State) : Host.Outcome State Fault Refusal :=
  if s.busy then .refused .hostTouchesMemoryWhileBusy
  else if s.outCap.toNat ≤ a then .fault .noSuchHostAddress
  else .next { s with outMem := memWrite s.outMem a b }

/-- The entries of an array after hardware reset: unspecified (R48), so free values (log 3). -/
def resetArray (w draw array n : Nat) : List (BitVec w) :=
  (List.range n).map fun i => (Config.resetEntry draw array i).setWidth w

/-- Hardware reset (R48, R280): every register at its reset value, at any time. The arrays are unspecified (log 3). The
memories are not touched, but after a reset during a run what `OUT` holds is unknown (U15), so it is all free (log 4). -/
def resetState (s : State) : State :=
  { State.reset with
    clLen := resetArray 3 s.draws 0 Config.nCL, flat := resetArray 4 s.draws 1 Config.nFlat,
    llLen := resetArray 4 s.draws 2 Config.nLL, dLen := resetArray 4 s.draws 3 Config.nD,
    inMem := s.inMem, outMem := if s.busy then [] else s.outMem,
    outEpoch := if s.busy then s.draws + 1 else s.outEpoch,
    outCap := s.outCap, pending := s.pending, hostData := s.hostData, draws := s.draws + 1 }

/-- One move of the host. `wait` is no access. -/
def hostMove (m : HostMove) (s : State) : Host.Outcome State Fault Refusal :=
  match m with
  | .regRead offset size => hostRegRead offset size s
  | .regWrite offset size data => hostRegWrite offset size data s
  | .readIn a => hostReadIn a s
  | .writeIn a b => hostWriteIn a b s
  | .readOut a => hostReadOut a s
  | .writeOut a b => hostWriteOut a b s
  | .hardReset => .next (resetState s)
  | .wait => .next s

end Sys2Proof.Machine
end

