-- ==== Sys2Proof/Machine/Symbol.lean ====
section
/-! DEFINITION. The symbols of a compressed block: LIT, EOB, LEN, DIST and the reserved symbols
(spec/43_block_decoder.md R169 to R175). The symbol itself is decoded by the fetch. -/

namespace Sys2Proof.Machine

/-- LIT (R170): PHASE stays SYM. -/
def execLit (value : Byte) (s : State) : Host.Outcome State Fault Refusal := finish (emit value) s

/-- EOB (R171). -/
def execEob (s : State) : Host.Outcome State Fault Refusal := finish blockEnd s

/-- LEN.257 (R172). -/
def execLen257 (s : State) : Host.Outcome State Fault Refusal := finish (matchLength 0) s

/-- LEN.258 (R172). -/
def execLen258 (s : State) : Host.Outcome State Fault Refusal := finish (matchLength 1) s

/-- LEN.259 (R172). -/
def execLen259 (s : State) : Host.Outcome State Fault Refusal := finish (matchLength 2) s

/-- LEN.260 (R172). -/
def execLen260 (s : State) : Host.Outcome State Fault Refusal := finish (matchLength 3) s

/-- LEN.261 (R172). -/
def execLen261 (s : State) : Host.Outcome State Fault Refusal := finish (matchLength 4) s

/-- LEN.262 (R172). -/
def execLen262 (s : State) : Host.Outcome State Fault Refusal := finish (matchLength 5) s

/-- LEN.263 (R172). -/
def execLen263 (s : State) : Host.Outcome State Fault Refusal := finish (matchLength 6) s

/-- LEN.264 (R172). -/
def execLen264 (s : State) : Host.Outcome State Fault Refusal := finish (matchLength 7) s

/-- LEN.265 (R172). -/
def execLen265 (s : State) : Host.Outcome State Fault Refusal := finish (matchLength 8) s

/-- LEN.266 (R172). -/
def execLen266 (s : State) : Host.Outcome State Fault Refusal := finish (matchLength 9) s

/-- LEN.267 (R172). -/
def execLen267 (s : State) : Host.Outcome State Fault Refusal := finish (matchLength 10) s

/-- LEN.268 (R172). -/
def execLen268 (s : State) : Host.Outcome State Fault Refusal := finish (matchLength 11) s

/-- LEN.269 (R172). -/
def execLen269 (s : State) : Host.Outcome State Fault Refusal := finish (matchLength 12) s

/-- LEN.270 (R172). -/
def execLen270 (s : State) : Host.Outcome State Fault Refusal := finish (matchLength 13) s

/-- LEN.271 (R172). -/
def execLen271 (s : State) : Host.Outcome State Fault Refusal := finish (matchLength 14) s

/-- LEN.272 (R172). -/
def execLen272 (s : State) : Host.Outcome State Fault Refusal := finish (matchLength 15) s

/-- LEN.273 (R172). -/
def execLen273 (s : State) : Host.Outcome State Fault Refusal := finish (matchLength 16) s

/-- LEN.274 (R172). -/
def execLen274 (s : State) : Host.Outcome State Fault Refusal := finish (matchLength 17) s

/-- LEN.275 (R172). -/
def execLen275 (s : State) : Host.Outcome State Fault Refusal := finish (matchLength 18) s

/-- LEN.276 (R172). -/
def execLen276 (s : State) : Host.Outcome State Fault Refusal := finish (matchLength 19) s

/-- LEN.277 (R172). -/
def execLen277 (s : State) : Host.Outcome State Fault Refusal := finish (matchLength 20) s

/-- LEN.278 (R172). -/
def execLen278 (s : State) : Host.Outcome State Fault Refusal := finish (matchLength 21) s

/-- LEN.279 (R172). -/
def execLen279 (s : State) : Host.Outcome State Fault Refusal := finish (matchLength 22) s

/-- LEN.280 (R172). -/
def execLen280 (s : State) : Host.Outcome State Fault Refusal := finish (matchLength 23) s

/-- LEN.281 (R172). -/
def execLen281 (s : State) : Host.Outcome State Fault Refusal := finish (matchLength 24) s

/-- LEN.282 (R172). -/
def execLen282 (s : State) : Host.Outcome State Fault Refusal := finish (matchLength 25) s

/-- LEN.283 (R172). -/
def execLen283 (s : State) : Host.Outcome State Fault Refusal := finish (matchLength 26) s

/-- LEN.284 (R172). -/
def execLen284 (s : State) : Host.Outcome State Fault Refusal := finish (matchLength 27) s

/-- LEN.285 (R172). -/
def execLen285 (s : State) : Host.Outcome State Fault Refusal := finish (matchLength 28) s

/-- LL.RSVD.286 (R174). -/
def execLlRsvd286 (s : State) : Host.Outcome State Fault Refusal := finish (raise .invalidCode) s

/-- LL.RSVD.287 (R174). -/
def execLlRsvd287 (s : State) : Host.Outcome State Fault Refusal := finish (raise .invalidCode) s

/-- DIST.0 (R173). -/
def execDist0 (s : State) : Host.Outcome State Fault Refusal := finish (matchDistance 0) s

/-- DIST.1 (R173). -/
def execDist1 (s : State) : Host.Outcome State Fault Refusal := finish (matchDistance 1) s

/-- DIST.2 (R173). -/
def execDist2 (s : State) : Host.Outcome State Fault Refusal := finish (matchDistance 2) s

/-- DIST.3 (R173). -/
def execDist3 (s : State) : Host.Outcome State Fault Refusal := finish (matchDistance 3) s

/-- DIST.4 (R173). -/
def execDist4 (s : State) : Host.Outcome State Fault Refusal := finish (matchDistance 4) s

/-- DIST.5 (R173). -/
def execDist5 (s : State) : Host.Outcome State Fault Refusal := finish (matchDistance 5) s

/-- DIST.6 (R173). -/
def execDist6 (s : State) : Host.Outcome State Fault Refusal := finish (matchDistance 6) s

/-- DIST.7 (R173). -/
def execDist7 (s : State) : Host.Outcome State Fault Refusal := finish (matchDistance 7) s

/-- DIST.8 (R173). -/
def execDist8 (s : State) : Host.Outcome State Fault Refusal := finish (matchDistance 8) s

/-- DIST.9 (R173). -/
def execDist9 (s : State) : Host.Outcome State Fault Refusal := finish (matchDistance 9) s

/-- DIST.10 (R173). -/
def execDist10 (s : State) : Host.Outcome State Fault Refusal := finish (matchDistance 10) s

/-- DIST.11 (R173). -/
def execDist11 (s : State) : Host.Outcome State Fault Refusal := finish (matchDistance 11) s

/-- DIST.12 (R173). -/
def execDist12 (s : State) : Host.Outcome State Fault Refusal := finish (matchDistance 12) s

/-- DIST.13 (R173). -/
def execDist13 (s : State) : Host.Outcome State Fault Refusal := finish (matchDistance 13) s

/-- DIST.14 (R173). -/
def execDist14 (s : State) : Host.Outcome State Fault Refusal := finish (matchDistance 14) s

/-- DIST.15 (R173). -/
def execDist15 (s : State) : Host.Outcome State Fault Refusal := finish (matchDistance 15) s

/-- DIST.16 (R173). -/
def execDist16 (s : State) : Host.Outcome State Fault Refusal := finish (matchDistance 16) s

/-- DIST.17 (R173). -/
def execDist17 (s : State) : Host.Outcome State Fault Refusal := finish (matchDistance 17) s

/-- DIST.18 (R173). -/
def execDist18 (s : State) : Host.Outcome State Fault Refusal := finish (matchDistance 18) s

/-- DIST.19 (R173). -/
def execDist19 (s : State) : Host.Outcome State Fault Refusal := finish (matchDistance 19) s

/-- DIST.20 (R173). -/
def execDist20 (s : State) : Host.Outcome State Fault Refusal := finish (matchDistance 20) s

/-- DIST.21 (R173). -/
def execDist21 (s : State) : Host.Outcome State Fault Refusal := finish (matchDistance 21) s

/-- DIST.22 (R173). -/
def execDist22 (s : State) : Host.Outcome State Fault Refusal := finish (matchDistance 22) s

/-- DIST.23 (R173). -/
def execDist23 (s : State) : Host.Outcome State Fault Refusal := finish (matchDistance 23) s

/-- DIST.24 (R173). -/
def execDist24 (s : State) : Host.Outcome State Fault Refusal := finish (matchDistance 24) s

/-- DIST.25 (R173). -/
def execDist25 (s : State) : Host.Outcome State Fault Refusal := finish (matchDistance 25) s

/-- DIST.26 (R173). -/
def execDist26 (s : State) : Host.Outcome State Fault Refusal := finish (matchDistance 26) s

/-- DIST.27 (R173). -/
def execDist27 (s : State) : Host.Outcome State Fault Refusal := finish (matchDistance 27) s

/-- DIST.28 (R173). -/
def execDist28 (s : State) : Host.Outcome State Fault Refusal := finish (matchDistance 28) s

/-- DIST.29 (R173). -/
def execDist29 (s : State) : Host.Outcome State Fault Refusal := finish (matchDistance 29) s

/-- D.RSVD.30 (R175): before any extra bits. -/
def execDRsvd30 (s : State) : Host.Outcome State Fault Refusal := finish (raise .invalidCode) s

/-- D.RSVD.31 (R175): before any extra bits. -/
def execDRsvd31 (s : State) : Host.Outcome State Fault Refusal := finish (raise .invalidCode) s

end Sys2Proof.Machine
end

