-- ==== Sys2Proof/Machine/Window.lean ====
section
/-! DEFINITION. lz77_window: COPY, one byte of a back-reference per step (spec/44_inflate_engine.md R185, R186). -/

namespace Sys2Proof.Machine

/-- COPY (R185): with nothing left it returns to SYM. -/
def execCopy (s : State) : Host.Outcome State Fault Refusal :=
  finish (
    if s.mLen = 0 then update (setPhase .sym)
    else do
      let b ← readWindow
      emit b
      update fun s => { s with mLen := s.mLen - 1 }) s

end Sys2Proof.Machine
end

