-- ==== Sys2Proof/Machine/Dispatch.lean ====
section
/-! DEFINITION. The dispatch: one arm per row of spec/opcode_table.json. -/

namespace Sys2Proof.Machine

def exec (i : Instr) (s : State) : Host.Outcome State Fault Refusal :=
  match i with
  | .gzHdr => Sys2Proof.Machine.execGzHdr s
  | .gzFextra => Sys2Proof.Machine.execGzFextra s
  | .gzFname => Sys2Proof.Machine.execGzFname s
  | .gzFcomment => Sys2Proof.Machine.execGzFcomment s
  | .gzFhcrc => Sys2Proof.Machine.execGzFhcrc s
  | .gzTrailer => Sys2Proof.Machine.execGzTrailer s
  | .blkStored bfinal => Sys2Proof.Machine.execBlkStored bfinal s
  | .blkFixed bfinal => Sys2Proof.Machine.execBlkFixed bfinal s
  | .blkDynamic bfinal => Sys2Proof.Machine.execBlkDynamic bfinal s
  | .blkReserved bfinal => Sys2Proof.Machine.execBlkReserved bfinal s
  | .storedLen => Sys2Proof.Machine.execStoredLen s
  | .storedByte => Sys2Proof.Machine.execStoredByte s
  | .dynCounts => Sys2Proof.Machine.execDynCounts s
  | .dynCllen => Sys2Proof.Machine.execDynCllen s
  | .dynBuild => Sys2Proof.Machine.execDynBuild s
  | .clLen0 => Sys2Proof.Machine.execClLen0 s
  | .clLen1 => Sys2Proof.Machine.execClLen1 s
  | .clLen2 => Sys2Proof.Machine.execClLen2 s
  | .clLen3 => Sys2Proof.Machine.execClLen3 s
  | .clLen4 => Sys2Proof.Machine.execClLen4 s
  | .clLen5 => Sys2Proof.Machine.execClLen5 s
  | .clLen6 => Sys2Proof.Machine.execClLen6 s
  | .clLen7 => Sys2Proof.Machine.execClLen7 s
  | .clLen8 => Sys2Proof.Machine.execClLen8 s
  | .clLen9 => Sys2Proof.Machine.execClLen9 s
  | .clLen10 => Sys2Proof.Machine.execClLen10 s
  | .clLen11 => Sys2Proof.Machine.execClLen11 s
  | .clLen12 => Sys2Proof.Machine.execClLen12 s
  | .clLen13 => Sys2Proof.Machine.execClLen13 s
  | .clLen14 => Sys2Proof.Machine.execClLen14 s
  | .clLen15 => Sys2Proof.Machine.execClLen15 s
  | .clRep16 => Sys2Proof.Machine.execClRep16 s
  | .clZrep17 => Sys2Proof.Machine.execClZrep17 s
  | .clZrep18 => Sys2Proof.Machine.execClZrep18 s
  | .lit value => Sys2Proof.Machine.execLit value s
  | .eob => Sys2Proof.Machine.execEob s
  | .len257 => Sys2Proof.Machine.execLen257 s
  | .len258 => Sys2Proof.Machine.execLen258 s
  | .len259 => Sys2Proof.Machine.execLen259 s
  | .len260 => Sys2Proof.Machine.execLen260 s
  | .len261 => Sys2Proof.Machine.execLen261 s
  | .len262 => Sys2Proof.Machine.execLen262 s
  | .len263 => Sys2Proof.Machine.execLen263 s
  | .len264 => Sys2Proof.Machine.execLen264 s
  | .len265 => Sys2Proof.Machine.execLen265 s
  | .len266 => Sys2Proof.Machine.execLen266 s
  | .len267 => Sys2Proof.Machine.execLen267 s
  | .len268 => Sys2Proof.Machine.execLen268 s
  | .len269 => Sys2Proof.Machine.execLen269 s
  | .len270 => Sys2Proof.Machine.execLen270 s
  | .len271 => Sys2Proof.Machine.execLen271 s
  | .len272 => Sys2Proof.Machine.execLen272 s
  | .len273 => Sys2Proof.Machine.execLen273 s
  | .len274 => Sys2Proof.Machine.execLen274 s
  | .len275 => Sys2Proof.Machine.execLen275 s
  | .len276 => Sys2Proof.Machine.execLen276 s
  | .len277 => Sys2Proof.Machine.execLen277 s
  | .len278 => Sys2Proof.Machine.execLen278 s
  | .len279 => Sys2Proof.Machine.execLen279 s
  | .len280 => Sys2Proof.Machine.execLen280 s
  | .len281 => Sys2Proof.Machine.execLen281 s
  | .len282 => Sys2Proof.Machine.execLen282 s
  | .len283 => Sys2Proof.Machine.execLen283 s
  | .len284 => Sys2Proof.Machine.execLen284 s
  | .len285 => Sys2Proof.Machine.execLen285 s
  | .llRsvd286 => Sys2Proof.Machine.execLlRsvd286 s
  | .llRsvd287 => Sys2Proof.Machine.execLlRsvd287 s
  | .dist0 => Sys2Proof.Machine.execDist0 s
  | .dist1 => Sys2Proof.Machine.execDist1 s
  | .dist2 => Sys2Proof.Machine.execDist2 s
  | .dist3 => Sys2Proof.Machine.execDist3 s
  | .dist4 => Sys2Proof.Machine.execDist4 s
  | .dist5 => Sys2Proof.Machine.execDist5 s
  | .dist6 => Sys2Proof.Machine.execDist6 s
  | .dist7 => Sys2Proof.Machine.execDist7 s
  | .dist8 => Sys2Proof.Machine.execDist8 s
  | .dist9 => Sys2Proof.Machine.execDist9 s
  | .dist10 => Sys2Proof.Machine.execDist10 s
  | .dist11 => Sys2Proof.Machine.execDist11 s
  | .dist12 => Sys2Proof.Machine.execDist12 s
  | .dist13 => Sys2Proof.Machine.execDist13 s
  | .dist14 => Sys2Proof.Machine.execDist14 s
  | .dist15 => Sys2Proof.Machine.execDist15 s
  | .dist16 => Sys2Proof.Machine.execDist16 s
  | .dist17 => Sys2Proof.Machine.execDist17 s
  | .dist18 => Sys2Proof.Machine.execDist18 s
  | .dist19 => Sys2Proof.Machine.execDist19 s
  | .dist20 => Sys2Proof.Machine.execDist20 s
  | .dist21 => Sys2Proof.Machine.execDist21 s
  | .dist22 => Sys2Proof.Machine.execDist22 s
  | .dist23 => Sys2Proof.Machine.execDist23 s
  | .dist24 => Sys2Proof.Machine.execDist24 s
  | .dist25 => Sys2Proof.Machine.execDist25 s
  | .dist26 => Sys2Proof.Machine.execDist26 s
  | .dist27 => Sys2Proof.Machine.execDist27 s
  | .dist28 => Sys2Proof.Machine.execDist28 s
  | .dist29 => Sys2Proof.Machine.execDist29 s
  | .dRsvd30 => Sys2Proof.Machine.execDRsvd30 s
  | .dRsvd31 => Sys2Proof.Machine.execDRsvd31 s
  | .copy => Sys2Proof.Machine.execCopy s
  | .start => Sys2Proof.Machine.execStart s

end Sys2Proof.Machine
end

