-- ==== Sys2Proof/Machine/Fetch.lean ====
section
/-! DEFINITION. The fetch: getting the next instruction's selector from the stream in the phase the sequencer is in
(spec/10_state.md R23, spec/30_encoding.md R99), and decoding it. The part of an operation's rule that decodes the
symbol or reads the block header is here: BLK.HDR (R161), the loop control of DYN_LENS (R143), the symbol step (R169),
the distance symbol (R173). -/

namespace Sys2Proof.Machine

/-- The decoded instruction; a symbol past the end of its alphabet has no row. -/
def decoded (sel : Selector) : Op (Option Instr) :=
  match decode sel with
  | .ok i => pure (some i)
  | .error _ => stopRefuse .noSuchSymbol

/-- BLK.HDR (R161): `BFINAL` is written as soon as it is read; the instruction of the block type writes both. -/
def fetchBlockHeader : Op (Option Instr) := do
  let bfinal ← readBits 1
  update fun s => { s with bfinal := BitVec.ofNat 1 bfinal }
  let btype ← readBits 2
  decoded (.btype (BitVec.ofNat 1 bfinal) (BitVec.ofNat 2 btype))

/-- The DYN_LENS step (R143): no instruction when the flat array is full. -/
def fetchClSymbol : Op (Option Instr) := do
  let s ← getState
  if s.idx.toNat = flatTotal s then pure none
  else do
    let sym ← huffDecode (lensOf s.clLen) Config.maxBitsCL
    decoded (.cl sym)

/-- The literal/length symbol of a symbol step (R169). -/
def fetchLLSymbol : Op (Option Instr) := do
  let s ← getState
  if hasActiveTables s then do
    let sym ← huffDecode (activeLL s) Config.maxBitsLL
    decoded (.ll sym)
  else stopFault .noActiveTable

/-- The distance symbol that must follow a length (R173). -/
def fetchDistSymbol : Op (Option Instr) := do
  let s ← getState
  if hasActiveTables s then do
    let sym ← huffDecode (activeDist s) Config.maxBitsD
    decoded (.dist sym)
  else stopFault .noActiveTable

/-- The next instruction (R23); none where the table of R181 says the phase passes on without an operation. -/
def fetch : Op (Option Instr) := do
  let s ← getState
  match s.phase with
  | .blkHdr => fetchBlockHeader
  | .dynLens => fetchClSymbol
  | .sym => fetchLLSymbol
  | .symDist => fetchDistSymbol
  | .idle | .done | .error => stopFault .noStep
  | .hdrFixed | .hdrExtra | .hdrName | .hdrComment | .hdrHcrc | .storedLen | .storedCopy | .dynCounts | .dynCllen
  | .dynBuild | .copy | .trailer => decoded (.byPhase s.phase)

end Sys2Proof.Machine
end

