-- ==== Sys2Proof/Machine/Sequencer.lean ====
section
/-! DEFINITION. The sequencer: one core step (spec/44_inflate_engine.md R181, R189). -/

namespace Sys2Proof.Machine

/-- One core step (R189): fetch the next instruction, then run it in the state the fetch left; a trap of either is
taken (R251). With the flat array full, DYN_LENS passes on to DYN_BUILD (R143, R181). -/
def coreStep (s : State) : Host.Outcome State Fault Refusal :=
  match fetch s with
  | .ok (some i) t => exec i t
  | .ok none t => .next (setPhase .dynBuild t)
  | .error (.trap e) t => .next (takeTrap e t)
  | .error (.fault f) _ => .fault f
  | .error (.refuse r) _ => .refused r

/-- The host's next move is an access (and not `wait`, which lets the core step). -/
def hostActs : HostMove → Bool
  | .wait => false
  | .regRead _ _ | .regWrite _ _ _ | .readIn _ | .writeIn _ _ | .readOut _ | .writeOut _ _ | .hardReset => true

/-- One step of the block and its host (log 2): the host's oldest pending move is made; when it is `wait`, or nothing
is pending, the core steps. A `wait` while not BUSY passes. -/
def systemStep (s : State) : Host.Outcome State Fault Refusal :=
  match s.pending with
  | [] => coreStep s
  | m :: rest =>
    if hostActs m || !s.busy then hostMove m { s with pending := rest }
    else coreStep { s with pending := rest }

/-- The first 16 bytes of a bit stream, each byte least significant bit first (R63), zeros after its end. -/
def packBits (bits : List Bool) : Memory :=
  (List.range 16).map fun a => (a, BitVec.ofNat 8 ((List.range 8).foldr (fun j v => (bits.getD (8 * a + j) false).toNat + 2 * v) 0))

/-- A table word's instruction as stream bits and the phase and block type that read it (log 7): the first input bytes
in phase HDR_FIXED; the fixed Huffman code of a literal/length symbol in SYM, of a distance symbol in `symDist`; nothing
at all in DYN_BUILD. -/
def wordStream (nbits w : Nat) : Phase × List Bool :=
  if nbits = 24 then (.hdrFixed, bitsLsb w 24)
  else if nbits = 16 then (.sym, codeBits fixLL w)
  else if nbits = 8 then (.symDist, codeBits fixD w)
  else (.dynBuild, [])

end Sys2Proof.Machine
end

