-- ==== Sys2Proof/Machine/Step.lean ====
section
/-! DEFINITION. The step of the machine and the host's way of placing one instruction. -/

namespace Sys2Proof.Machine

/-- One step. -/
def step (s : State) : Host.Outcome State Fault Refusal := systemStep s

/-- `s` with the instruction of a table word as what the next step fetches (log 7): its bits from the first bit of `IN`
on, zeros after them, 16 bytes of input, the cursor at the start, the phase that reads it, a fixed block where the
symbol needs a table, and no host move pending. -/
def State.withFetchWord (s : State) (nbits w : Nat) : State :=
  { s with
    phase := (wordStream nbits w).1, btype := 1, bytePos := 0, bitOff := 0, inLen := 16,
    inMem := packBits (wordStream nbits w).2, pending := [] }

end Sys2Proof.Machine
end

