-- ==== Sys2Proof/Safety.lean ====
section
/-! DEFINITION. What a sound state of the machine is (spec/10_state.md R50, R22, R28, R36; spec/44_inflate_engine.md
R189), and what it means that the stream holds given bits: the terms the statements are written in. -/

namespace Sys2Proof.Machine

/-- The unread input begins with these bits, in stream order (R63). -/
def StreamHolds (s : State) (bits : List Bool) : Prop :=
  linPos s + bits.length ≤ 8 * s.inLen.toNat ∧ ∀ j, j < bits.length → inBit s (linPos s + j) = bits.getD j false

/-- `n` bytes of unread input are left, and the cursor is at a byte boundary (R66). -/
def BytesLeft (s : State) (n : Nat) : Prop := s.bitOff = 0 ∧ s.bytePos.toNat + n ≤ s.inLen.toNat

/-- The counts of a dynamic block are in range (R25, R50). -/
def CountsOk (s : State) : Prop :=
  257 ≤ s.hlit.toNat ∧ s.hlit.toNat ≤ 286 ∧ 1 ≤ s.hdist.toNat ∧ s.hdist.toNat ≤ 32

/-- The arrays the symbols of the current block are decoded with are there and complete (R124, R168). -/
def TablesOk (s : State) : Prop :=
  s.btype = 1 ∨
    s.btype = 2 ∧ kraftCheck (lensOf s.llLen) Config.maxBitsLL = .ok ∧ kraftCheck (lensOf s.dLen) Config.maxBitsD = .ok

/-- The cursor is in the normal form of R22. -/
def CursorOk (s : State) : Prop :=
  s.bytePos.toNat ≤ s.inLen.toNat ∧ (s.bytePos.toNat = s.inLen.toNat → s.bitOff = 0)

/-- What each phase relies on (R50, R66, R284). -/
def PhaseOk (s : State) : Prop :=
  match s.phase with
  | .hdrFixed | .hdrExtra | .hdrName | .hdrComment | .hdrHcrc | .storedCopy => s.bitOff = 0
  | .dynCounts => s.btype = 2
  | .dynCllen => s.btype = 2 ∧ CountsOk s ∧ 4 ≤ s.hclen.toNat ∧ s.hclen.toNat ≤ 19
  | .dynLens =>
    s.btype = 2 ∧ CountsOk s ∧ s.idx.toNat ≤ flatTotal s ∧ kraftCheck (lensOf s.clLen) Config.maxBitsCL = .ok
  | .dynBuild => s.btype = 2 ∧ CountsOk s ∧ s.idx.toNat = flatTotal s
  | .sym => TablesOk s
  | .symDist => TablesOk s ∧ 3 ≤ s.mLen.toNat ∧ s.mLen.toNat ≤ Config.maxLen
  | .copy =>
    TablesOk s ∧ s.mLen.toNat ≤ Config.maxLen ∧
      1 ≤ s.mDist.toNat ∧ s.mDist.toNat ≤ s.outPos.toNat ∧ s.mDist.toNat ≤ Config.maxDist
  | .idle | .blkHdr | .storedLen | .trailer | .done | .error => True

/-- `CRC` is the CRC-32 of the output so far (R28, R50). -/
def CrcOk (s : State) : Prop := s.crc = crc32 (outBytes s 0 s.outPos.toNat)

/-- Every byte of the window has been written (R61, R286). -/
def WindowOk (s : State) : Prop := ∀ a, a < s.outPos.toNat → (memLookup s.outMem a).isSome

/-- What holds while a run is in progress (R50). -/
structure RunInv (s : State) : Prop where
  cursor : CursorOk s
  crc : CrcOk s
  window : WindowOk s
  phase : PhaseOk s

/-- What a run that ended in DONE has established and the frozen registers keep (R189, R35). -/
def DoneOk (s : State) : Prop :=
  s.crc = s.trl.crc32 ∧ s.outPos.setWidth 32 = s.trl.isize ∧ s.bitOff = 0

/-- A sound state of the block and its memories. -/
structure Inv (s : State) : Prop where
  /-- `IN` is in canonical form. -/
  inWf : Memory.wf s.inMem
  /-- `OUT` is in canonical form. -/
  outWf : Memory.wf s.outMem
  /-- `IN` lists only addresses below 2^32 (R60). -/
  inSpace : ∀ p ∈ s.inMem, p.1 < 2 ^ 32
  /-- `OUT` lists only addresses below `OUT_CAP` (R61). -/
  outSpace : ∀ p ∈ s.outMem, p.1 < s.outCap.toNat
  /-- The arrays have their sizes (R42). -/
  sizes : s.clLen.length = Config.nCL ∧ s.flat.length = Config.nFlat ∧ s.llLen.length = Config.nLL ∧
    s.dLen.length = Config.nD
  /-- `OUT_POS <= OUT_CAP` (R50). -/
  outPos : s.outPos.toNat ≤ s.outCap.toNat
  /-- `ERR` is a fault code exactly in ERROR (R36, R250). -/
  err : (s.err ≠ 0 ↔ s.phase = .error) ∧ s.err.toNat ≤ 12
  /-- `STATUS.TRAILING` is 1 only in DONE (R35). -/
  trailing : s.trailing = 1 → s.phase = .done
  /-- While BUSY, the invariants of a run. -/
  run : s.busy = true → RunInv s
  /-- In DONE, what the trailer has verified. -/
  done : s.phase = .done → DoneOk s

/-! ### Rules written out, for the statements

The functions below follow a rule's own pseudocode or table; the machine does not use them. -/

/-- The rows of the length table (30_encoding.md R94): the instruction, its base length, its number of extra bits. -/
def lengthRows : List (Instr × Nat × Nat) :=
  [(.len257, 3, 0), (.len258, 4, 0), (.len259, 5, 0), (.len260, 6, 0), (.len261, 7, 0), (.len262, 8, 0),
   (.len263, 9, 0), (.len264, 10, 0), (.len265, 11, 1), (.len266, 13, 1), (.len267, 15, 1), (.len268, 17, 1),
   (.len269, 19, 2), (.len270, 23, 2), (.len271, 27, 2), (.len272, 31, 2), (.len273, 35, 3), (.len274, 43, 3),
   (.len275, 51, 3), (.len276, 59, 3), (.len277, 67, 4), (.len278, 83, 4), (.len279, 99, 4), (.len280, 115, 4),
   (.len281, 131, 5), (.len282, 163, 5), (.len283, 195, 5), (.len284, 227, 5), (.len285, 258, 0)]

/-- The rows of the distance table (R95): the instruction, its base distance, its number of extra bits. -/
def distanceRows : List (Instr × Nat × Nat) :=
  [(.dist0, 1, 0), (.dist1, 2, 0), (.dist2, 3, 0), (.dist3, 4, 0), (.dist4, 5, 1), (.dist5, 7, 1),
   (.dist6, 9, 2), (.dist7, 13, 2), (.dist8, 17, 3), (.dist9, 25, 3), (.dist10, 33, 4), (.dist11, 49, 4),
   (.dist12, 65, 5), (.dist13, 97, 5), (.dist14, 129, 6), (.dist15, 193, 6), (.dist16, 257, 7), (.dist17, 385, 7),
   (.dist18, 513, 8), (.dist19, 769, 8), (.dist20, 1025, 9), (.dist21, 1537, 9), (.dist22, 2049, 10), (.dist23, 3073, 10),
   (.dist24, 4097, 11), (.dist25, 6145, 11), (.dist26, 8193, 12), (.dist27, 12289, 12), (.dist28, 16385, 13), (.dist29, 24577, 13)]

/-- The sixteen CL.LEN rows (R91): the instruction and its code length. -/
def codeLengthRows : List (Instr × BitVec 4) :=
  [(.clLen0, 0), (.clLen1, 1), (.clLen2, 2), (.clLen3, 3), (.clLen4, 4), (.clLen5, 5), (.clLen6, 6), (.clLen7, 7),
   (.clLen8, 8), (.clLen9, 9), (.clLen10, 10), (.clLen11, 11), (.clLen12, 12), (.clLen13, 13), (.clLen14, 14), (.clLen15, 15)]

/-- The two zero-run rows (R91): the instruction, its smallest run, its number of extra bits. -/
def zeroRunRows : List (Instr × Nat × Nat) := [(.clZrep17, 3, 3), (.clZrep18, 11, 7)]

/-- The Kraft sum of a code-length array (00_scope.md R19), over the lengths `1 .. maxbits`, in units of `2^-maxbits`. -/
def kraftSum (lens : List Nat) (maxbits : Nat) : Nat :=
  (lens.map fun l => if 1 ≤ l ∧ l ≤ maxbits then 2 ^ (maxbits - l) else 0).sum

/-- Step 3 of `assign_codes` (41_huffman_tables.md R121) as the rule writes it: `next` is the counter of each length,
and each symbol with a code takes its length's counter and moves it on. -/
def assignCodes : (next : Nat → Nat) → List Nat → List (Option Nat)
  | _, [] => []
  | next, l :: rest =>
    if l = 0 then none :: assignCodes next rest
    else some (next l) :: assignCodes (fun n => if n = l then next l + 1 else next n) rest

/-- The loop of `read_bits(n)` (40_bitstream_reader.md R111) as the rule writes it: one bit at a time, with the cursor
kept in its normal form. -/
def bitLoop : (n i v : Nat) → State → Nat × State
  | 0, _, v, s => (v, s)
  | n + 1, i, v, s =>
    bitLoop n (i + 1) (v ||| ((inByte s s.bytePos.toNat).getLsbD s.bitOff.toNat).toNat <<< i)
      (if s.bitOff = 7 then { s with bitOff := 0, bytePos := s.bytePos + 1 } else { s with bitOff := s.bitOff + 1 })

/-- The byte position `align_to_byte()` reaches (R112). -/
def alignedPos (s : State) : Nat := (linPos s + 7) / 8

/-- The 16-bit little-endian field of `IN` at an address (20_memory.md R64). -/
def le16 (s : State) (a : Nat) : BitVec 16 := inByte s (a + 1) ++ inByte s a

/-- The 32-bit little-endian field of `IN` at an address (R64). -/
def le32 (s : State) (a : Nat) : BitVec 32 := le16 s (a + 2) ++ le16 s a

/-- `CL_LEN` after the given values were written in the order of `CL_ORDER`, all other entries 0
(42_dynamic_tables.md R142). -/
def clArray (values : List Nat) : List (BitVec 3) :=
  (List.range Config.nCL).map fun sym => BitVec.ofNat 3 (values.getD (clOrder.idxOf sym) 0)

/-- The fault codes a phase can raise (60_exceptions.md R267), with `P_STRICT_KRAFT` true. -/
def phaseFaults : Phase → List (BitVec 4)
  | .hdrFixed => [1, 2, 3]
  | .hdrExtra | .hdrName | .hdrComment => [1]
  | .hdrHcrc => [1, 11]
  | .blkHdr => [1, 6]
  | .storedLen => [1, 7]
  | .storedCopy => [1, 12]
  | .dynCounts | .dynCllen | .dynLens => [1, 4]
  | .dynBuild => [4]
  | .sym => [1, 5, 12]
  | .symDist => [1, 5, 8]
  | .copy => [12]
  | .trailer => [1, 9, 10]
  | .idle | .done | .error => []

/-- The phases a step of a phase can pass to without a fault, under the conditions of the control transfer table
(44_inflate_engine.md R181). SYM is two phases of the model (log 1). -/
def nextPhases (s : State) : List Phase :=
  match s.phase with
  | .hdrFixed => [.hdrExtra]
  | .hdrExtra => [.hdrName]
  | .hdrName => [.hdrComment]
  | .hdrComment => [.hdrHcrc]
  | .hdrHcrc => [.blkHdr]
  | .blkHdr => [.storedLen, .sym, .dynCounts]
  | .storedLen => [.storedCopy]
  | .storedCopy => if s.sRem = 0 then [if s.bfinal = 1 then .trailer else .blkHdr] else [.storedCopy]
  | .dynCounts => [.dynCllen]
  | .dynCllen => [.dynLens]
  | .dynLens => if s.idx.toNat = s.hlit.toNat + s.hdist.toNat then [.dynBuild] else [.dynLens]
  | .dynBuild => [.sym]
  | .sym => [.sym, if s.bfinal = 1 then .trailer else .blkHdr, .symDist]
  | .symDist => [.copy]
  | .copy => if s.mLen = 0 then [.sym] else [.copy]
  | .trailer => [.done]
  | .idle | .done | .error => []

/-- The host-visible registers (10_state.md R30): offset and value, in a state that is not BUSY. -/
def registerMap (s : State) : List (Nat × Word) :=
  [(0x00, 0), (0x04, s.hcrcCheck.setWidth 32), (0x08, s.inLen), (0x0C, statusWord s), (0x10, s.err.setWidth 32),
   (0x14, s.bytePos), (0x18, s.bitOff.setWidth 32), (0x1C, s.outPos.extractLsb' 0 32)] ++
  [(0x20, s.outPos.extractLsb' 32 32), (0x24, s.crc), (0x28, s.hdr.flg.setWidth 32), (0x2C, s.hdr.mtime),
   (0x30, s.hdr.xfl.setWidth 32), (0x34, s.hdr.os.setWidth 32), (0x38, s.hdr.extraOff), (0x3C, s.hdr.extraLen.setWidth 32)] ++
  [(0x40, s.hdr.nameOff), (0x44, s.hdr.nameLen), (0x48, s.hdr.commentOff), (0x4C, s.hdr.commentLen),
   (0x50, s.hdr.hcrc.setWidth 32), (0x54, s.trl.crc32), (0x58, s.trl.isize)]

/-- The fields of the model that no rule of the core reads or writes (logs 2 and 6): the host's pending moves, what its
last read returned, and the draw counter, replaced. -/
def withHost (pending : List HostMove) (hostData : Word) (draws : Nat) (s : State) : State :=
  { s with pending := pending, hostData := hostData, draws := draws }

end Sys2Proof.Machine
end

