-- ==== Sys2Proof/Certificates/Slice0/Obligations.lean ====
section
/-! DEFINITION. The statements for the provers, grouped as the spec groups its rules. A statement about a free value
holds for every value of it; where a statement rests on a choice of the model, its docstring names the log entry. -/

open Sys2Proof Sys2Proof.Machine

/-! ### Encoding (spec/30_encoding.md) -/

/-- A few selectors and stream bits written out from R87, R91 to R93, R99, R170 and R171. -/
def Obligations.TableSelectorsDecode : Prop :=
  decode (.magic 0x088B1F) = .ok .gzHdr ∧ decode (.magic 0x088B1E) = .error .invalidMagic ∧
    decode (.magic 0x098B1F) = .error .unsupportedMethod ∧ decode (.btype 1 2) = .ok (.blkDynamic 1) ∧
    decode (.cl 16) = .ok .clRep16 ∧ decode (.ll 0x61) = .ok (.lit 0x61) ∧ decode (.ll 256) = .ok .eob ∧
    decode (.ll 265) = .ok .len265 ∧ decode (.ll 286) = .ok .llRsvd286 ∧ decode (.dist 15) = .ok .dist15 ∧
    decode (.dist 31) = .ok .dRsvd31 ∧ decode (.ctrl 1) = .ok .start ∧ decode (.byPhase .copy) = .ok .copy ∧
    codeBits fixLL 0x61 = [true, false, false, true, false, false, false, true] ∧
    codeBits fixLL 256 = [false, false, false, false, false, false, false] ∧
    codeBits fixD 15 = [false, true, true, true, true]

/-- A selector that decodes to an instruction is the one `selectorOf` names it by, or one of GZ.HDR's or START's others:
GZ.HDR is also named by its three bytes, the 24-bit selector R99 gives it, and START by every CTRL value with bit 0 set.
So no other number of a kind decodes to it. For BLK.*, CL.*, LIT, EOB, LEN.*, DIST.* and the reserved symbols
`selectorOf` is R99's selector. GZ.HDR, and GZ.FEXTRA, GZ.FNAME, GZ.FCOMMENT and GZ.FHCRC, whose R99 selector is the FLG
byte, it names by their phase, as the rows R99 gives no selector; their FLG bit the instruction tests itself (logs 7, 9). -/
def Obligations.DecodedSelectorIsTheMatchValue : Prop :=
  ∀ (sel : Selector) (i : Instr), decode sel = .ok i →
    sel = selectorOf i ∨ (sel = .magic 0x088B1F ∧ i = .gzHdr) ∨
      (∃ data : Word, sel = .ctrl data ∧ data.getLsbD 0 = true ∧ i = .start)

/-- The fetch reads back what the encoder writes, for every instruction that can stand in the stream at a sound point
(R99, R102): the instruction, the cursor just past its bits, and `BFINAL` for a block header. -/
def Obligations.FetchReadsTheEncodedInstruction : Prop :=
  ∀ (s : State) (i : Instr), Inv s → s.busy = true → wellFormed (contextOf s) i = true →
    (s.phase = .dynLens → s.idx.toNat < flatTotal s) → StreamHolds s (encode (contextOf s) i) →
    fetch s = .ok (some i)
      (match selectorOf i with
        | .btype bfinal _ => { cursorTo (linPos s + 3) s with bfinal := bfinal }
        | .byPhase _ | .magic _ | .cl _ | .ll _ | .dist _ | .ctrl _ =>
          cursorTo (linPos s + (encode (contextOf s) i).length) s)

/-! ### Canonical Huffman codes (spec/41_huffman_tables.md) -/

/-- The codes the spec writes out: the fixed literal/length codes (R96), the fixed distance codes (R97) and the worked
example (R122). -/
def Obligations.FixedAndExampleCodes : Prop :=
  (fixLL.length = 288 ∧ kraftCheck fixLL 15 = .ok ∧
    (∀ v, v < 144 → fixLL.getD v 0 = 8 ∧ codeOf fixLL v = 0b00110000 + v) ∧
    (∀ v, 144 ≤ v → v < 256 → fixLL.getD v 0 = 9 ∧ codeOf fixLL v = 0b110010000 + (v - 144)) ∧
    (∀ v, 256 ≤ v → v < 280 → fixLL.getD v 0 = 7 ∧ codeOf fixLL v = v - 256) ∧
    (∀ v, 280 ≤ v → v < 288 → fixLL.getD v 0 = 8 ∧ codeOf fixLL v = 0b11000000 + (v - 280))) ∧
  (fixD.length = 32 ∧ kraftCheck fixD 15 = .ok ∧ ∀ v, v < 32 → fixD.getD v 0 = 5 ∧ codeOf fixD v = v) ∧
  (List.range 8).map (codeBits [3, 3, 3, 3, 3, 2, 4, 4]) =
    [[false, true, false], [false, true, true], [true, false, false], [true, false, true], [true, true, false],
     [false, false], [true, true, true, false], [true, true, true, true]]

/-- `kraft_check` (R123) says whether the Kraft sum of R19 is above 1, below 1 or exactly 1. -/
def Obligations.KraftCheckClassifies : Prop :=
  ∀ (lens : List Nat) (maxbits : Nat),
    (kraftCheck lens maxbits = .over ↔ 2 ^ maxbits < kraftSum lens maxbits) ∧
    (kraftCheck lens maxbits = .under ↔ kraftSum lens maxbits < 2 ^ maxbits) ∧
    (kraftCheck lens maxbits = .ok ↔ kraftSum lens maxbits = 2 ^ maxbits)

/-- Canonical code assignment (R121): the counts, the first codes, the walk over the symbols, the code as a string of bits
most significant first, and the bound. -/
def Obligations.CanonicalCodesFollowAssignment : Prop :=
  ∀ lens : List Nat,
    (∀ len, countLen lens len = (lens.filter fun l => l = len).length) ∧ firstCode lens 1 = 0 ∧
    (∀ len, 2 ≤ len → firstCode lens len = (firstCode lens (len - 1) + countLen lens (len - 1)) <<< 1) ∧
    (∀ sym, sym < lens.length →
      (assignCodes (firstCode lens) lens)[sym]? =
        some (if lens.getD sym 0 = 0 then none else some (codeOf lens sym))) ∧
    (∀ sym, (codeBits lens sym).length = lens.getD sym 0 ∧
      ∀ j, j < lens.getD sym 0 →
        (codeBits lens sym).getD j false = (codeOf lens sym).testBit (lens.getD sym 0 - 1 - j)) ∧
    ∀ maxbits, kraftCheck lens maxbits ≠ .over → ∀ sym, 1 ≤ lens.getD sym 0 → lens.getD sym 0 ≤ maxbits →
      codeOf lens sym < 2 ^ lens.getD sym 0

/-- Prefix-freedom (R130). -/
def Obligations.AssignedCodesArePrefixFree : Prop :=
  ∀ (lens : List Nat) (maxbits : Nat), kraftCheck lens maxbits ≠ .over →
    ∀ a b, a ≠ b → hasCode lens a = true → hasCode lens b = true → lens.getD a 0 ≤ maxbits → lens.getD b 0 ≤ maxbits →
      ¬ codeBits lens a <+: codeBits lens b

/-- `huff_decode` reads back the code of every symbol of an array that is not over-subscribed (R126). -/
def Obligations.SymbolDecoderReadsItsCode : Prop :=
  ∀ (lens : List Nat) (maxbits sym : Nat) (s : State), kraftCheck lens maxbits ≠ .over → hasCode lens sym = true →
    lens.getD sym 0 ≤ maxbits → StreamHolds s (codeBits lens sym) →
    huffDecode lens maxbits s = .ok sym (cursorTo (linPos s + lens.getD sym 0) s)

/-- With a complete array `huff_decode` never raises InvalidCode (R126): it answers a symbol whose code the stream
holds, or it has consumed the input to its end and raises UnexpectedEof. -/
def Obligations.CompleteArrayDecodesOrEndsInput : Prop :=
  ∀ (lens : List Nat) (maxbits : Nat) (s : State), kraftCheck lens maxbits = .ok → 1 ≤ maxbits →
    linPos s ≤ 8 * s.inLen.toNat →
    (∃ sym, hasCode lens sym = true ∧ StreamHolds s (codeBits lens sym) ∧
      huffDecode lens maxbits s = .ok sym (cursorTo (linPos s + lens.getD sym 0) s)) ∨
    huffDecode lens maxbits s = .error (.trap .unexpectedEof) (cursorTo (8 * s.inLen.toNat) s)

/-- The count-based decoder of R127 is the decoder of R126, result, faults and cursor alike. The rule says so of arrays
that are not over-subscribed; it holds of every array. -/
def Obligations.CountDecoderAgrees : Prop :=
  ∀ (lens : List Nat) (maxbits : Nat) (s : State), linPos s ≤ 8 * s.inLen.toNat →
    huffDecodeByCount lens maxbits s = huffDecode lens maxbits s

/-! ### The reader (spec/40_bitstream_reader.md) -/

/-- `read_bits(n)` is the loop R111 writes, in every state: the test on the bits that are left, then one bit at a time. -/
def Obligations.ReadBitsFollowsItsLoop : Prop :=
  ∀ (n : Nat) (s : State), n ≤ Config.readMax →
    readBits n s =
      if (n : Int) > 8 * ((s.inLen.toNat : Int) - s.bytePos.toNat) - s.bitOff.toNat then
        .error (.trap .unexpectedEof) s
      else .ok (bitLoop n 0 0 s).1 (bitLoop n 0 0 s).2

/-- `read_bytes_le(k)` (R113): the fault, the little-endian bytes, the cursor, and that it is `read_bits(8 * k)`. -/
def Obligations.ReadBytesIsReadBits : Prop :=
  ∀ (k : Nat) (s : State), k = 1 ∨ k = 2 ∨ k = 4 → s.bitOff = 0 →
    readBytesLe k s = readBits (8 * k) s ∧
    (s.inLen.toNat < s.bytePos.toNat + k → readBytesLe k s = .error (.trap .unexpectedEof) s) ∧
    (s.bytePos.toNat + k ≤ s.inLen.toNat → ∃ v, v < 256 ^ k ∧
      (∀ j, j < k → v / 256 ^ j % 256 = (inByte s (s.bytePos.toNat + j)).toNat) ∧
      readBytesLe k s = .ok v { s with bytePos := s.bytePos + BitVec.ofNat 32 k })

/-- `align_to_byte()` and `at_end()` (R112, R114), from a cursor in normal form. -/
def Obligations.AlignmentAndEndTest : Prop :=
  ∀ s : State, CursorOk s →
    (alignToByte s = .ok () { s with bitOff := 0, bytePos := BitVec.ofNat 32 (alignedPos s) }) ∧
    alignedPos s ≤ s.inLen.toNat ∧ (s.bitOff = 0 → alignToByte s = .ok () s) ∧
    (atEnd s = true ↔ linPos s = 8 * s.inLen.toNat)

/-! ### The gzip container (spec/45_gzip_container.md) -/

/-- GZ.HDR (R201): every outcome, in the rule's order. -/
def Obligations.GzHdrResult : Prop :=
  ∀ s : State, s.bitOff = 0 →
    (s.inLen.toNat < s.bytePos.toNat + 2 → exec .gzHdr s = .next { s with err := 1, phase := .error }) ∧
    (s.bytePos.toNat + 2 ≤ s.inLen.toNat → le16 s s.bytePos.toNat ≠ 0x8B1F →
      exec .gzHdr s = .next { s with bytePos := s.bytePos + 2, err := 2, phase := .error }) ∧
    (le16 s s.bytePos.toNat = 0x8B1F →
      (s.inLen.toNat = s.bytePos.toNat + 2 →
        exec .gzHdr s = .next { s with bytePos := s.bytePos + 2, err := 1, phase := .error }) ∧
      (s.bytePos.toNat + 3 ≤ s.inLen.toNat → inByte s (s.bytePos.toNat + 2) ≠ 8 →
        exec .gzHdr s = .next { s with bytePos := s.bytePos + 3, err := 3, phase := .error }) ∧
      (inByte s (s.bytePos.toNat + 2) = 8 →
        (s.inLen.toNat = s.bytePos.toNat + 3 →
          exec .gzHdr s = .next { s with bytePos := s.bytePos + 3, err := 1, phase := .error }) ∧
        (s.bytePos.toNat + 4 ≤ s.inLen.toNat → s.inLen.toNat < s.bytePos.toNat + 8 →
          exec .gzHdr s = .next
            { s with bytePos := s.bytePos + 4, err := 1, phase := .error,
                     hdr := { s.hdr with flg := inByte s (s.bytePos.toNat + 3) } }) ∧
        (s.inLen.toNat = s.bytePos.toNat + 8 →
          exec .gzHdr s = .next
            { s with bytePos := s.bytePos + 8, err := 1, phase := .error,
                     hdr := { s.hdr with flg := inByte s (s.bytePos.toNat + 3), mtime := le32 s (s.bytePos.toNat + 4) } }) ∧
        (s.inLen.toNat = s.bytePos.toNat + 9 →
          exec .gzHdr s = .next
            { s with bytePos := s.bytePos + 9, err := 1, phase := .error,
                     hdr := { s.hdr with flg := inByte s (s.bytePos.toNat + 3), mtime := le32 s (s.bytePos.toNat + 4),
                                         xfl := inByte s (s.bytePos.toNat + 8) } }) ∧
        (s.bytePos.toNat + 10 ≤ s.inLen.toNat →
          exec .gzHdr s = .next
            { s with bytePos := s.bytePos + 10, phase := .hdrExtra,
                     hdr := { s.hdr with flg := inByte s (s.bytePos.toNat + 3), mtime := le32 s (s.bytePos.toNat + 4),
                                         xfl := inByte s (s.bytePos.toNat + 8),
                                         os := inByte s (s.bytePos.toNat + 9) } })))

/-- GZ.FEXTRA (R202): absent, present, and its two faults. -/
def Obligations.GzFextraResult : Prop :=
  ∀ s : State, s.bitOff = 0 →
    (s.hdr.flg.getLsbD 2 = false → exec .gzFextra s = .next { s with phase := .hdrName }) ∧
    (s.hdr.flg.getLsbD 2 = true →
      (s.inLen.toNat < s.bytePos.toNat + 2 → exec .gzFextra s = .next { s with err := 1, phase := .error }) ∧
      (s.bytePos.toNat + 2 ≤ s.inLen.toNat →
        s.inLen.toNat < s.bytePos.toNat + 2 + (le16 s s.bytePos.toNat).toNat →
        exec .gzFextra s = .next { s with bytePos := s.bytePos + 2, err := 1, phase := .error }) ∧
      (s.bytePos.toNat + 2 + (le16 s s.bytePos.toNat).toNat ≤ s.inLen.toNat →
        exec .gzFextra s = .next
          { s with bytePos := s.bytePos + 2 + (le16 s s.bytePos.toNat).setWidth 32, phase := .hdrName,
                   hdr := { s.hdr with extraOff := s.bytePos + 2, extraLen := le16 s s.bytePos.toNat } }))

/-- GZ.FNAME and GZ.FCOMMENT (R203, R204): absent, a string of any length, and a string with no end. -/
def Obligations.GzStringResult : Prop :=
  ∀ s : State, s.bitOff = 0 → s.bytePos.toNat ≤ s.inLen.toNat →
    (s.hdr.flg.getLsbD 3 = false → exec .gzFname s = .next { s with phase := .hdrComment }) ∧
    (s.hdr.flg.getLsbD 4 = false → exec .gzFcomment s = .next { s with phase := .hdrHcrc }) ∧
    (∀ n, s.bytePos.toNat + n < s.inLen.toNat → (∀ j, j < n → inByte s (s.bytePos.toNat + j) ≠ 0) →
      inByte s (s.bytePos.toNat + n) = 0 →
      (s.hdr.flg.getLsbD 3 = true → exec .gzFname s = .next
        { s with bytePos := BitVec.ofNat 32 (s.bytePos.toNat + n + 1), phase := .hdrComment,
                 hdr := { s.hdr with nameOff := s.bytePos, nameLen := BitVec.ofNat 32 n } }) ∧
      (s.hdr.flg.getLsbD 4 = true → exec .gzFcomment s = .next
        { s with bytePos := BitVec.ofNat 32 (s.bytePos.toNat + n + 1), phase := .hdrHcrc,
                 hdr := { s.hdr with commentOff := s.bytePos, commentLen := BitVec.ofNat 32 n } })) ∧
    ((∀ a, s.bytePos.toNat ≤ a → a < s.inLen.toNat → inByte s a ≠ 0) →
      (s.hdr.flg.getLsbD 3 = true → exec .gzFname s = .next
        { s with bytePos := s.inLen, err := 1, phase := .error, hdr := { s.hdr with nameOff := s.bytePos } }) ∧
      (s.hdr.flg.getLsbD 4 = true → exec .gzFcomment s = .next
        { s with bytePos := s.inLen, err := 1, phase := .error, hdr := { s.hdr with commentOff := s.bytePos } }))

/-- GZ.FHCRC (R205, R206): absent; recorded; and, when `CFG.HCRC_CHECK` is 1, checked against the low half of the CRC-32
of every input byte before the field. -/
def Obligations.GzFhcrcResult : Prop :=
  ∀ s : State, s.bitOff = 0 →
    (s.hdr.flg.getLsbD 1 = false → exec .gzFhcrc s = .next { s with phase := .blkHdr }) ∧
    (s.hdr.flg.getLsbD 1 = true →
      (s.inLen.toNat < s.bytePos.toNat + 2 → exec .gzFhcrc s = .next { s with err := 1, phase := .error }) ∧
      (s.bytePos.toNat + 2 ≤ s.inLen.toNat →
        (s.hcrcCheck = 0 ∨ (crc32 (inBytes s 0 s.bytePos.toNat)).setWidth 16 = le16 s s.bytePos.toNat →
          exec .gzFhcrc s = .next
            { s with bytePos := s.bytePos + 2, phase := .blkHdr,
                     hdr := { s.hdr with hcrc := le16 s s.bytePos.toNat } }) ∧
        (s.hcrcCheck = 1 → (crc32 (inBytes s 0 s.bytePos.toNat)).setWidth 16 ≠ le16 s s.bytePos.toNat →
          exec .gzFhcrc s = .next
            { s with bytePos := s.bytePos + 2, err := 11, phase := .error,
                     hdr := { s.hdr with hcrc := le16 s s.bytePos.toNat } })))

/-- GZ.TRAILER (R210, R212): every outcome, in the rule's order, from a cursor in normal form. -/
def Obligations.GzTrailerResult : Prop :=
  ∀ s : State, CursorOk s →
    (s.inLen.toNat < alignedPos s + 4 →
      exec .gzTrailer s = .next
        { s with bitOff := 0, bytePos := BitVec.ofNat 32 (alignedPos s), err := 1, phase := .error }) ∧
    (alignedPos s + 4 ≤ s.inLen.toNat → s.inLen.toNat < alignedPos s + 8 →
      exec .gzTrailer s = .next
        { s with bitOff := 0, bytePos := BitVec.ofNat 32 (alignedPos s + 4), err := 1, phase := .error,
                 trl := { s.trl with crc32 := le32 s (alignedPos s) } }) ∧
    (alignedPos s + 8 ≤ s.inLen.toNat →
      (le32 s (alignedPos s) ≠ s.crc →
        exec .gzTrailer s = .next
          { s with bitOff := 0, bytePos := BitVec.ofNat 32 (alignedPos s + 8), err := 9, phase := .error,
                   trl := { crc32 := le32 s (alignedPos s), isize := le32 s (alignedPos s + 4) } }) ∧
      (le32 s (alignedPos s) = s.crc → le32 s (alignedPos s + 4) ≠ BitVec.ofNat 32 (s.outPos.toNat % 2 ^ 32) →
        exec .gzTrailer s = .next
          { s with bitOff := 0, bytePos := BitVec.ofNat 32 (alignedPos s + 8), err := 10, phase := .error,
                   trl := { crc32 := le32 s (alignedPos s), isize := le32 s (alignedPos s + 4) } }) ∧
      (le32 s (alignedPos s) = s.crc → le32 s (alignedPos s + 4) = BitVec.ofNat 32 (s.outPos.toNat % 2 ^ 32) →
        exec .gzTrailer s = .next
          { s with bitOff := 0, bytePos := BitVec.ofNat 32 (alignedPos s + 8), phase := .done,
                   trl := { crc32 := le32 s (alignedPos s), isize := le32 s (alignedPos s + 4) },
                   trailing := if alignedPos s + 8 = s.inLen.toNat then 0 else 1 }))

/-- CRC-32 (R209): its fold, the empty sequence and the known values. -/
def Obligations.CrcKnownValues : Prop :=
  crc32 [] = 0 ∧ (∀ (bytes : List Byte) (b : Byte), crc32 (bytes ++ [b]) = crcUpdate (crc32 bytes) b) ∧
    crc32 [0x61] = 0xE8B7BE43 ∧ crc32 [0x61, 0x62] = 0x9E83486D ∧ crc32 [0x61, 0x62, 0x63] = 0x352441C2 ∧
    crc32 [0x31, 0x32, 0x33, 0x34, 0x35, 0x36, 0x37, 0x38, 0x39] = 0xCBF43926

/-- The frame of the header operations (R200): they write the header record, the byte position and the phase (and `ERR`
with a trap), nothing else, and no byte of memory. -/
def Obligations.GzipHeaderFrame : Prop :=
  ∀ (i : Instr) (s t : State), i ∈ [.gzHdr, .gzFextra, .gzFname, .gzFcomment, .gzFhcrc] → exec i s = .next t →
    t = { s with phase := t.phase, err := t.err, bytePos := t.bytePos, hdr := t.hdr } ∧
      (∀ a, inByte t a = inByte s a) ∧ ∀ a, outByte t a = outByte s a

/-! ### Blocks and symbols (spec/43_block_decoder.md) -/

/-- The block types (R162 to R165). -/
def Obligations.BlockTypesDispatch : Prop :=
  ∀ (bfinal : BitVec 1) (s : State),
    exec (.blkStored bfinal) s = .next { s with bfinal := bfinal, btype := 0, phase := .storedLen } ∧
    exec (.blkFixed bfinal) s = .next { s with bfinal := bfinal, btype := 1, phase := .sym } ∧
    exec (.blkDynamic bfinal) s = .next { s with bfinal := bfinal, btype := 2, phase := .dynCounts } ∧
    exec (.blkReserved bfinal) s = .next { s with bfinal := bfinal, btype := 3, err := 6, phase := .error }

/-- BLK.HDR as one step of the machine (R161): the three bits, the dispatch and the faults in order. -/
def Obligations.BlockHeaderStep : Prop :=
  ∀ s : State, s.pending = [] → s.phase = .blkHdr →
    (8 * s.inLen.toNat < linPos s + 1 → step s = .next { s with err := 1, phase := .error }) ∧
    ∀ bfinal : BitVec 1, StreamHolds s (bitsLsb bfinal.toNat 1) →
      (8 * s.inLen.toNat < linPos s + 3 →
        step s = .next { cursorTo (linPos s + 1) s with bfinal := bfinal, err := 1, phase := .error }) ∧
      ∀ btype : BitVec 2, StreamHolds s (bitsLsb bfinal.toNat 1 ++ bitsLsb btype.toNat 2) →
        (btype = 0 →
          step s = .next { cursorTo (linPos s + 3) s with bfinal := bfinal, btype := 0, phase := .storedLen }) ∧
        (btype = 1 → step s = .next { cursorTo (linPos s + 3) s with bfinal := bfinal, btype := 1, phase := .sym }) ∧
        (btype = 2 →
          step s = .next { cursorTo (linPos s + 3) s with bfinal := bfinal, btype := 2, phase := .dynCounts }) ∧
        (btype = 3 →
          step s = .next { cursorTo (linPos s + 3) s with bfinal := bfinal, btype := 3, err := 6, phase := .error })

/-- STORED.LEN (R166): every outcome, in the rule's order, from a cursor in normal form. -/
def Obligations.StoredLenResult : Prop :=
  ∀ s : State, CursorOk s →
    (s.inLen.toNat < alignedPos s + 2 →
      exec .storedLen s = .next
        { s with bitOff := 0, bytePos := BitVec.ofNat 32 (alignedPos s), err := 1, phase := .error }) ∧
    (alignedPos s + 2 ≤ s.inLen.toNat → s.inLen.toNat < alignedPos s + 4 →
      exec .storedLen s = .next
        { s with bitOff := 0, bytePos := BitVec.ofNat 32 (alignedPos s + 2), err := 1, phase := .error }) ∧
    (alignedPos s + 4 ≤ s.inLen.toNat →
      (le16 s (alignedPos s + 2) ≠ ~~~le16 s (alignedPos s) →
        exec .storedLen s = .next
          { s with bitOff := 0, bytePos := BitVec.ofNat 32 (alignedPos s + 4), err := 7, phase := .error }) ∧
      (le16 s (alignedPos s + 2) = ~~~le16 s (alignedPos s) →
        exec .storedLen s = .next
          { s with bitOff := 0, bytePos := BitVec.ofNat 32 (alignedPos s + 4), sRem := le16 s (alignedPos s),
                   phase := .storedCopy }))

/-- STORED.BYTE (R167): the end of the block, one byte copied, and its two faults. -/
def Obligations.StoredByteResult : Prop :=
  ∀ s : State, s.bitOff = 0 →
    (s.sRem = 0 → exec .storedByte s = .next { s with phase := if s.bfinal = 1 then .trailer else .blkHdr }) ∧
    (s.sRem ≠ 0 →
      (s.inLen.toNat < s.bytePos.toNat + 1 → exec .storedByte s = .next { s with err := 1, phase := .error }) ∧
      (s.bytePos.toNat + 1 ≤ s.inLen.toNat →
        (s.outPos = s.outCap →
          exec .storedByte s = .next { s with bytePos := s.bytePos + 1, err := 12, phase := .error }) ∧
        (s.outPos.toNat < s.outCap.toNat →
          exec .storedByte s = .next
            { s with bytePos := s.bytePos + 1, sRem := s.sRem - 1, outPos := s.outPos + 1,
                     outMem := memWrite s.outMem s.outPos.toNat (inByte s s.bytePos.toNat),
                     crc := crcUpdate s.crc (inByte s s.bytePos.toNat) })))

/-- A whole stored block: LEN steps copy its LEN bytes and one more ends the block (R160, R167). -/
def Obligations.StoredBlockCopiesItsBytes : Prop :=
  ∀ s : State, s.pending = [] → s.phase = .storedCopy → BytesLeft s s.sRem.toNat →
    s.outPos.toNat + s.sRem.toNat ≤ s.outCap.toNat →
    ∃ t, Host.Core.run Sys2Proof.core (s.sRem.toNat + 1) s = .next t ∧
      t.phase = (if s.bfinal = 1 then .trailer else .blkHdr) ∧ t.sRem = 0 ∧ t.bitOff = 0 ∧
      t.bytePos.toNat = s.bytePos.toNat + s.sRem.toNat ∧ t.outPos.toNat = s.outPos.toNat + s.sRem.toNat ∧
      outBytes t s.outPos.toNat s.sRem.toNat = inBytes s s.bytePos.toNat s.sRem.toNat ∧
      ∀ a, a < s.outPos.toNat ∨ s.outPos.toNat + s.sRem.toNat ≤ a → outByte t a = outByte s a

/-- LIT and EOB (R170, R171), with `emit` and `block_end()` (R183, R176). -/
def Obligations.LiteralAndEndOfBlockResult : Prop :=
  (∀ (value : Byte) (s : State),
    (s.outPos = s.outCap → exec (.lit value) s = .next { s with err := 12, phase := .error }) ∧
    (s.outPos.toNat < s.outCap.toNat →
      exec (.lit value) s = .next
        { s with outMem := memWrite s.outMem s.outPos.toNat value, crc := crcUpdate s.crc value,
                 outPos := s.outPos + 1 })) ∧
  ∀ s : State,
    (s.bfinal = 1 → exec .eob s = .next { s with phase := .trailer }) ∧
    (s.bfinal = 0 → exec .eob s = .next { s with phase := .blkHdr })

/-- LEN (R172) for all 29 rows, with the numbers of R94 and every value of the extra bits. -/
def Obligations.MatchLengthResult : Prop :=
  ∀ (i : Instr) (base extra : Nat), (i, base, extra) ∈ lengthRows → ∀ s : State,
    (8 * s.inLen.toNat < linPos s + extra → exec i s = .next { s with err := 1, phase := .error }) ∧
    ∀ e, e < 2 ^ extra → StreamHolds s (bitsLsb e extra) →
      exec i s = .next { cursorTo (linPos s + extra) s with mLen := BitVec.ofNat 9 (base + e), phase := .symDist }

/-- DIST (R173, after its symbol) for all 30 rows, with the numbers of R95 and every value of the extra bits. -/
def Obligations.MatchDistanceResult : Prop :=
  ∀ (i : Instr) (base extra : Nat), (i, base, extra) ∈ distanceRows → ∀ s : State,
    (8 * s.inLen.toNat < linPos s + extra → exec i s = .next { s with err := 1, phase := .error }) ∧
    ∀ e, e < 2 ^ extra → StreamHolds s (bitsLsb e extra) →
      (base + e ≤ s.outPos.toNat →
        exec i s = .next { cursorTo (linPos s + extra) s with mDist := BitVec.ofNat 16 (base + e), phase := .copy }) ∧
      (s.outPos.toNat < base + e →
        exec i s = .next { cursorTo (linPos s + extra) s with err := 8, phase := .error })

/-- The reserved symbols (R174, R175). -/
def Obligations.ReservedSymbolsFault : Prop :=
  ∀ (i : Instr) (s : State), i ∈ [.llRsvd286, .llRsvd287, .dRsvd30, .dRsvd31] →
    exec i s = .next { s with err := 5, phase := .error }

/-- The frame of the block and symbol operations that store nothing (R161 to R176): what each may write. -/
def Obligations.BlockAndSymbolFrame : Prop :=
  ∀ (i : Instr) (s t : State), exec i s = .next t →
    ((∃ b, i = .blkStored b ∨ i = .blkFixed b ∨ i = .blkDynamic b ∨ i = .blkReserved b) →
      t = { s with phase := t.phase, err := t.err, bfinal := t.bfinal, btype := t.btype } ∧
        (∀ a, inByte t a = inByte s a) ∧ ∀ a, outByte t a = outByte s a) ∧
    (i = .storedLen →
      t = { s with phase := t.phase, err := t.err, bytePos := t.bytePos, bitOff := t.bitOff, sRem := t.sRem } ∧
        (∀ a, inByte t a = inByte s a) ∧ ∀ a, outByte t a = outByte s a) ∧
    (i = .eob → t = { s with phase := t.phase } ∧ (∀ a, inByte t a = inByte s a) ∧ ∀ a, outByte t a = outByte s a) ∧
    (i ∈ lengthRows.map (·.1) →
      t = { s with phase := t.phase, err := t.err, bytePos := t.bytePos, bitOff := t.bitOff, mLen := t.mLen } ∧
        (∀ a, inByte t a = inByte s a) ∧ ∀ a, outByte t a = outByte s a) ∧
    (i ∈ distanceRows.map (·.1) →
      t = { s with phase := t.phase, err := t.err, bytePos := t.bytePos, bitOff := t.bitOff, mDist := t.mDist } ∧
        (∀ a, inByte t a = inByte s a) ∧ ∀ a, outByte t a = outByte s a)

/-! ### Dynamic tables (spec/42_dynamic_tables.md) -/

/-- DYN.COUNTS (R141): every outcome, for every value of the three fields. -/
def Obligations.DynCountsResult : Prop :=
  ∀ s : State,
    (8 * s.inLen.toNat < linPos s + 5 → exec .dynCounts s = .next { s with err := 1, phase := .error }) ∧
    ∀ a, a < 32 → StreamHolds s (bitsLsb a 5) →
      (8 * s.inLen.toNat < linPos s + 10 →
        exec .dynCounts s = .next
          { cursorTo (linPos s + 5) s with hlit := BitVec.ofNat 9 (a + 257), err := 1, phase := .error }) ∧
      ∀ b, b < 32 → StreamHolds s (bitsLsb a 5 ++ bitsLsb b 5) →
        (8 * s.inLen.toNat < linPos s + 14 →
          exec .dynCounts s = .next
            { cursorTo (linPos s + 10) s with
              hlit := BitVec.ofNat 9 (a + 257), hdist := BitVec.ofNat 6 (b + 1), err := 1, phase := .error }) ∧
        ∀ c, c < 16 → StreamHolds s (bitsLsb a 5 ++ bitsLsb b 5 ++ bitsLsb c 4) →
          (a ≤ 29 →
            exec .dynCounts s = .next
              { cursorTo (linPos s + 14) s with
                hlit := BitVec.ofNat 9 (a + 257), hdist := BitVec.ofNat 6 (b + 1), hclen := BitVec.ofNat 5 (c + 4),
                phase := .dynCllen }) ∧
          (29 < a →
            exec .dynCounts s = .next
              { cursorTo (linPos s + 14) s with
                hlit := BitVec.ofNat 9 (a + 257), hdist := BitVec.ofNat 6 (b + 1), hclen := BitVec.ofNat 5 (c + 4),
                err := 4, phase := .error })

/-- DYN.CLLEN (R142): every outcome, for every list of values of its fields. -/
def Obligations.DynCllenResult : Prop :=
  ∀ s : State, s.hclen.toNat ≤ 19 → ∀ values : List Nat, (∀ v ∈ values, v < 8) →
    StreamHolds s (values.flatMap fun v => bitsLsb v 3) →
    (values.length < s.hclen.toNat → 8 * s.inLen.toNat < linPos s + 3 * values.length + 3 →
      exec .dynCllen s = .next
        { cursorTo (linPos s + 3 * values.length) s with clLen := clArray values, err := 1, phase := .error }) ∧
    (values.length = s.hclen.toNat →
      (kraftCheck (lensOf (clArray values)) 7 = .ok →
        exec .dynCllen s = .next
          { cursorTo (linPos s + 3 * s.hclen.toNat) s with clLen := clArray values, idx := 0, phase := .dynLens }) ∧
      (kraftCheck (lensOf (clArray values)) 7 ≠ .ok →
        exec .dynCllen s = .next
          { cursorTo (linPos s + 3 * s.hclen.toNat) s with clLen := clArray values, err := 4, phase := .error }))

/-- CL.LEN (R144) for all 16 rows. -/
def Obligations.CodeLengthSymbolResult : Prop :=
  ∀ (i : Instr) (v : BitVec 4), (i, v) ∈ codeLengthRows → ∀ s : State,
    exec i s = .next { s with flat := s.flat.set s.idx.toNat v, idx := s.idx + 1 }

/-- CL.REP16 (R145): every outcome, for every value of the extra bits. -/
def Obligations.RepeatPreviousResult : Prop :=
  ∀ s : State,
    (8 * s.inLen.toNat < linPos s + 2 → exec .clRep16 s = .next { s with err := 1, phase := .error }) ∧
    ∀ e, e < 4 → StreamHolds s (bitsLsb e 2) →
      (s.idx = 0 ∨ s.hlit.toNat + s.hdist.toNat < s.idx.toNat + (3 + e) →
        exec .clRep16 s = .next { cursorTo (linPos s + 2) s with err := 4, phase := .error }) ∧
      (s.idx ≠ 0 → s.idx.toNat + (3 + e) ≤ s.hlit.toNat + s.hdist.toNat →
        ∃ flat, exec .clRep16 s = .next
            { cursorTo (linPos s + 2) s with flat := flat, idx := BitVec.ofNat 9 (s.idx.toNat + (3 + e)) } ∧
          flat.length = s.flat.length ∧
          ∀ j, j < flat.length → flat.getD j 0 =
            if s.idx.toNat ≤ j ∧ j < s.idx.toNat + (3 + e) then s.flat.getD (s.idx.toNat - 1) 0 else s.flat.getD j 0)

/-- CL.ZREP17 and CL.ZREP18 (R146, R147): every outcome, for every value of the extra bits. -/
def Obligations.ZeroRunResult : Prop :=
  ∀ (i : Instr) (base extra : Nat), (i, base, extra) ∈ zeroRunRows → ∀ s : State,
    (8 * s.inLen.toNat < linPos s + extra → exec i s = .next { s with err := 1, phase := .error }) ∧
    ∀ e, e < 2 ^ extra → StreamHolds s (bitsLsb e extra) →
      (s.hlit.toNat + s.hdist.toNat < s.idx.toNat + (base + e) →
        exec i s = .next { cursorTo (linPos s + extra) s with err := 4, phase := .error }) ∧
      (s.idx.toNat + (base + e) ≤ s.hlit.toNat + s.hdist.toNat →
        ∃ flat, exec i s = .next
            { cursorTo (linPos s + extra) s with flat := flat, idx := BitVec.ofNat 9 (s.idx.toNat + (base + e)) } ∧
          flat.length = s.flat.length ∧
          ∀ j, j < flat.length → flat.getD j 0 =
            if s.idx.toNat ≤ j ∧ j < s.idx.toNat + (base + e) then 0 else s.flat.getD j 0)

/-- DYN.BUILD (R148): the two arrays and the Kraft checks. -/
def Obligations.DynBuildResult : Prop :=
  ∀ s : State, ∃ ll dist : List (BitVec 4),
    (ll.length = 288 ∧ ∀ sym, sym < 288 → ll.getD sym 0 = if sym < s.hlit.toNat then s.flat.getD sym 0 else 0) ∧
    (dist.length = 32 ∧
      ∀ sym, sym < 32 → dist.getD sym 0 = if sym < s.hdist.toNat then s.flat.getD (s.hlit.toNat + sym) 0 else 0) ∧
    (kraftCheck (lensOf ll) 15 = .ok → kraftCheck (lensOf dist) 15 = .ok →
      exec .dynBuild s = .next { s with llLen := ll, dLen := dist, phase := .sym }) ∧
    (kraftCheck (lensOf ll) 15 ≠ .ok ∨ kraftCheck (lensOf dist) 15 ≠ .ok →
      exec .dynBuild s = .next { s with llLen := ll, dLen := dist, err := 4, phase := .error })

/-- The frame of the dynamic table reader (R140): what each operation may write, and no byte of memory. -/
def Obligations.DynamicTableFrame : Prop :=
  ∀ (i : Instr) (s t : State), exec i s = .next t →
    (i = .dynCounts →
      t = { s with phase := t.phase, err := t.err, bytePos := t.bytePos, bitOff := t.bitOff, hlit := t.hlit,
                   hdist := t.hdist, hclen := t.hclen } ∧
        (∀ a, inByte t a = inByte s a) ∧ ∀ a, outByte t a = outByte s a) ∧
    (i = .dynCllen →
      t = { s with phase := t.phase, err := t.err, bytePos := t.bytePos, bitOff := t.bitOff, clLen := t.clLen,
                   idx := t.idx } ∧
        (∀ a, inByte t a = inByte s a) ∧ ∀ a, outByte t a = outByte s a) ∧
    (i ∈ codeLengthRows.map (·.1) →
      t = { s with flat := t.flat, idx := t.idx } ∧ (∀ a, inByte t a = inByte s a) ∧ ∀ a, outByte t a = outByte s a) ∧
    (i ∈ [.clRep16, .clZrep17, .clZrep18] →
      t = { s with phase := t.phase, err := t.err, bytePos := t.bytePos, bitOff := t.bitOff, flat := t.flat,
                   idx := t.idx } ∧
        (∀ a, inByte t a = inByte s a) ∧ ∀ a, outByte t a = outByte s a) ∧
    (i = .dynBuild →
      t = { s with phase := t.phase, err := t.err, llLen := t.llLen, dLen := t.dLen } ∧
        (∀ a, inByte t a = inByte s a) ∧ ∀ a, outByte t a = outByte s a)

/-! ### The window and the sequencer (spec/44_inflate_engine.md) -/

/-- COPY (R185): the return to SYM, one byte copied, and the full output. -/
def Obligations.CopyResult : Prop :=
  ∀ s : State,
    (s.mLen = 0 → exec .copy s = .next { s with phase := .sym }) ∧
    (s.mLen ≠ 0 → 1 ≤ s.mDist.toNat → s.mDist.toNat ≤ s.outPos.toNat →
      (s.outPos = s.outCap → exec .copy s = .next { s with err := 12, phase := .error }) ∧
      (s.outPos.toNat < s.outCap.toNat →
        exec .copy s = .next
          { s with mLen := s.mLen - 1, outPos := s.outPos + 1,
                   outMem := memWrite s.outMem s.outPos.toNat (outByte s (s.outPos.toNat - s.mDist.toNat)),
                   crc := crcUpdate s.crc (outByte s (s.outPos.toNat - s.mDist.toNat)) }))

/-- A whole match, overlapping or not (R186): byte j of the match is `OUT[p - M_DIST + (j mod M_DIST)]`. -/
def Obligations.MatchCopiesCyclically : Prop :=
  ∀ s : State, s.pending = [] → s.phase = .copy → 1 ≤ s.mDist.toNat → s.mDist.toNat ≤ s.outPos.toNat →
    s.outPos.toNat + s.mLen.toNat ≤ s.outCap.toNat →
    ∃ t, Host.Core.run Sys2Proof.core (s.mLen.toNat + 1) s = .next t ∧ t.phase = .sym ∧ t.mLen = 0 ∧
      t.mDist = s.mDist ∧ t.bytePos = s.bytePos ∧ t.bitOff = s.bitOff ∧
      t.outPos.toNat = s.outPos.toNat + s.mLen.toNat ∧
      (∀ j, j < s.mLen.toNat →
        outByte t (s.outPos.toNat + j) = outByte s (s.outPos.toNat - s.mDist.toNat + j % s.mDist.toNat)) ∧
      ∀ a, a < s.outPos.toNat ∨ s.outPos.toNat + s.mLen.toNat ≤ a → outByte t a = outByte s a

/-- The frame of the three instructions that store a byte (R183): the byte goes to `OUT:OUT_POS`, every other byte of
both memories reads as before, and only the registers of their rules change. -/
def Obligations.StoringFrame : Prop :=
  ∀ (i : Instr) (s t : State), exec i s = .next t →
    ((∃ v, i = .lit v) →
      t = { s with phase := t.phase, err := t.err, outMem := t.outMem, outPos := t.outPos, crc := t.crc } ∧
        (∀ a, inByte t a = inByte s a) ∧ ∀ a, a ≠ s.outPos.toNat → outByte t a = outByte s a) ∧
    (i = .storedByte →
      t = { s with phase := t.phase, err := t.err, outMem := t.outMem, outPos := t.outPos, crc := t.crc,
                   bytePos := t.bytePos, sRem := t.sRem } ∧
        (∀ a, inByte t a = inByte s a) ∧ ∀ a, a ≠ s.outPos.toNat → outByte t a = outByte s a) ∧
    (i = .copy →
      t = { s with phase := t.phase, err := t.err, outMem := t.outMem, outPos := t.outPos, crc := t.crc,
                   mLen := t.mLen } ∧
        (∀ a, inByte t a = inByte s a) ∧ ∀ a, a ≠ s.outPos.toNat → outByte t a = outByte s a)

/-- A core step never writes `IN`, `IN_LEN` or `CFG` (R60, R71), and no byte of `OUT` but the one at `OUT:OUT_POS` reads
differently after it, written or not (`outEpoch` is what an unwritten byte reads as, log 4). It changes `OUT`, `OUT_POS`
and `CRC` together or not at all, by that one byte, and only in SYM, STORED_COPY and COPY: `emit` is their only writer
(R183). -/
def Obligations.OnlyEmitWritesMemory : Prop :=
  ∀ s t : State, s.pending = [] → step s = .next t →
    (t.inMem = s.inMem ∧ t.inLen = s.inLen ∧ t.hcrcCheck = s.hcrcCheck ∧ ∀ a, inByte t a = inByte s a) ∧
    (t.outCap = s.outCap ∧ t.outEpoch = s.outEpoch ∧ ∀ a, a ≠ s.outPos.toNat → outByte t a = outByte s a) ∧
    ((t.outMem = s.outMem ∧ t.outPos = s.outPos ∧ t.crc = s.crc) ∨
      ((s.phase = .sym ∨ s.phase = .storedCopy ∨ s.phase = .copy) ∧ s.outPos.toNat < s.outCap.toNat ∧
        ∃ b, t.outMem = memWrite s.outMem s.outPos.toNat b ∧ t.outPos = s.outPos + 1 ∧ t.crc = crcUpdate s.crc b))

/-- Every core step passes to a phase the control transfer table allows, or to ERROR (R181; SYM is two phases of the
model, log 1). -/
def Obligations.PhaseTransfersFollowTable : Prop :=
  ∀ s t : State, s.pending = [] → step s = .next t → t.phase = .error ∨ t.phase ∈ nextPhases s

/-- A step of the machine fetches an instruction and runs it (R189): `step` is `exec` of what `fetch` answers; a fetch
that raises is a trap; with the flat array full DYN_LENS passes on and reads nothing (R143); a `wait` of the host
(log 2) lets the core step. -/
def Obligations.StepRunsTheFetchedInstruction : Prop :=
  ∀ s : State,
    (s.pending = [] →
      (∀ i t, fetch s = .ok (some i) t → step s = exec i t) ∧
      (∀ e t, fetch s = .error (.trap e) t → step s = .next { t with err := trapCode e, phase := .error }) ∧
      (s.phase = .dynLens → s.idx.toNat = s.hlit.toNat + s.hdist.toNat → step s = .next { s with phase := .dynBuild })) ∧
    ∀ rest, s.pending = .wait :: rest → s.busy = true → step s = coreStep { s with pending := rest }

/-- When the stream holds a well-formed instruction, a step runs exactly it, past its bits (R189, R102). -/
def Obligations.StepRunsTheEncodedInstruction : Prop :=
  ∀ (s : State) (i : Instr), Inv s → s.busy = true → s.pending = [] → wellFormed (contextOf s) i = true →
    (s.phase = .dynLens → s.idx.toNat < flatTotal s) → StreamHolds s (encode (contextOf s) i) →
    step s = exec i
      (match selectorOf i with
        | .btype bfinal _ => { cursorTo (linPos s + 3) s with bfinal := bfinal }
        | .byPhase _ | .magic _ | .cl _ | .ll _ | .dist _ | .ctrl _ =>
          cursorTo (linPos s + (encode (contextOf s) i).length) s)

/-! ### Traps (spec/60_exceptions.md) -/

/-- Taking a trap writes `ERR` and `PHASE` and nothing else (R251), with the codes of R250. -/
def Obligations.TrapEntryWritesErrAndPhase : Prop :=
  (∀ (op : Op Unit) (s t : State) (e : Trap), op s = .error (.trap e) t →
    finish op s = .next { t with err := trapCode e, phase := .error }) ∧
  trapCode .unexpectedEof = 1 ∧ trapCode .invalidMagic = 2 ∧ trapCode .unsupportedMethod = 3 ∧
  trapCode .malformedTable = 4 ∧ trapCode .invalidCode = 5 ∧ trapCode .reservedBlockType = 6 ∧
  trapCode .lengthMismatch = 7 ∧ trapCode .invalidDistance = 8 ∧ trapCode .crcMismatch = 9 ∧
  trapCode .sizeMismatch = 10 ∧ trapCode .headerCrcMismatch = 11 ∧ trapCode .outputOverflow = 12

/-- The faults each phase can raise (R267; SYM is two phases of the model, log 1). -/
def Obligations.FaultsByPhase : Prop :=
  ∀ s t : State, Inv s → s.pending = [] → step s = .next t → t.phase = .error → t.err ∈ phaseFaults s.phase

/-! ### Invariants and the whole run -/

/-- The state after reset is sound. -/
def Obligations.ResetIsSound : Prop := Inv State.reset

/-- Every step, of the core and of the host, keeps a sound state sound (R50). -/
def Obligations.StepKeepsSoundness : Prop :=
  ∀ s t : State, Inv s → step s = .next t → Inv t

/-- A busy core in a sound state always has a next state: no malformed input makes it access memory out of bounds or
stop otherwise (R74, R189). -/
def Obligations.SoundBusyCoreHasNextState : Prop :=
  ∀ s : State, Inv s → s.busy = true → s.pending = [] → ∃ t, step s = .next t

/-- Every run ends (R11, R116): from a sound busy state the core reaches DONE or ERROR in some number of steps. -/
def Obligations.EveryRunEnds : Prop :=
  ∀ s : State, Inv s → s.busy = true → s.pending = [] →
    ∃ n t, Host.Core.run Sys2Proof.core n s = .next t ∧ (t.phase = .done ∨ t.phase = .error)

/-- A run that reaches DONE has verified its output (R189): the CRC-32 of the bytes it produced and their number are
the trailer's, and the cursor is just after the trailer. -/
def Obligations.DoneMeansVerified : Prop :=
  ∀ s t : State, Inv s → s.busy = true → s.pending = [] → step s = .next t → t.phase = .done →
    s.phase = .trailer ∧ t.err = 0 ∧ crc32 (outBytes t 0 t.outPos.toNat) = t.trl.crc32 ∧ t.crc = t.trl.crc32 ∧
      t.outPos.toNat % 2 ^ 32 = t.trl.isize.toNat ∧ t.bitOff = 0 ∧ t.bytePos.toNat = alignedPos s + 8 ∧
      (t.trailing = 1 ↔ t.bytePos.toNat < t.inLen.toNat)

/-- The core never moves its cursor back and never past the end of the input (R22, R115). -/
def Obligations.CursorNeverGoesBack : Prop :=
  ∀ s t : State, Inv s → s.pending = [] → step s = .next t →
    linPos s ≤ linPos t ∧ linPos t ≤ 8 * t.inLen.toNat

/-- What the core does does not depend on the host's pending moves, on what the host read, or on the draws made for its
reads (R236): with those replaced, a core step does the same. -/
def Obligations.CoreIgnoresTheHost : Prop :=
  ∀ (s : State) (pending : List HostMove) (hostData : Word) (draws : Nat),
    coreStep (withHost pending hostData draws s) =
      match coreStep s with
      | .next t => .next (withHost pending hostData draws t)
      | .fault f => .fault f
      | .refused r => .refused r

/-! ### The host (spec/10_state.md, spec/46_host_control.md, spec/70_reset_and_hazards.md) -/

/-- START (R232, R233, R49), and the host's write to CTRL that is it (R31). -/
def Obligations.StartBeginsARun : Prop :=
  ∀ s : State,
    (∀ (data : Word) (rest : List HostMove), s.pending = .regWrite 0 4 data :: rest →
      (data.getLsbD 0 = true → step s = exec .start { s with pending := rest }) ∧
      (data.getLsbD 0 = false → step s = .next { s with pending := rest })) ∧
    (s.busy = true → exec .start s = .next s) ∧
    (s.busy = false → exec .start s = .next
      { phase := .hdrFixed, bytePos := 0, bitOff := 0, bfinal := 0, btype := 0, hlit := 0, hdist := 0, hclen := 0,
        idx := 0, sRem := 0, mLen := 0, mDist := 0, outPos := 0, crc := 0, hcrcCheck := s.hcrcCheck, inLen := s.inLen,
        trailing := 0, err := 0,
        hdr := { flg := 0, mtime := 0, xfl := 0, os := 0, extraOff := 0, extraLen := 0, nameOff := 0, nameLen := 0,
                 commentOff := 0, commentLen := 0, hcrc := 0 },
        trl := { crc32 := 0, isize := 0 }, clLen := s.clLen, flat := s.flat, llLen := s.llLen, dLen := s.dLen,
        inMem := s.inMem, outMem := s.outMem, outCap := s.outCap, pending := s.pending, hostData := s.hostData,
        draws := s.draws, outEpoch := s.outEpoch })

/-- Register reads (R30, R32, R35, R234): while not BUSY every register of the map, and 0 everywhere else; while BUSY the
read changes nothing of the run, `CFG`, `IN_LEN` and `STATUS.STATE` are defined, and what the other registers return is a
free value (log 6); a read that is not 32 bits wide and aligned is refused. -/
def Obligations.RegisterReads : Prop :=
  ∀ (s : State) (offset size : Nat) (rest : List HostMove), s.pending = .regRead offset size :: rest →
    (size ≠ 4 ∨ offset % 4 ≠ 0 → step s = .refused .unalignedRegisterAccess) ∧
    (size = 4 → offset % 4 = 0 →
      (s.busy = false →
        (∀ v, (offset, v) ∈ registerMap s → step s = .next { s with pending := rest, hostData := v }) ∧
        ((∀ v, (offset, v) ∉ registerMap s) → step s = .next { s with pending := rest, hostData := 0 })) ∧
      (s.busy = true →
        ∃ v draws, step s = .next (withHost rest v draws s) ∧ (offset = 0x04 → v = s.hcrcCheck.setWidth 32) ∧
          (offset = 0x08 → v = s.inLen) ∧ (offset = 0x0C → v.extractLsb' 0 2 = 1)))

/-- Register writes other than to CTRL (R32 to R34, R235): `CFG` and `IN_LEN` while not BUSY, every other one ignored; a
write that is not 32 bits wide and aligned is refused. -/
def Obligations.RegisterWrites : Prop :=
  ∀ (s : State) (offset size : Nat) (data : Word) (rest : List HostMove),
    s.pending = .regWrite offset size data :: rest →
    (size ≠ 4 ∨ offset % 4 ≠ 0 → step s = .refused .unalignedRegisterAccess) ∧
    (size = 4 → offset % 4 = 0 → offset ≠ 0 →
      (s.busy = true ∨ (offset ≠ 0x04 ∧ offset ≠ 0x08) → step s = .next { s with pending := rest }) ∧
      (s.busy = false → offset = 0x04 → step s = .next { s with pending := rest, hcrcCheck := data.setWidth 1 }) ∧
      (s.busy = false → offset = 0x08 → step s = .next { s with pending := rest, inLen := data }))

/-- Host access to the memories outside a run (R239), and what is refused while BUSY (R73). -/
def Obligations.HostMemoryAccess : Prop :=
  ∀ (s : State) (a : Nat) (b : Byte) (rest : List HostMove),
    (s.pending = .readIn a :: rest → a < 2 ^ 32 →
      step s = .next { s with pending := rest, hostData := (inByte s a).setWidth 32 }) ∧
    (s.pending = .writeIn a b :: rest →
      (s.busy = true → step s = .refused .hostTouchesMemoryWhileBusy) ∧
      (s.busy = false → a < 2 ^ 32 → ∃ t, step s = .next t ∧ inByte t a = b ∧ (∀ x, x ≠ a → inByte t x = inByte s x) ∧
        t = { s with pending := rest, inMem := t.inMem })) ∧
    (s.pending = .readOut a :: rest →
      (s.busy = true → step s = .refused .hostTouchesMemoryWhileBusy) ∧
      (s.busy = false → a < s.outCap.toNat →
        step s = .next { s with pending := rest, hostData := (outByte s a).setWidth 32 })) ∧
    (s.pending = .writeOut a b :: rest →
      (s.busy = true → step s = .refused .hostTouchesMemoryWhileBusy) ∧
      (s.busy = false → a < s.outCap.toNat →
        ∃ t, step s = .next t ∧ outByte t a = b ∧ (∀ x, x ≠ a → outByte t x = outByte s x) ∧
          t = { s with pending := rest, outMem := t.outMem }))

/-- Results stay until the next START or reset (R35, R237, R269): while not BUSY, a host move that is neither changes no
result register, and the core has no step of its own. -/
def Obligations.ResultsStayUntilStart : Prop :=
  ∀ s : State, s.busy = false →
    (s.pending = [] → step s = .fault .noStep) ∧
    ∀ m rest t, s.pending = m :: rest → m ≠ .hardReset →
      (∀ data, data.getLsbD 0 = true → m ≠ .regWrite 0 4 data) → step s = .next t →
      t = { s with pending := t.pending, hostData := t.hostData, hcrcCheck := t.hcrcCheck, inLen := t.inLen,
                   inMem := t.inMem, outMem := t.outMem }

/-- Hardware reset at any time (R48, R280): every register at its reset value; `IN` untouched, and `OUT` too outside a
run. The arrays and, after a reset during a run, `OUT` are free (logs 3 and 4), so nothing is said of them. -/
def Obligations.HardwareReset : Prop :=
  ∀ (s : State) (rest : List HostMove), s.pending = .hardReset :: rest →
    ∃ t, step s = .next t ∧
      t = { State.reset with
            clLen := t.clLen, flat := t.flat, llLen := t.llLen, dLen := t.dLen, inMem := s.inMem, outMem := t.outMem,
            outCap := s.outCap, pending := rest, hostData := s.hostData, draws := t.draws, outEpoch := t.outEpoch } ∧
      t.clLen.length = 19 ∧ t.flat.length = 318 ∧ t.llLen.length = 288 ∧ t.dLen.length = 32 ∧
      (s.busy = false → ∀ a, outByte t a = outByte s a)

/-- The register values after reset (R48, R281). -/
def Obligations.ResetRegisterValues : Prop :=
  State.reset.phase = .idle ∧ State.reset.bytePos = 0 ∧ State.reset.bitOff = 0 ∧ State.reset.bfinal = 0 ∧
    State.reset.btype = 0 ∧ State.reset.hlit = 0 ∧ State.reset.hdist = 0 ∧ State.reset.hclen = 0 ∧
    State.reset.idx = 0 ∧ State.reset.sRem = 0 ∧ State.reset.mLen = 0 ∧ State.reset.mDist = 0 ∧
    State.reset.outPos = 0 ∧ State.reset.crc = 0 ∧ State.reset.hcrcCheck = 0 ∧ State.reset.inLen = 0 ∧
    State.reset.trailing = 0 ∧ State.reset.err = 0 ∧ statusWord State.reset = 0 ∧
    State.reset.hdr = { flg := 0, mtime := 0, xfl := 0, os := 0, extraOff := 0, extraLen := 0, nameOff := 0,
                        nameLen := 0, commentOff := 0, commentLen := 0, hcrc := 0 } ∧
    State.reset.trl = { crc32 := 0, isize := 0 }
end

