-- ==== Sys2Proof/Laws/State.lean ====
section
/-! SUPPORT. One lemma per field for each named update of State, true by rfl, so that no later proof unfolds a record
update. -/

namespace Sys2Proof.Machine

section setPhaseFields
variable (p : Phase) (s : State)

@[simp] theorem setPhase_phase : (setPhase p s).phase = p := rfl
@[simp] theorem setPhase_bytePos : (setPhase p s).bytePos = s.bytePos := rfl
@[simp] theorem setPhase_bitOff : (setPhase p s).bitOff = s.bitOff := rfl
@[simp] theorem setPhase_bfinal : (setPhase p s).bfinal = s.bfinal := rfl
@[simp] theorem setPhase_btype : (setPhase p s).btype = s.btype := rfl
@[simp] theorem setPhase_hlit : (setPhase p s).hlit = s.hlit := rfl
@[simp] theorem setPhase_hdist : (setPhase p s).hdist = s.hdist := rfl
@[simp] theorem setPhase_hclen : (setPhase p s).hclen = s.hclen := rfl
@[simp] theorem setPhase_idx : (setPhase p s).idx = s.idx := rfl
@[simp] theorem setPhase_sRem : (setPhase p s).sRem = s.sRem := rfl
@[simp] theorem setPhase_mLen : (setPhase p s).mLen = s.mLen := rfl
@[simp] theorem setPhase_mDist : (setPhase p s).mDist = s.mDist := rfl
@[simp] theorem setPhase_outPos : (setPhase p s).outPos = s.outPos := rfl
@[simp] theorem setPhase_crc : (setPhase p s).crc = s.crc := rfl
@[simp] theorem setPhase_hcrcCheck : (setPhase p s).hcrcCheck = s.hcrcCheck := rfl
@[simp] theorem setPhase_inLen : (setPhase p s).inLen = s.inLen := rfl
@[simp] theorem setPhase_trailing : (setPhase p s).trailing = s.trailing := rfl
@[simp] theorem setPhase_err : (setPhase p s).err = s.err := rfl
@[simp] theorem setPhase_hdr : (setPhase p s).hdr = s.hdr := rfl
@[simp] theorem setPhase_trl : (setPhase p s).trl = s.trl := rfl
@[simp] theorem setPhase_clLen : (setPhase p s).clLen = s.clLen := rfl
@[simp] theorem setPhase_flat : (setPhase p s).flat = s.flat := rfl
@[simp] theorem setPhase_llLen : (setPhase p s).llLen = s.llLen := rfl
@[simp] theorem setPhase_dLen : (setPhase p s).dLen = s.dLen := rfl
@[simp] theorem setPhase_inMem : (setPhase p s).inMem = s.inMem := rfl
@[simp] theorem setPhase_outMem : (setPhase p s).outMem = s.outMem := rfl
@[simp] theorem setPhase_outCap : (setPhase p s).outCap = s.outCap := rfl
@[simp] theorem setPhase_pending : (setPhase p s).pending = s.pending := rfl
@[simp] theorem setPhase_hostData : (setPhase p s).hostData = s.hostData := rfl
@[simp] theorem setPhase_draws : (setPhase p s).draws = s.draws := rfl
@[simp] theorem setPhase_outEpoch : (setPhase p s).outEpoch = s.outEpoch := rfl

end setPhaseFields

section takeTrapFields
variable (e : Trap) (s : State)

@[simp] theorem takeTrap_phase : (takeTrap e s).phase = .error := rfl
@[simp] theorem takeTrap_bytePos : (takeTrap e s).bytePos = s.bytePos := rfl
@[simp] theorem takeTrap_bitOff : (takeTrap e s).bitOff = s.bitOff := rfl
@[simp] theorem takeTrap_bfinal : (takeTrap e s).bfinal = s.bfinal := rfl
@[simp] theorem takeTrap_btype : (takeTrap e s).btype = s.btype := rfl
@[simp] theorem takeTrap_hlit : (takeTrap e s).hlit = s.hlit := rfl
@[simp] theorem takeTrap_hdist : (takeTrap e s).hdist = s.hdist := rfl
@[simp] theorem takeTrap_hclen : (takeTrap e s).hclen = s.hclen := rfl
@[simp] theorem takeTrap_idx : (takeTrap e s).idx = s.idx := rfl
@[simp] theorem takeTrap_sRem : (takeTrap e s).sRem = s.sRem := rfl
@[simp] theorem takeTrap_mLen : (takeTrap e s).mLen = s.mLen := rfl
@[simp] theorem takeTrap_mDist : (takeTrap e s).mDist = s.mDist := rfl
@[simp] theorem takeTrap_outPos : (takeTrap e s).outPos = s.outPos := rfl
@[simp] theorem takeTrap_crc : (takeTrap e s).crc = s.crc := rfl
@[simp] theorem takeTrap_hcrcCheck : (takeTrap e s).hcrcCheck = s.hcrcCheck := rfl
@[simp] theorem takeTrap_inLen : (takeTrap e s).inLen = s.inLen := rfl
@[simp] theorem takeTrap_trailing : (takeTrap e s).trailing = s.trailing := rfl
@[simp] theorem takeTrap_err : (takeTrap e s).err = trapCode e := rfl
@[simp] theorem takeTrap_hdr : (takeTrap e s).hdr = s.hdr := rfl
@[simp] theorem takeTrap_trl : (takeTrap e s).trl = s.trl := rfl
@[simp] theorem takeTrap_clLen : (takeTrap e s).clLen = s.clLen := rfl
@[simp] theorem takeTrap_flat : (takeTrap e s).flat = s.flat := rfl
@[simp] theorem takeTrap_llLen : (takeTrap e s).llLen = s.llLen := rfl
@[simp] theorem takeTrap_dLen : (takeTrap e s).dLen = s.dLen := rfl
@[simp] theorem takeTrap_inMem : (takeTrap e s).inMem = s.inMem := rfl
@[simp] theorem takeTrap_outMem : (takeTrap e s).outMem = s.outMem := rfl
@[simp] theorem takeTrap_outCap : (takeTrap e s).outCap = s.outCap := rfl
@[simp] theorem takeTrap_pending : (takeTrap e s).pending = s.pending := rfl
@[simp] theorem takeTrap_hostData : (takeTrap e s).hostData = s.hostData := rfl
@[simp] theorem takeTrap_draws : (takeTrap e s).draws = s.draws := rfl
@[simp] theorem takeTrap_outEpoch : (takeTrap e s).outEpoch = s.outEpoch := rfl

end takeTrapFields

section cursorToFields
variable (k : Nat) (s : State)

@[simp] theorem cursorTo_phase : (cursorTo k s).phase = s.phase := rfl
@[simp] theorem cursorTo_bytePos : (cursorTo k s).bytePos = BitVec.ofNat 32 (k / 8) := rfl
@[simp] theorem cursorTo_bitOff : (cursorTo k s).bitOff = BitVec.ofNat 3 (k % 8) := rfl
@[simp] theorem cursorTo_bfinal : (cursorTo k s).bfinal = s.bfinal := rfl
@[simp] theorem cursorTo_btype : (cursorTo k s).btype = s.btype := rfl
@[simp] theorem cursorTo_hlit : (cursorTo k s).hlit = s.hlit := rfl
@[simp] theorem cursorTo_hdist : (cursorTo k s).hdist = s.hdist := rfl
@[simp] theorem cursorTo_hclen : (cursorTo k s).hclen = s.hclen := rfl
@[simp] theorem cursorTo_idx : (cursorTo k s).idx = s.idx := rfl
@[simp] theorem cursorTo_sRem : (cursorTo k s).sRem = s.sRem := rfl
@[simp] theorem cursorTo_mLen : (cursorTo k s).mLen = s.mLen := rfl
@[simp] theorem cursorTo_mDist : (cursorTo k s).mDist = s.mDist := rfl
@[simp] theorem cursorTo_outPos : (cursorTo k s).outPos = s.outPos := rfl
@[simp] theorem cursorTo_crc : (cursorTo k s).crc = s.crc := rfl
@[simp] theorem cursorTo_hcrcCheck : (cursorTo k s).hcrcCheck = s.hcrcCheck := rfl
@[simp] theorem cursorTo_inLen : (cursorTo k s).inLen = s.inLen := rfl
@[simp] theorem cursorTo_trailing : (cursorTo k s).trailing = s.trailing := rfl
@[simp] theorem cursorTo_err : (cursorTo k s).err = s.err := rfl
@[simp] theorem cursorTo_hdr : (cursorTo k s).hdr = s.hdr := rfl
@[simp] theorem cursorTo_trl : (cursorTo k s).trl = s.trl := rfl
@[simp] theorem cursorTo_clLen : (cursorTo k s).clLen = s.clLen := rfl
@[simp] theorem cursorTo_flat : (cursorTo k s).flat = s.flat := rfl
@[simp] theorem cursorTo_llLen : (cursorTo k s).llLen = s.llLen := rfl
@[simp] theorem cursorTo_dLen : (cursorTo k s).dLen = s.dLen := rfl
@[simp] theorem cursorTo_inMem : (cursorTo k s).inMem = s.inMem := rfl
@[simp] theorem cursorTo_outMem : (cursorTo k s).outMem = s.outMem := rfl
@[simp] theorem cursorTo_outCap : (cursorTo k s).outCap = s.outCap := rfl
@[simp] theorem cursorTo_pending : (cursorTo k s).pending = s.pending := rfl
@[simp] theorem cursorTo_hostData : (cursorTo k s).hostData = s.hostData := rfl
@[simp] theorem cursorTo_draws : (cursorTo k s).draws = s.draws := rfl
@[simp] theorem cursorTo_outEpoch : (cursorTo k s).outEpoch = s.outEpoch := rfl

end cursorToFields

section emittedFields
variable (b : Byte) (s : State)

@[simp] theorem emitted_phase : (emitted b s).phase = s.phase := rfl
@[simp] theorem emitted_bytePos : (emitted b s).bytePos = s.bytePos := rfl
@[simp] theorem emitted_bitOff : (emitted b s).bitOff = s.bitOff := rfl
@[simp] theorem emitted_bfinal : (emitted b s).bfinal = s.bfinal := rfl
@[simp] theorem emitted_btype : (emitted b s).btype = s.btype := rfl
@[simp] theorem emitted_hlit : (emitted b s).hlit = s.hlit := rfl
@[simp] theorem emitted_hdist : (emitted b s).hdist = s.hdist := rfl
@[simp] theorem emitted_hclen : (emitted b s).hclen = s.hclen := rfl
@[simp] theorem emitted_idx : (emitted b s).idx = s.idx := rfl
@[simp] theorem emitted_sRem : (emitted b s).sRem = s.sRem := rfl
@[simp] theorem emitted_mLen : (emitted b s).mLen = s.mLen := rfl
@[simp] theorem emitted_mDist : (emitted b s).mDist = s.mDist := rfl
@[simp] theorem emitted_outPos : (emitted b s).outPos = s.outPos + 1 := rfl
@[simp] theorem emitted_crc : (emitted b s).crc = crcUpdate s.crc b := rfl
@[simp] theorem emitted_hcrcCheck : (emitted b s).hcrcCheck = s.hcrcCheck := rfl
@[simp] theorem emitted_inLen : (emitted b s).inLen = s.inLen := rfl
@[simp] theorem emitted_trailing : (emitted b s).trailing = s.trailing := rfl
@[simp] theorem emitted_err : (emitted b s).err = s.err := rfl
@[simp] theorem emitted_hdr : (emitted b s).hdr = s.hdr := rfl
@[simp] theorem emitted_trl : (emitted b s).trl = s.trl := rfl
@[simp] theorem emitted_clLen : (emitted b s).clLen = s.clLen := rfl
@[simp] theorem emitted_flat : (emitted b s).flat = s.flat := rfl
@[simp] theorem emitted_llLen : (emitted b s).llLen = s.llLen := rfl
@[simp] theorem emitted_dLen : (emitted b s).dLen = s.dLen := rfl
@[simp] theorem emitted_inMem : (emitted b s).inMem = s.inMem := rfl
@[simp] theorem emitted_outMem : (emitted b s).outMem = memWrite s.outMem s.outPos.toNat b := rfl
@[simp] theorem emitted_outCap : (emitted b s).outCap = s.outCap := rfl
@[simp] theorem emitted_pending : (emitted b s).pending = s.pending := rfl
@[simp] theorem emitted_hostData : (emitted b s).hostData = s.hostData := rfl
@[simp] theorem emitted_draws : (emitted b s).draws = s.draws := rfl
@[simp] theorem emitted_outEpoch : (emitted b s).outEpoch = s.outEpoch := rfl

end emittedFields

section appendFlatFields
variable (v : BitVec 4) (n : Nat) (s : State)

@[simp] theorem appendFlat_phase : (appendFlat v n s).phase = s.phase := rfl
@[simp] theorem appendFlat_bytePos : (appendFlat v n s).bytePos = s.bytePos := rfl
@[simp] theorem appendFlat_bitOff : (appendFlat v n s).bitOff = s.bitOff := rfl
@[simp] theorem appendFlat_bfinal : (appendFlat v n s).bfinal = s.bfinal := rfl
@[simp] theorem appendFlat_btype : (appendFlat v n s).btype = s.btype := rfl
@[simp] theorem appendFlat_hlit : (appendFlat v n s).hlit = s.hlit := rfl
@[simp] theorem appendFlat_hdist : (appendFlat v n s).hdist = s.hdist := rfl
@[simp] theorem appendFlat_hclen : (appendFlat v n s).hclen = s.hclen := rfl
@[simp] theorem appendFlat_idx : (appendFlat v n s).idx = BitVec.ofNat 9 (s.idx.toNat + n) := rfl
@[simp] theorem appendFlat_sRem : (appendFlat v n s).sRem = s.sRem := rfl
@[simp] theorem appendFlat_mLen : (appendFlat v n s).mLen = s.mLen := rfl
@[simp] theorem appendFlat_mDist : (appendFlat v n s).mDist = s.mDist := rfl
@[simp] theorem appendFlat_outPos : (appendFlat v n s).outPos = s.outPos := rfl
@[simp] theorem appendFlat_crc : (appendFlat v n s).crc = s.crc := rfl
@[simp] theorem appendFlat_hcrcCheck : (appendFlat v n s).hcrcCheck = s.hcrcCheck := rfl
@[simp] theorem appendFlat_inLen : (appendFlat v n s).inLen = s.inLen := rfl
@[simp] theorem appendFlat_trailing : (appendFlat v n s).trailing = s.trailing := rfl
@[simp] theorem appendFlat_err : (appendFlat v n s).err = s.err := rfl
@[simp] theorem appendFlat_hdr : (appendFlat v n s).hdr = s.hdr := rfl
@[simp] theorem appendFlat_trl : (appendFlat v n s).trl = s.trl := rfl
@[simp] theorem appendFlat_clLen : (appendFlat v n s).clLen = s.clLen := rfl
@[simp] theorem appendFlat_flat : (appendFlat v n s).flat = fillFlat v s.idx.toNat n s.flat := rfl
@[simp] theorem appendFlat_llLen : (appendFlat v n s).llLen = s.llLen := rfl
@[simp] theorem appendFlat_dLen : (appendFlat v n s).dLen = s.dLen := rfl
@[simp] theorem appendFlat_inMem : (appendFlat v n s).inMem = s.inMem := rfl
@[simp] theorem appendFlat_outMem : (appendFlat v n s).outMem = s.outMem := rfl
@[simp] theorem appendFlat_outCap : (appendFlat v n s).outCap = s.outCap := rfl
@[simp] theorem appendFlat_pending : (appendFlat v n s).pending = s.pending := rfl
@[simp] theorem appendFlat_hostData : (appendFlat v n s).hostData = s.hostData := rfl
@[simp] theorem appendFlat_draws : (appendFlat v n s).draws = s.draws := rfl
@[simp] theorem appendFlat_outEpoch : (appendFlat v n s).outEpoch = s.outEpoch := rfl

end appendFlatFields

section startedFields
variable (s : State)

@[simp] theorem started_phase : (started s).phase = .hdrFixed := rfl
@[simp] theorem started_bytePos : (started s).bytePos = 0 := rfl
@[simp] theorem started_bitOff : (started s).bitOff = 0 := rfl
@[simp] theorem started_bfinal : (started s).bfinal = 0 := rfl
@[simp] theorem started_btype : (started s).btype = 0 := rfl
@[simp] theorem started_hlit : (started s).hlit = 0 := rfl
@[simp] theorem started_hdist : (started s).hdist = 0 := rfl
@[simp] theorem started_hclen : (started s).hclen = 0 := rfl
@[simp] theorem started_idx : (started s).idx = 0 := rfl
@[simp] theorem started_sRem : (started s).sRem = 0 := rfl
@[simp] theorem started_mLen : (started s).mLen = 0 := rfl
@[simp] theorem started_mDist : (started s).mDist = 0 := rfl
@[simp] theorem started_outPos : (started s).outPos = 0 := rfl
@[simp] theorem started_crc : (started s).crc = 0 := rfl
@[simp] theorem started_hcrcCheck : (started s).hcrcCheck = s.hcrcCheck := rfl
@[simp] theorem started_inLen : (started s).inLen = s.inLen := rfl
@[simp] theorem started_trailing : (started s).trailing = 0 := rfl
@[simp] theorem started_err : (started s).err = 0 := rfl
@[simp] theorem started_hdr : (started s).hdr = HeaderRecord.zero := rfl
@[simp] theorem started_trl : (started s).trl = TrailerRecord.zero := rfl
@[simp] theorem started_clLen : (started s).clLen = s.clLen := rfl
@[simp] theorem started_flat : (started s).flat = s.flat := rfl
@[simp] theorem started_llLen : (started s).llLen = s.llLen := rfl
@[simp] theorem started_dLen : (started s).dLen = s.dLen := rfl
@[simp] theorem started_inMem : (started s).inMem = s.inMem := rfl
@[simp] theorem started_outMem : (started s).outMem = s.outMem := rfl
@[simp] theorem started_outCap : (started s).outCap = s.outCap := rfl
@[simp] theorem started_pending : (started s).pending = s.pending := rfl
@[simp] theorem started_hostData : (started s).hostData = s.hostData := rfl
@[simp] theorem started_draws : (started s).draws = s.draws := rfl
@[simp] theorem started_outEpoch : (started s).outEpoch = s.outEpoch := rfl

end startedFields

end Sys2Proof.Machine
end

