-- ==== Sys2Proof/Laws/Memory.lean ====
section
/-! SUPPORT. The laws of the byte memories: a read after a write, every other address left alone, and the canonical
form, which every memory operation keeps. -/

namespace Sys2Proof.Machine

/-- Reading after a write (20_memory.md R69). -/
theorem memLookup_memWrite (m : Memory) (a : Nat) (b : Byte) (x : Nat) :
    memLookup (memWrite m a b) x = if x = a then some b else memLookup m x := by
  induction m with
  | nil => simp only [memWrite, memLookup, eq_comm (a := a)]
  | cons p rest ih =>
    obtain ⟨c, d⟩ := p
    simp only [memWrite]
    split
    · simp only [memLookup, eq_comm (a := a)]
    · split
      · rename_i h1 h2
        subst h2
        by_cases h : c = x
        · simp [memLookup, h]
        · simp [memLookup, h, Ne.symm h]
      · rename_i h1 h2
        by_cases h : c = x
        · subst h
          simp [memLookup, h2]
        · simp [memLookup, h, ih]

@[simp] theorem memLookup_memWrite_self (m : Memory) (a : Nat) (b : Byte) : memLookup (memWrite m a b) a = some b := by
  simp [memLookup_memWrite]

theorem memLookup_memWrite_ne {m : Memory} {a x : Nat} {b : Byte} (h : x ≠ a) :
    memLookup (memWrite m a b) x = memLookup m x := by
  simp [memLookup_memWrite, h]

/-- Every address listed after a write is the written one or was listed before. -/
theorem mem_memWrite {m : Memory} {a : Nat} {b : Byte} {p : Host.Cell} (h : p ∈ memWrite m a b) :
    p = (a, b) ∨ p ∈ m := by
  induction m with
  | nil => simpa [memWrite] using h
  | cons q rest ih =>
    obtain ⟨c, d⟩ := q
    simp only [memWrite] at h
    split at h
    · simpa using h
    · split at h
      · rcases List.mem_cons.1 h with h | h
        · exact .inl h
        · exact .inr (List.mem_cons_of_mem _ h)
      · rcases List.mem_cons.1 h with h | h
        · exact .inr (h ▸ List.mem_cons_self)
        · exact (ih h).imp id (List.mem_cons_of_mem _)

/-- A write keeps the canonical form. -/
theorem memWrite_wf {m : Memory} (h : Memory.wf m) (a : Nat) (b : Byte) : Memory.wf (memWrite m a b) := by
  induction m with
  | nil => simp [memWrite, Memory.wf]
  | cons p rest ih =>
    obtain ⟨c, d⟩ := p
    obtain ⟨hhead, htail⟩ := List.pairwise_cons.1 h
    simp only [memWrite]
    split
    · rename_i hlt
      refine List.pairwise_cons.2 ⟨fun q hq => ?_, h⟩
      rcases List.mem_cons.1 hq with hq | hq
      · simpa [hq] using hlt
      · exact Nat.lt_trans hlt (hhead q hq)
    · split
      · rename_i heq
        subst heq
        exact List.pairwise_cons.2 ⟨fun q hq => hhead q hq, htail⟩
      · rename_i hge hne
        refine List.pairwise_cons.2 ⟨fun q hq => ?_, ih htail⟩
        rcases mem_memWrite hq with hq | hq
        · subst hq; simp only; omega
        · exact hhead q hq

/-- The memories of the state after reset are in canonical form. -/
theorem reset_memories_wf : Memory.wf State.reset.inMem ∧ Memory.wf State.reset.outMem := by
  simp [State.reset, Memory.wf]

/-- Two canonical memories that read alike are equal: equal memories are equal data. -/
theorem memory_ext {m n : Memory} (hm : Memory.wf m) (hn : Memory.wf n)
    (h : ∀ x, memLookup m x = memLookup n x) : m = n := by
  induction m generalizing n with
  | nil =>
    cases n with
    | nil => rfl
    | cons q rest => simpa [memLookup] using h q.1
  | cons p rest ih =>
    cases n with
    | nil => simpa [memLookup] using h p.1
    | cons q rest' =>
      obtain ⟨a, b⟩ := p
      obtain ⟨c, d⟩ := q
      obtain ⟨hp, hrest⟩ := List.pairwise_cons.1 hm
      obtain ⟨hq, hrest'⟩ := List.pairwise_cons.1 hn
      have absent : ∀ {l : Memory} {x : Nat}, (∀ r ∈ l, x < r.1) → memLookup l x = none := by
        intro l x hl
        induction l with
        | nil => rfl
        | cons r l' ih' =>
          have hne : r.1 ≠ x := Nat.ne_of_gt (hl r List.mem_cons_self)
          simp [memLookup, hne, ih' fun r' hr' => hl r' (List.mem_cons_of_mem _ hr')]
      have hac : a = c := by
        rcases Nat.lt_trichotomy a c with hlt | heq | hgt
        · have h1 := h a
          have hn' : memLookup rest' a = none := absent fun r hr => Nat.lt_trans hlt (hq r hr)
          simp [memLookup, Nat.ne_of_gt hlt, hn'] at h1
        · exact heq
        · have h1 := h c
          have hn' : memLookup rest c = none := absent fun r hr => Nat.lt_trans hgt (hp r hr)
          simp [memLookup, Nat.ne_of_gt hgt, hn'] at h1
      subst hac
      have hbd : b = d := by simpa [memLookup] using h a
      subst hbd
      congr 1
      refine ih hrest hrest' fun x => ?_
      by_cases hx : a = x
      · subst hx
        rw [absent hp, absent hq]
      · simpa [memLookup, hx] using h x

/-- Reading `OUT` after `emit` has written (R183). -/
theorem outByte_emitted (b : Byte) (s : State) (a : Nat) :
    outByte (emitted b s) a = if a = s.outPos.toNat then b else outByte s a := by
  by_cases h : a = s.outPos.toNat <;> simp [outByte, memLookup_memWrite, h]

/-- `inByte` depends on `IN` alone. -/
theorem inByte_congr {s t : State} (h : t.inMem = s.inMem) (a : Nat) : inByte t a = inByte s a := by
  simp [inByte, h]

/-- `outByte` depends on `OUT` alone. -/
theorem outByte_congr {s t : State} (h : t.outMem = s.outMem) (h' : t.outEpoch = s.outEpoch) (a : Nat) :
    outByte t a = outByte s a := by
  simp [outByte, h, h']

theorem inBytes_congr {s t : State} (h : t.inMem = s.inMem) (a n : Nat) : inBytes t a n = inBytes s a n := by
  induction n generalizing a with
  | zero => rfl
  | succ n ih => simp [inBytes, inByte_congr h, ih]

theorem outBytes_congr {s t : State} {a n : Nat} (h : ∀ x, a ≤ x → x < a + n → outByte t x = outByte s x) :
    outBytes t a n = outBytes s a n := by
  induction n generalizing a with
  | zero => rfl
  | succ n ih =>
    simp only [outBytes, List.cons.injEq]
    exact ⟨h a (Nat.le_refl a) (by omega), ih fun x h1 h2 => h x (by omega) (by omega)⟩

/-- One more byte at the end. -/
theorem outBytes_succ (s : State) (a n : Nat) : outBytes s a (n + 1) = outBytes s a n ++ [outByte s (a + n)] := by
  induction n generalizing a with
  | zero => simp [outBytes]
  | succ n ih =>
    rw [outBytes, ih (a + 1), outBytes, Nat.add_right_comm]
    simp [Nat.add_assoc]

end Sys2Proof.Machine
end

