-- ==== Sys2Proof/Laws/Ops.lean ====
section
/-! SUPPORT. What the shared operations do, said once: the calculus of operations, the reader primitives, emit,
taking a trap. Each operation has an inversion lemma: if it ends `.ok`, or `.error`, then so. -/

namespace Sys2Proof.Machine

/-! ### The calculus of operations -/

section calculus
variable {α β : Type} (s t : State)

@[simp] theorem bind_apply (x : Op α) (f : α → Op β) :
    (x >>= f) s = match x s with
      | .ok a u => f a u
      | .error e u => .error e u := by
  change EStateM.bind x f s = _
  unfold EStateM.bind
  cases x s <;> rfl

@[simp] theorem map_apply (f : α → β) (x : Op α) :
    (f <$> x) s = match x s with
      | .ok a u => .ok (f a) u
      | .error e u => .error e u := by
  change EStateM.map f x s = _
  unfold EStateM.map
  cases x s <;> rfl

@[simp] theorem pure_apply (a : α) : (pure a : Op α) s = .ok a s := rfl

@[simp] theorem getState_apply : getState s = .ok s s := rfl

@[simp] theorem update_apply (f : State → State) : update f s = .ok () (f s) := rfl

@[simp] theorem raise_apply (e : Trap) : (raise e : Op α) s = .error (.trap e) s := rfl

@[simp] theorem stopFault_apply (f : Fault) : (stopFault f : Op α) s = .error (.fault f) s := rfl

@[simp] theorem stopRefuse_apply (r : Refusal) : (stopRefuse r : Op α) s = .error (.refuse r) s := rfl

@[simp] theorem require_true (e : Trap) : require true e s = .ok () s := rfl

@[simp] theorem require_false (e : Trap) : require false e s = .error (.trap e) s := rfl

theorem require_apply (c : Bool) (e : Trap) :
    require c e s = if c then .ok () s else .error (.trap e) s := rfl

@[simp] theorem ite_apply_op (c : Prop) [Decidable c] (x y : Op α) : (if c then x else y) s = if c then x s else y s := by
  split <;> rfl

variable {s t}

/-- An operation that ends `.ok` ends the step in that state. -/
theorem finish_ok {op : Op Unit} (h : op s = .ok () t) : finish op s = .next t := by simp [finish, h]

/-- An operation that raises ends the step with the trap taken (R251). -/
theorem finish_trap {op : Op Unit} {e : Trap} (h : op s = .error (.trap e) t) : finish op s = .next (takeTrap e t) := by
  simp [finish, h]

/-- A sequence ends `.ok` through both parts. -/
theorem bind_ok {x : Op α} {f : α → Op β} {b : β} (h : (x >>= f) s = .ok b t) :
    ∃ a u, x s = .ok a u ∧ f a u = .ok b t := by
  rw [bind_apply] at h
  split at h
  · exact ⟨_, _, ‹_›, h⟩
  · cases h

/-- A sequence ends early in its first part or in its second. -/
theorem bind_error {x : Op α} {f : α → Op β} {e : Stop} (h : (x >>= f) s = .error e t) :
    x s = .error e t ∨ ∃ a u, x s = .ok a u ∧ f a u = .error e t := by
  rw [bind_apply] at h
  split at h
  · exact .inr ⟨_, _, ‹_›, h⟩
  · cases h; exact .inl ‹_›

/-- How a step ends in a next state: the operation went through, or it raised and the trap was taken. -/
theorem finish_next {op : Op Unit} (h : finish op s = .next t) :
    op s = .ok () t ∨ ∃ e u, op s = .error (.trap e) u ∧ t = takeTrap e u := by
  unfold finish at h
  split at h
  · cases h; exact .inl ‹_›
  · cases h; exact .inr ⟨_, _, ‹_›, rfl⟩
  · cases h
  · cases h

theorem require_ok {c : Bool} {e : Trap} {a : Unit} (h : require c e s = .ok a t) : c = true ∧ t = s := by
  cases c <;> simp_all

theorem require_error {c : Bool} {e : Trap} {x : Stop} (h : require c e s = .error x t) :
    c = false ∧ x = .trap e ∧ t = s := by
  cases c <;> simp_all

end calculus

/-! ### The cursor -/

section cursor
variable (s : State) (k n : Nat)

theorem linPos_cursorTo (h : k ≤ 8 * s.inLen.toNat) : linPos (cursorTo k s) = k := by
  have := s.inLen.isLt
  simp [linPos]
  omega

@[simp] theorem cursorTo_cursorTo (j : Nat) : cursorTo j (cursorTo k s) = cursorTo j s := rfl

@[simp] theorem cursorTo_linPos : cursorTo (linPos s) s = s := by
  have h1 := s.bytePos.isLt
  have h2 := s.bitOff.isLt
  have h3 : (8 * s.bytePos.toNat + s.bitOff.toNat) / 8 = s.bytePos.toNat := by omega
  have h4 : (8 * s.bytePos.toNat + s.bitOff.toNat) % 8 = s.bitOff.toNat := by omega
  simp [cursorTo, linPos, h3, h4]

@[simp] theorem inBit_cursorTo (j : Nat) : inBit (cursorTo k s) j = inBit s j := rfl

@[simp] theorem inField_cursorTo (j : Nat) : inField (cursorTo k s) j n = inField s j n := by
  induction n generalizing j with
  | zero => rfl
  | succ n ih => simp [inField, ih]

theorem inField_lt : inField s k n < 2 ^ n := by
  induction n generalizing k with
  | zero => simp [inField]
  | succ n ih =>
    have h1 := ih (k + 1)
    have h2 : (inBit s k).toNat ≤ 1 := Bool.toNat_le _
    simp only [inField, Nat.pow_succ]
    omega

/-- Bit `i` of the result of `read_bits(n)` is the (i+1)-th bit consumed (R63). -/
theorem testBit_inField (i : Nat) : (inField s k n).testBit i = (decide (i < n) && inBit s (k + i)) := by
  induction n generalizing k i with
  | zero => simp [inField]
  | succ n ih =>
    cases i with
    | zero => cases h : inBit s k <;> simp [inField, h, Nat.testBit_zero, Nat.add_mod]
    | succ i =>
      have h2 : ((inBit s k).toNat + 2 * inField s (k + 1) n) / 2 = inField s (k + 1) n := by
        have := Bool.toNat_le (inBit s k)
        omega
      rw [inField, Nat.testBit_succ, h2, ih (k + 1) i]
      simp [Nat.add_assoc, Nat.add_comm 1 i]

/-- Two fields in a row. -/
theorem inField_add (m : Nat) : inField s k (m + n) = inField s k m + 2 ^ m * inField s (k + m) n := by
  induction m generalizing k with
  | zero => simp [inField]
  | succ m ih =>
    rw [Nat.add_right_comm, inField, ih (k + 1), inField, Nat.pow_succ, Nat.add_assoc k 1 m, Nat.add_comm 1 m]
    ring

end cursor

/-! ### The reader primitives -/

section reader
variable {s t : State} {n v : Nat} {e : Stop}

theorem pastEnd_iff : pastEnd s n = true ↔ 8 * s.inLen.toNat < linPos s + n := by simp [pastEnd]

/-- `read_bits(n)` with enough input left (R111). -/
theorem readBits_of_le (h : linPos s + n ≤ 8 * s.inLen.toNat) :
    readBits n s = .ok (inField s (linPos s) n) (cursorTo (linPos s + n) s) := by
  simp [readBits, pastEnd, Nat.not_lt.2 h]

/-- `read_bits(n)` past the end raises and moves nothing (R110, R111). -/
theorem readBits_of_lt (h : 8 * s.inLen.toNat < linPos s + n) :
    readBits n s = .error (.trap .unexpectedEof) s := by
  simp [readBits, pastEnd, h]

theorem readBits_ok (h : readBits n s = .ok v t) :
    linPos s + n ≤ 8 * s.inLen.toNat ∧ v = inField s (linPos s) n ∧ t = cursorTo (linPos s + n) s := by
  rcases Nat.lt_or_ge (8 * s.inLen.toNat) (linPos s + n) with hlt | hge
  · simp [readBits_of_lt hlt] at h
  · rw [readBits_of_le hge] at h
    cases h
    exact ⟨hge, rfl, rfl⟩

theorem readBits_error (h : readBits n s = .error e t) :
    8 * s.inLen.toNat < linPos s + n ∧ e = .trap .unexpectedEof ∧ t = s := by
  rcases Nat.lt_or_ge (8 * s.inLen.toNat) (linPos s + n) with hlt | hge
  · rw [readBits_of_lt hlt] at h
    cases h
    exact ⟨hlt, rfl, rfl⟩
  · simp [readBits_of_le hge] at h

/-- `read_bytes_le(k)` with enough input left (R113). -/
theorem readBytesLe_of_le (h : s.bytePos.toNat + n ≤ s.inLen.toNat) :
    readBytesLe n s =
      .ok (inLe s s.bytePos.toNat n) { s with bytePos := BitVec.ofNat 32 (s.bytePos.toNat + n) } := by
  simp [readBytesLe, Nat.not_lt.2 h]

/-- `read_bytes_le(k)` past the end raises and moves nothing (R110, R113). -/
theorem readBytesLe_of_lt (h : s.inLen.toNat < s.bytePos.toNat + n) :
    readBytesLe n s = .error (.trap .unexpectedEof) s := by
  simp [readBytesLe, h]

theorem readBytesLe_ok (h : readBytesLe n s = .ok v t) :
    s.bytePos.toNat + n ≤ s.inLen.toNat ∧ v = inLe s s.bytePos.toNat n ∧
      t = { s with bytePos := BitVec.ofNat 32 (s.bytePos.toNat + n) } := by
  rcases Nat.lt_or_ge s.inLen.toNat (s.bytePos.toNat + n) with hlt | hge
  · simp [readBytesLe_of_lt hlt] at h
  · rw [readBytesLe_of_le hge] at h
    cases h
    exact ⟨hge, rfl, rfl⟩

theorem readBytesLe_error (h : readBytesLe n s = .error e t) :
    s.inLen.toNat < s.bytePos.toNat + n ∧ e = .trap .unexpectedEof ∧ t = s := by
  rcases Nat.lt_or_ge s.inLen.toNat (s.bytePos.toNat + n) with hlt | hge
  · rw [readBytesLe_of_lt hlt] at h
    cases h
    exact ⟨hlt, rfl, rfl⟩
  · simp [readBytesLe_of_le hge] at h

theorem inLe_lt (s : State) (a k : Nat) : inLe s a k < 256 ^ k := by
  induction k generalizing a with
  | zero => simp [inLe]
  | succ k ih =>
    have h1 := ih (a + 1)
    have h2 := (inByte s a).isLt
    simp only [inLe, Nat.pow_succ]
    omega

theorem inLe_congr {s t : State} (h : t.inMem = s.inMem) (a k : Nat) : inLe t a k = inLe s a k := by
  induction k generalizing a with
  | zero => rfl
  | succ k ih => simp [inLe, inByte_congr h, ih]

/-- The position after a byte read, as a number: it does not wrap (R17). -/
theorem bytePos_after (h : s.bytePos.toNat + n ≤ s.inLen.toNat) :
    (BitVec.ofNat 32 (s.bytePos.toNat + n)).toNat = s.bytePos.toNat + n := by
  have := s.inLen.isLt
  simp only [BitVec.toNat_ofNat]
  omega

end reader

/-! ### emit and the window -/

section window
variable {s t : State} {b : Byte} {e : Stop}

/-- `emit` with room left (R183). -/
theorem emit_of_lt (h : s.outPos.toNat < s.outCap.toNat) : emit b s = .ok () (emitted b s) := by
  have hne : s.outPos ≠ s.outCap := fun heq => by simp [heq] at h
  simp [emit, hne, h]

/-- `emit` with `OUT` full raises, and nothing is written (R183). -/
theorem emit_of_full (h : s.outPos = s.outCap) : emit b s = .error (.trap .outputOverflow) s := by
  simp [emit, h]

theorem emit_ok {a : Unit} (h : emit b s = .ok a t) : s.outPos.toNat < s.outCap.toNat ∧ t = emitted b s := by
  unfold emit at h
  split at h
  · cases h
  · split at h
    · cases h; exact ⟨‹_›, rfl⟩
    · cases h

theorem emit_error (h : emit b s = .error e t) :
    t = s ∧ (e = .trap .outputOverflow ∧ s.outPos = s.outCap ∨
      e = .fault .noSuchOutAddress ∧ s.outCap.toNat < s.outPos.toNat) := by
  unfold emit at h
  split at h
  · cases h; exact ⟨rfl, .inl ⟨rfl, ‹_›⟩⟩
  · rename_i hne
    split at h
    · cases h
    · rename_i hnlt
      cases h
      refine ⟨rfl, .inr ⟨rfl, ?_⟩⟩
      have : s.outPos.toNat ≠ s.outCap.toNat := fun h => hne (BitVec.eq_of_toNat_eq h)
      omega

theorem readWindow_of_le (h1 : s.mDist.toNat ≤ s.outPos.toNat)
    (h2 : s.outPos.toNat - s.mDist.toNat < s.outCap.toNat) :
    readWindow s = .ok (outByte s (s.outPos.toNat - s.mDist.toNat)) s := by
  simp [readWindow, h1, h2]

theorem readWindow_ok {v : Byte} (h : readWindow s = .ok v t) :
    t = s ∧ v = outByte s (s.outPos.toNat - s.mDist.toNat) := by
  unfold readWindow at h
  split at h
  · cases h; exact ⟨rfl, rfl⟩
  · cases h

/-- `OUT_POS` after `emit`, as a number: it does not wrap (R17). -/
theorem outPos_emitted (h : s.outPos.toNat < s.outCap.toNat) :
    (emitted b s).outPos.toNat = s.outPos.toNat + 1 := by
  have := s.outCap.isLt
  simp only [emitted_outPos, BitVec.toNat_add]
  simp
  omega

/-- What `emit` appends to the output (R27, R183). -/
theorem outBytes_emitted (h : s.outPos.toNat < s.outCap.toNat) :
    outBytes (emitted b s) 0 (emitted b s).outPos.toNat = outBytes s 0 s.outPos.toNat ++ [b] := by
  rw [outPos_emitted h, outBytes_succ]
  congr 1
  · refine outBytes_congr fun x _ hx => ?_
    rw [outByte_emitted]
    simp [Nat.ne_of_lt (show x < s.outPos.toNat by omega)]
  · simp [outByte_emitted]

/-- The CRC of one byte more (R209). -/
theorem crc32_snoc (l : List Byte) (b : Byte) : crc32 (l ++ [b]) = crcUpdate (crc32 l) b := by
  simp [crc32]

end window

end Sys2Proof.Machine
end

