-- ==== Sys2Proof/Laws/Huffman.lean ====
section
/-! SUPPORT. Canonical codes, the Kraft check and the symbol decoder (spec/41_huffman_tables.md R121, R123, R126, R130):
what each function does, said once. -/

namespace Sys2Proof.Machine

/-! ### Codes -/

section codes
variable {lens : List Nat} {s len code : Nat}

theorem firstCode_succ (lens : List Nat) {n : Nat} (h : 1 ≤ n) :
    firstCode lens (n + 1) = 2 * (firstCode lens n + countLen lens n) := by
  cases n with
  | zero => omega
  | succ n => rw [firstCode, Nat.shiftLeft_eq, Nat.pow_one, Nat.mul_comm]

/-- Codes of a longer length start past every extension of a shorter code. -/
theorem firstCode_ge (lens : List Nat) {a b : Nat} (ha : 1 ≤ a) (hab : a < b) :
    (firstCode lens a + countLen lens a) * 2 ^ (b - a) ≤ firstCode lens b := by
  induction b, hab using Nat.le_induction with
  | base => rw [firstCode_succ lens ha]; simp; omega
  | succ b hb ih =>
    rw [firstCode_succ lens (show 1 ≤ b by omega), show b + 1 - a = b - a + 1 by omega, Nat.pow_succ]
    have := Nat.le_add_right (firstCode lens b) (countLen lens b)
    nlinarith

/-- The walk of R121 answers the first symbol of the length whose code is the given one. -/
theorem findFrom_eq_some {next s₀ : Nat} :
    findFrom len code next s₀ lens = some s ↔
      s₀ ≤ s ∧ lens[s - s₀]? = some len ∧ next + (lens.take (s - s₀)).count len = code := by
  induction lens generalizing next s₀ with
  | nil => simp [findFrom]
  | cons l rest ih =>
    have key : ∀ nx, (s₀ + 1 ≤ s ∧ rest[s - (s₀ + 1)]? = some len ∧ nx + (rest.take (s - (s₀ + 1))).count len = code) ↔
        (s₀ < s ∧ (l :: rest)[s - s₀]? = some len ∧ nx + (rest.take (s - s₀ - 1)).count len = code) := by
      intro nx
      constructor
      · rintro ⟨h1, h2, h3⟩
        refine ⟨h1, ?_, by simpa [Nat.sub_sub] using h3⟩
        rw [show s - s₀ = (s - (s₀ + 1)) + 1 by omega]
        simpa using h2
      · rintro ⟨h1, h2, h3⟩
        rw [show s - s₀ = (s - (s₀ + 1)) + 1 by omega] at h2
        exact ⟨h1, by simpa using h2, by simpa [Nat.sub_sub] using h3⟩
    have htake : s₀ < s → (l :: rest).take (s - s₀) = l :: rest.take (s - s₀ - 1) := by
      intro h
      rw [show s - s₀ = (s - s₀ - 1) + 1 by omega]
      rfl
    unfold findFrom
    by_cases hl : l = len
    · subst hl
      simp only [if_true]
      by_cases hn : next = code
      · subst hn
        simp only [if_true, Option.some.injEq]
        constructor
        · rintro rfl; simp
        · rintro ⟨h1, -, h3⟩
          by_contra hne
          have hlt : s₀ < s := by omega
          rw [htake hlt] at h3
          simp at h3
      · simp only [hn, if_false]
        rw [ih, key]
        constructor
        · rintro ⟨h1, h2, h3⟩
          refine ⟨by omega, h2, ?_⟩
          rw [htake h1]
          simp
          omega
        · rintro ⟨h1, h2, h3⟩
          have hlt : s₀ < s := by
            rcases Nat.lt_or_ge s₀ s with h | h
            · exact h
            · exfalso
              apply hn
              rw [show s - s₀ = 0 by omega] at h3
              simpa using h3
          rw [htake hlt] at h3
          simp at h3
          exact ⟨hlt, h2, by omega⟩
    · simp only [hl, if_false]
      rw [ih, key]
      constructor
      · rintro ⟨h1, h2, h3⟩
        refine ⟨by omega, h2, ?_⟩
        rw [htake h1, List.count_cons_of_ne hl]
        exact h3
      · rintro ⟨h1, h2, h3⟩
        have hlt : s₀ < s := by
          rcases Nat.lt_or_ge s₀ s with h | h
          · exact h
          · exfalso
            rw [show s - s₀ = 0 by omega] at h2
            exact hl (by simpa using h2)
        rw [htake hlt, List.count_cons_of_ne hl] at h3
        exact ⟨hlt, h2, h3⟩

/-- The test of R126, as the rule words it: `LENS[s] == len` and `CODE[s] == code`. -/
theorem findSym_eq_some :
    findSym lens len code = some s ↔ lens[s]? = some len ∧ codeOf lens s = code := by
  unfold findSym
  rw [findFrom_eq_some]
  constructor
  · rintro ⟨-, h2, h3⟩
    exact ⟨h2, by simpa [codeOf, List.getD_eq_getElem?_getD, show lens[s]? = some len from h2] using h3⟩
  · rintro ⟨h2, h3⟩
    exact ⟨Nat.zero_le _, h2, by simpa [codeOf, List.getD_eq_getElem?_getD, h2] using h3⟩

/-- A symbol is found exactly when the code is one of the consecutive codes of its length. -/
theorem findFrom_isSome {next s₀ : Nat} :
    (findFrom len code next s₀ lens).isSome ↔ next ≤ code ∧ code < next + lens.count len := by
  induction lens generalizing next s₀ with
  | nil => simp [findFrom]
  | cons l rest ih =>
    unfold findFrom
    by_cases hl : l = len
    · subst hl
      by_cases hn : next = code
      · subst hn; simp
      · simp only [if_true, hn, if_false, List.count_cons_self]
        rw [ih]
        omega
    · simp only [hl, if_false, List.count_cons_of_ne hl]
      exact ih

theorem findSym_isSome :
    (findSym lens len code).isSome ↔ firstCode lens len ≤ code ∧ code < firstCode lens len + countLen lens len :=
  findFrom_isSome

theorem findSym_eq_none :
    findSym lens len code = none ↔ code < firstCode lens len ∨ firstCode lens len + countLen lens len ≤ code := by
  rw [← Option.not_isSome_iff_eq_none, findSym_isSome]
  omega

/-- The code of a symbol is one of the consecutive codes of its length. -/
theorem codeOf_range (h : lens[s]? = some len) :
    firstCode lens len ≤ codeOf lens s ∧ codeOf lens s < firstCode lens len + countLen lens len :=
  findSym_isSome.1 (by rw [(findSym_eq_some (code := codeOf lens s)).2 ⟨h, rfl⟩]; rfl)

/-- Two symbols of one length have different codes (R126). -/
theorem codeOf_inj {s' : Nat} (h : lens[s]? = some len) (h' : lens[s']? = some len)
    (hc : codeOf lens s = codeOf lens s') : s = s' := by
  have h1 : findSym lens len (codeOf lens s) = some s := findSym_eq_some.2 ⟨h, rfl⟩
  have h2 : findSym lens len (codeOf lens s) = some s' := findSym_eq_some.2 ⟨h', hc.symm⟩
  exact Option.some.inj (h1.symm.trans h2)

end codes

/-! ### The Kraft check -/

section kraft
variable {lens : List Nat}

/-- The invariant of `kraft_check`'s loop: `first[len] + count[len] + left = 2^len` (R123). -/
theorem kraftLoop_spec {left len n : Nat} (hlen : 1 ≤ len)
    (hleft : firstCode lens len + 2 * left = 2 ^ len) :
    (kraftLoop lens left len n ≠ .over →
      ∀ j, len ≤ j → j < len + n → firstCode lens j + countLen lens j ≤ 2 ^ j) ∧
    (kraftLoop lens left len n = .ok → firstCode lens (len + n) = 2 ^ (len + n)) := by
  induction n generalizing left len with
  | zero =>
    refine ⟨fun _ j h1 h2 => by omega, ?_⟩
    unfold kraftLoop
    split
    · intro h; cases h
    · intro _
      have : left = 0 := by omega
      subst this
      simpa using hleft
  | succ n ih =>
    unfold kraftLoop
    split
    · exact ⟨fun h => absurd rfl h, fun h => by cases h⟩
    · rename_i hge
      have hstep : firstCode lens (len + 1) + 2 * (left * 2 - countLen lens len) = 2 ^ (len + 1) := by
        rw [firstCode_succ lens hlen, Nat.pow_succ]
        omega
      obtain ⟨ih1, ih2⟩ := ih (by omega) hstep
      constructor
      · intro h j h1 h2
        rcases Nat.lt_or_ge j (len + 1) with hj | hj
        · obtain rfl : j = len := by omega
          omega
        · exact ih1 h j hj (by omega)
      · intro h
        have := ih2 h
        rwa [show len + 1 + n = len + (n + 1) by omega] at this

/-- When the array is not over-subscribed every code of a length fits it (R121, R123). -/
theorem kraft_fits {m j : Nat} (h : kraftCheck lens m ≠ .over) (h1 : 1 ≤ j) (h2 : j ≤ m) :
    firstCode lens j + countLen lens j ≤ 2 ^ j :=
  (kraftLoop_spec (lens := lens) (left := 1) (len := 1) (n := m) (Nat.le_refl 1) rfl).1 h j h1 (by omega)

/-- When the array is complete no bit pattern is left without a code (R123). -/
theorem kraft_complete {m : Nat} (h : kraftCheck lens m = .ok) (hm : 1 ≤ m) :
    firstCode lens m + countLen lens m = 2 ^ m := by
  have := (kraftLoop_spec (lens := lens) (left := 1) (len := 1) (n := m) (Nat.le_refl 1) rfl).2 h
  rw [Nat.add_comm, firstCode_succ lens hm, Nat.pow_succ] at this
  omega

end kraft

/-! ### The symbol decoder -/

/-- The number formed by `n` input bits from linear position `k`, the first one most significant (R65). -/
def msbField (s : State) (k : Nat) : Nat → Nat
  | 0 => 0
  | n + 1 => 2 * msbField s k n + (inBit s (k + n)).toNat

section decoder
variable {lens : List Nat} {s t : State}

theorem msbField_lt (s : State) (k n : Nat) : msbField s k n < 2 ^ n := by
  induction n with
  | zero => simp [msbField]
  | succ n ih =>
    have := Bool.toNat_le (inBit s (k + n))
    rw [msbField, Nat.pow_succ]
    omega

/-- The first bits of a field are its high bits. -/
theorem msbField_shift (s : State) (k j d : Nat) : msbField s k (j + d) / 2 ^ d = msbField s k j := by
  induction d with
  | zero => simp
  | succ d ih =>
    have h := Bool.toNat_le (inBit s (k + (j + d)))
    rw [← Nat.add_assoc, msbField, Nat.pow_succ, Nat.mul_comm (2 ^ d) 2, ← Nat.div_div_eq_div_mul]
    rw [show (2 * msbField s k (j + d) + (inBit s (k + (j + d))).toNat) / 2 = msbField s k (j + d) by omega]
    exact ih

theorem inField_one (s : State) (k : Nat) : inField s k 1 = (inBit s k).toNat := by simp [inField]

theorem shiftLeft_or_bit (c : Nat) (b : Bool) : c <<< 1 ||| b.toNat = 2 * c + b.toNat := by
  cases b
  · simp [Nat.shiftLeft_eq, Nat.mul_comm]
  · simp only [Bool.toNat_true, Nat.shiftLeft_eq, Nat.pow_one]
    rw [Nat.mul_comm]
    exact (Nat.two_pow_add_eq_or_of_lt (i := 1) (by omega : (1 : Nat) < 2 ^ 1) c).symm

/-- No symbol is found after `j` bits. -/
def NoMatch (lens : List Nat) (s : State) (k j : Nat) : Prop := findSym lens j (msbField s k j) = none

/-- One round of the decoder's loop (R126). -/
theorem huffLoop_succ {k j n : Nat} (hk : k + j ≤ 8 * s.inLen.toNat) :
    huffLoop lens (j + 1) (msbField s k j) (n + 1) (cursorTo (k + j) s) =
      if k + j + 1 ≤ 8 * s.inLen.toNat then
        match findSym lens (j + 1) (msbField s k (j + 1)) with
        | some v => .ok v (cursorTo (k + (j + 1)) s)
        | none => huffLoop lens (j + 2) (msbField s k (j + 1)) n (cursorTo (k + (j + 1)) s)
      else .error (.trap .unexpectedEof) (cursorTo (k + j) s) := by
  have hlin : linPos (cursorTo (k + j) s) = k + j := linPos_cursorTo s _ hk
  rw [huffLoop, bind_apply]
  by_cases h : k + j + 1 ≤ 8 * s.inLen.toNat
  · rw [readBits_of_le (by rw [hlin]; exact h), hlin, inField_one, inBit_cursorTo, cursorTo_cursorTo]
    simp only [shiftLeft_or_bit, h, if_true]
    rw [show 2 * msbField s k j + (inBit s (k + j)).toNat = msbField s k (j + 1) from rfl]
    cases findSym lens (j + 1) (msbField s k (j + 1)) <;> rfl
  · rw [readBits_of_lt (by rw [hlin, cursorTo_inLen]; omega)]
    simp [h]

/-- How the decoder's loop ends (R126): with the first match, or out of input, or with no match at all. -/
theorem huffLoop_cases {k j n : Nat} (hk : k + j ≤ 8 * s.inLen.toNat) :
    (∃ L v, j < L ∧ L ≤ j + n ∧ k + L ≤ 8 * s.inLen.toNat ∧ (∀ i, j < i → i < L → NoMatch lens s k i) ∧
      findSym lens L (msbField s k L) = some v ∧
      huffLoop lens (j + 1) (msbField s k j) n (cursorTo (k + j) s) = .ok v (cursorTo (k + L) s)) ∨
    (∃ L, j ≤ L ∧ L < j + n ∧ k + L = 8 * s.inLen.toNat ∧ (∀ i, j < i → i ≤ L → NoMatch lens s k i) ∧
      huffLoop lens (j + 1) (msbField s k j) n (cursorTo (k + j) s) =
        .error (.trap .unexpectedEof) (cursorTo (k + L) s)) ∨
    (k + (j + n) ≤ 8 * s.inLen.toNat ∧ (∀ i, j < i → i ≤ j + n → NoMatch lens s k i) ∧
      huffLoop lens (j + 1) (msbField s k j) n (cursorTo (k + j) s) =
        .error (.trap .invalidCode) (cursorTo (k + (j + n)) s)) := by
  induction n generalizing j with
  | zero => exact .inr (.inr ⟨hk, fun i h1 h2 => by omega, rfl⟩)
  | succ n ih =>
    rw [huffLoop_succ hk]
    by_cases h : k + j + 1 ≤ 8 * s.inLen.toNat
    · simp only [h, if_true]
      cases hf : findSym lens (j + 1) (msbField s k (j + 1)) with
      | some v =>
        exact .inl ⟨j + 1, v, by omega, by omega, h, fun i h1 h2 => by omega, hf, rfl⟩
      | none =>
        have hno : ∀ i, j < i → i ≤ j + 1 → NoMatch lens s k i := fun i h1 h2 => by
          obtain rfl : i = j + 1 := by omega
          exact hf
        rcases ih (j := j + 1) h with ⟨L, v, h1, h2, h3, h4, h5, h6⟩ | ⟨L, h1, h2, h3, h4, h5⟩ | ⟨h1, h2, h3⟩
        · refine .inl ⟨L, v, by omega, by omega, h3, fun i a b => ?_, h5, h6⟩
          rcases Nat.lt_or_ge (j + 1) i with hi | hi
          · exact h4 i hi b
          · exact hno i a hi
        · refine .inr (.inl ⟨L, by omega, by omega, h3, fun i a b => ?_, h5⟩)
          rcases Nat.lt_or_ge (j + 1) i with hi | hi
          · exact h4 i hi b
          · exact hno i a hi
        · rw [show j + 1 + n = j + (n + 1) by omega] at h1 h2 h3
          refine .inr (.inr ⟨h1, fun i a b => ?_, h3⟩)
          rcases Nat.lt_or_ge (j + 1) i with hi | hi
          · exact h2 i hi b
          · exact hno i a hi
    · simp only [h, if_false]
      exact .inr (.inl ⟨j, Nat.le_refl j, by omega, by omega, fun i h1 h2 => by omega, rfl⟩)

/-- How `huff_decode` ends (R126), from a cursor not past the end of the input. -/
theorem huffDecode_cases (lens : List Nat) (m : Nat) (hk : linPos s ≤ 8 * s.inLen.toNat) :
    (∃ L v, 0 < L ∧ L ≤ m ∧ linPos s + L ≤ 8 * s.inLen.toNat ∧ (∀ i, 0 < i → i < L → NoMatch lens s (linPos s) i) ∧
      findSym lens L (msbField s (linPos s) L) = some v ∧
      huffDecode lens m s = .ok v (cursorTo (linPos s + L) s)) ∨
    (∃ L, L < m ∧ linPos s + L = 8 * s.inLen.toNat ∧ (∀ i, 0 < i → i ≤ L → NoMatch lens s (linPos s) i) ∧
      huffDecode lens m s = .error (.trap .unexpectedEof) (cursorTo (linPos s + L) s)) ∨
    (linPos s + m ≤ 8 * s.inLen.toNat ∧ (∀ i, 0 < i → i ≤ m → NoMatch lens s (linPos s) i) ∧
      huffDecode lens m s = .error (.trap .invalidCode) (cursorTo (linPos s + m) s)) := by
  have h := huffLoop_cases (lens := lens) (s := s) (k := linPos s) (j := 0) (n := m) (by simpa using hk)
  simp only [Nat.add_zero, Nat.zero_add, cursorTo_linPos, Nat.zero_le, true_and] at h
  exact h

/-- With a complete array some length matches within `maxbits` bits (R126). -/
theorem not_all_noMatch {m : Nat} (h : kraftCheck lens m = .ok) (hm : 1 ≤ m) (k : Nat) :
    ¬ ∀ i, 0 < i → i ≤ m → NoMatch lens s k i := by
  intro hno
  have key : ∀ i, 0 < i → i ≤ m → firstCode lens i + countLen lens i ≤ msbField s k i := by
    intro i hi
    induction i, hi using Nat.le_induction with
    | base =>
      intro h1
      rcases findSym_eq_none.1 (hno 1 (by omega) h1) with h | h
      · simp [firstCode] at h
      · exact h
    | succ i hi ih =>
      intro h1
      have := ih (by omega)
      rcases findSym_eq_none.1 (hno (i + 1) (by omega) h1) with h | h
      · rw [firstCode_succ lens hi, msbField] at h
        omega
      · exact h
  have h1 := key m hm (Nat.le_refl m)
  have h2 := msbField_lt s k m
  rw [kraft_complete h hm] at h1
  omega

end decoder

end Sys2Proof.Machine
end

