-- ==== Sys2Proof/Laws/Stream.lean ====
section
/-! SUPPORT. Streams that hold given bits: what the reader answers on them (spec/20_memory.md R63, R65), and the bit
order of a code. -/

namespace Sys2Proof.Machine

section streams
variable {s t : State} {xs ys : List Bool} {e n k : Nat}

@[simp] theorem length_bitsLsb (v n : Nat) : (bitsLsb v n).length = n := by
  induction n generalizing v with
  | zero => rfl
  | succ n ih => simp [bitsLsb, ih]

@[simp] theorem length_bitsMsb (v n : Nat) : (bitsMsb v n).length = n := by
  induction n with
  | zero => rfl
  | succ n ih => simp [bitsMsb, ih]

@[simp] theorem length_codeBits (lens : List Nat) (sym : Nat) : (codeBits lens sym).length = lens.getD sym 0 := by
  simp [codeBits]

/-- Bit `j` of a field in stream order is its bit `j`. -/
theorem getD_bitsLsb (v : Nat) {j : Nat} (h : j < n) : (bitsLsb v n).getD j false = v.testBit j := by
  induction n generalizing v j with
  | zero => omega
  | succ n ih =>
    cases j with
    | zero => simp [bitsLsb]
    | succ j =>
      have := ih (v / 2) (j := j) (by omega)
      simp only [bitsLsb, List.getD_cons_succ]
      rw [this, Nat.testBit_succ]

/-- Bit `j` of a code in stream order is its bit `n - 1 - j`. -/
theorem getD_bitsMsb (v : Nat) {j : Nat} (h : j < n) : (bitsMsb v n).getD j false = v.testBit (n - 1 - j) := by
  induction n generalizing j with
  | zero => omega
  | succ n ih =>
    cases j with
    | zero => simp [bitsMsb]
    | succ j =>
      have := ih (j := j) (by omega)
      simp only [bitsMsb, List.getD_cons_succ]
      rw [this]
      congr 1
      omega

theorem streamHolds_le (h : StreamHolds s xs) : linPos s + xs.length ≤ 8 * s.inLen.toNat := h.1

theorem streamHolds_left (h : StreamHolds s (xs ++ ys)) : StreamHolds s xs := by
  obtain ⟨h1, h2⟩ := h
  rw [List.length_append] at h1 h2
  refine ⟨by omega, fun j hj => ?_⟩
  rw [h2 j (by omega), List.getD_append _ _ _ _ hj]

/-- After the first bits are consumed the stream holds the rest. -/
theorem streamHolds_right (h : StreamHolds s (xs ++ ys)) : StreamHolds (cursorTo (linPos s + xs.length) s) ys := by
  obtain ⟨h1, h2⟩ := h
  rw [List.length_append] at h1 h2
  have hp : linPos (cursorTo (linPos s + xs.length) s) = linPos s + xs.length := linPos_cursorTo s _ (by omega)
  refine ⟨by rw [hp, cursorTo_inLen]; omega, fun j hj => ?_⟩
  rw [hp, inBit_cursorTo, Nat.add_assoc, h2 _ (by omega), List.getD_append_right _ _ _ _ (by omega)]
  simp

/-- The stream that `read_bits` sees depends only on the cursor, `IN` and `IN_LEN`. -/
theorem streamHolds_congr (h1 : t.bytePos = s.bytePos) (h2 : t.bitOff = s.bitOff) (h3 : t.inMem = s.inMem)
    (h4 : t.inLen = s.inLen) : StreamHolds t xs ↔ StreamHolds s xs := by
  simp [StreamHolds, linPos, inBit, inByte, h1, h2, h3, h4]

/-- The field at the cursor, when the stream holds its bits (R63). -/
theorem inField_of_streamHolds (h : StreamHolds s (bitsLsb e n)) (he : e < 2 ^ n) : inField s (linPos s) n = e := by
  apply Nat.eq_of_testBit_eq
  intro i
  rw [testBit_inField]
  by_cases hi : i < n
  · have := h.2 i (by simpa using hi)
    rw [this, getD_bitsLsb e hi]
    simp [hi]
  · have : e < 2 ^ i := Nat.lt_of_lt_of_le he (Nat.pow_le_pow_right (by omega) (by omega))
    simp [hi, Nat.testBit_lt_two_pow this]

/-- `read_bits(n)` on a stream that holds an `n`-bit field (R111). -/
theorem readBits_of_streamHolds (h : StreamHolds s (bitsLsb e n)) (he : e < 2 ^ n) :
    readBits n s = .ok e (cursorTo (linPos s + n) s) := by
  rw [readBits_of_le (by simpa using h.1), inField_of_streamHolds h he]

/-- The stream holds the field that `read_bits` would answer. -/
theorem streamHolds_inField (h : linPos s + n ≤ 8 * s.inLen.toNat) : StreamHolds s (bitsLsb (inField s (linPos s) n) n) := by
  refine ⟨by simpa using h, fun j hj => ?_⟩
  rw [length_bitsLsb] at hj
  rw [getD_bitsLsb _ hj, testBit_inField]
  simp [hj]

/-- The number of the next bits, first one most significant, when the stream holds them (R65). -/
theorem msbField_of_streamHolds {v : Nat} (h : StreamHolds s (bitsMsb v n)) (hj : k ≤ n) (hv : v < 2 ^ n) :
    msbField s (linPos s) k = v / 2 ^ (n - k) := by
  induction k with
  | zero =>
    rw [Nat.sub_zero, Nat.div_eq_of_lt hv]
    rfl
  | succ k ih =>
    have hb := h.2 k (by rw [length_bitsMsb]; omega)
    rw [getD_bitsMsb v (by omega)] at hb
    rw [msbField, ih (by omega), hb, Nat.testBit_eq_decide_div_mod_eq, show n - k = n - (k + 1) + 1 by omega, Nat.pow_succ,
      ← Nat.div_div_eq_div_mul, show n - 1 - k = n - (k + 1) by omega]
    have := Nat.mod_two_eq_zero_or_one (v / 2 ^ (n - (k + 1)))
    rcases this with h | h <;> simp [h] <;> omega

/-- A state at the cursor `k`: its position, when `k` is not past the end of the input. -/
theorem linPos_at (hc : cursorTo k t = t) (h : k ≤ 8 * t.inLen.toNat) : linPos t = k := by
  rw [← hc]
  exact linPos_cursorTo t k h

/-- `read_bits(n)` `m` bits further on, in a state that differs from `s` in no input: the field is there. -/
theorem readBits_at {m : Nat} (hc : cursorTo (linPos s + m) t = t) (hm : t.inMem = s.inMem) (hl : t.inLen = s.inLen)
    (hx : xs.length = m) (h : StreamHolds s (xs ++ bitsLsb e n)) (he : e < 2 ^ n) :
    readBits n t = .ok e (cursorTo (linPos s + (m + n)) t) := by
  have hle := streamHolds_le h
  rw [List.length_append, length_bitsLsb] at hle
  have hp : linPos t = linPos s + m := linPos_at hc (by rw [hl]; omega)
  have hs : StreamHolds t (bitsLsb e n) := by
    have h2 := streamHolds_right h
    rw [hx] at h2
    refine (streamHolds_congr (s := cursorTo (linPos s + m) s) ?_ ?_ hm hl).2 h2
    all_goals rw [← hc]; rfl
  rw [readBits_of_streamHolds hs he, hp, Nat.add_assoc]

/-- `read_bits(n)` `m` bits further on raises when too little is left. -/
theorem readBits_at_end {m : Nat} (hc : cursorTo (linPos s + m) t = t) (hl : t.inLen = s.inLen)
    (hm : linPos s + m ≤ 8 * s.inLen.toNat) (h : 8 * s.inLen.toNat < linPos s + m + n) :
    readBits n t = .error (.trap .unexpectedEof) t := by
  refine readBits_of_lt ?_
  rw [linPos_at hc (by rw [hl]; exact hm), hl]
  exact h

/-! Byte fields as words (R64). -/

theorem inLe_one (s : State) (a : Nat) : inLe s a 1 = (inByte s a).toNat := by simp [inLe]

theorem inLe_two (s : State) (a : Nat) : inLe s a 2 = (le16 s a).toNat := by
  have := (inByte s a).isLt
  rw [le16, BitVec.toNat_append, Nat.shiftLeft_eq, Nat.mul_comm, ← Nat.two_pow_add_eq_or_of_lt this]
  simp [inLe]
  omega

theorem inLe_four (s : State) (a : Nat) : inLe s a 4 = (le32 s a).toNat := by
  have := (le16 s a).isLt
  rw [le32, BitVec.toNat_append, Nat.shiftLeft_eq, Nat.mul_comm, ← Nat.two_pow_add_eq_or_of_lt this, ← inLe_two,
    ← inLe_two]
  simp only [inLe, Nat.add_assoc, Nat.reduceAdd]
  omega

/-- Moving a position forward, as a word. -/
theorem ofNat_toNat_add {w : Nat} (b : BitVec w) (m : Nat) : BitVec.ofNat w (b.toNat + m) = b + BitVec.ofNat w m := by
  apply BitVec.eq_of_toNat_eq
  simp

/-- `read_bytes_le(k)` `m` bytes further on, in a state that differs from `s` in no input: enough is left. -/
theorem readBytesLe_at {m : Nat} (hm : t.inMem = s.inMem) (hl : t.inLen = s.inLen)
    (hp : t.bytePos = s.bytePos + BitVec.ofNat 32 m) (h : s.bytePos.toNat + m + k ≤ s.inLen.toNat) :
    readBytesLe k t =
      .ok (inLe s (s.bytePos.toNat + m) k) { t with bytePos := s.bytePos + BitVec.ofNat 32 (m + k) } := by
  have hi := s.inLen.isLt
  have hpos : t.bytePos.toNat = s.bytePos.toNat + m := by
    rw [hp, ← ofNat_toNat_add]
    simp
    omega
  rw [readBytesLe_of_le (by rw [hpos, hl]; exact h), hpos, inLe_congr hm, Nat.add_assoc, ofNat_toNat_add]

/-- `read_bytes_le(k)` `m` bytes further on raises when too little is left. -/
theorem readBytesLe_at_end {m : Nat} (hl : t.inLen = s.inLen) (hp : t.bytePos = s.bytePos + BitVec.ofNat 32 m)
    (hm : s.bytePos.toNat + m ≤ s.inLen.toNat) (h : s.inLen.toNat < s.bytePos.toNat + m + k) :
    readBytesLe k t = .error (.trap .unexpectedEof) t := by
  have hi := s.inLen.isLt
  refine readBytesLe_of_lt ?_
  rw [hp, ← ofNat_toNat_add, hl]
  simp
  omega

end streams

end Sys2Proof.Machine
end

