-- ==== Sys2Proof/Laws/Frame.lean ====
section
/-! SUPPORT. A relation between the states before and after an operation, however the operation ends: proved for each
shared operation once, and put together along the sequence an instruction is written as. With an equality of the
fields that are not written it is a frame; with an implication it is an invariant. -/

namespace Sys2Proof.Machine

/-- The state an operation ends in, however it ends. -/
def endState {α : Type} : EStateM.Result Stop State α → State
  | .ok _ t => t
  | .error _ t => t

/-- However the operation ends, the states before and after are related. -/
def Keeps {α : Type} (R : State → State → Prop) (op : Op α) : Prop := ∀ s, R s (endState (op s))

section keeps
variable {α β : Type} {R : State → State → Prop}

theorem Keeps.ok {op : Op α} (h : Keeps R op) {s t : State} {a : α} (ho : op s = .ok a t) : R s t := by
  have := h s
  rwa [ho] at this

theorem Keeps.error {op : Op α} (h : Keeps R op) {s t : State} {e : Stop} (ho : op s = .error e t) : R s t := by
  have := h s
  rwa [ho] at this

theorem keeps_bind (htrans : ∀ a b c, R a b → R b c → R a c) {x : Op α} {f : α → Op β} (hx : Keeps R x)
    (hf : ∀ a, Keeps R (f a)) : Keeps R (x >>= f) := by
  intro s
  rw [bind_apply]
  have h := hx s
  cases hxs : x s with
  | ok a u =>
    rw [hxs] at h
    exact htrans _ _ _ h (hf a u)
  | error e u =>
    rw [hxs] at h
    exact h

theorem keeps_pure (hrefl : ∀ a, R a a) (a : α) : Keeps R (pure a : Op α) := fun s => hrefl s

theorem keeps_getState (hrefl : ∀ a, R a a) : Keeps R getState := fun s => hrefl s

theorem keeps_update {f : State → State} (h : ∀ s, R s (f s)) : Keeps R (update f) := h

theorem keeps_raise (hrefl : ∀ a, R a a) (e : Trap) : Keeps R (raise e : Op α) := fun s => hrefl s

theorem keeps_stopFault (hrefl : ∀ a, R a a) (f : Fault) : Keeps R (stopFault f : Op α) := fun s => hrefl s

theorem keeps_stopRefuse (hrefl : ∀ a, R a a) (r : Refusal) : Keeps R (stopRefuse r : Op α) := fun s => hrefl s

theorem keeps_require (hrefl : ∀ a, R a a) (c : Bool) (e : Trap) : Keeps R (require c e) := by
  intro s
  cases c <;> exact hrefl s

theorem keeps_ite {c : Prop} [Decidable c] {x y : Op α} (hx : Keeps R x) (hy : Keeps R y) :
    Keeps R (if c then x else y) := by
  split
  · exact hx
  · exact hy

theorem keeps_readBits (hrefl : ∀ a, R a a) (n : Nat)
    (h : ∀ s, linPos s + n ≤ 8 * s.inLen.toNat → R s (cursorTo (linPos s + n) s)) : Keeps R (readBits n) := by
  intro s
  rcases Nat.lt_or_ge (8 * s.inLen.toNat) (linPos s + n) with hlt | hge
  · rw [readBits_of_lt hlt]; exact hrefl s
  · rw [readBits_of_le hge]; exact h s hge

theorem keeps_readBytesLe (hrefl : ∀ a, R a a) (k : Nat)
    (h : ∀ s, s.bytePos.toNat + k ≤ s.inLen.toNat → R s { s with bytePos := BitVec.ofNat 32 (s.bytePos.toNat + k) }) :
    Keeps R (readBytesLe k) := by
  intro s
  rcases Nat.lt_or_ge s.inLen.toNat (s.bytePos.toNat + k) with hlt | hge
  · rw [readBytesLe_of_lt hlt]; exact hrefl s
  · rw [readBytesLe_of_le hge]; exact h s hge

theorem keeps_emit (hrefl : ∀ a, R a a) (b : Byte)
    (h : ∀ s, s.outPos.toNat < s.outCap.toNat → R s (emitted b s)) : Keeps R (emit b) := by
  intro s
  unfold emit
  split
  · exact hrefl s
  · split
    · exact h s ‹_›
    · exact hrefl s

theorem keeps_readWindow (hrefl : ∀ a, R a a) : Keeps R readWindow := by
  intro s
  unfold readWindow
  split <;> exact hrefl s

theorem keeps_skipString (hrefl : ∀ a, R a a) (htrans : ∀ a b c, R a b → R b c → R a c)
    (h : ∀ s, s.bytePos.toNat + 1 ≤ s.inLen.toNat → R s { s with bytePos := BitVec.ofNat 32 (s.bytePos.toNat + 1) })
    (n : Nat) : Keeps R (skipString n) := by
  induction n with
  | zero => exact keeps_raise hrefl _
  | succ n ih =>
    unfold skipString
    exact keeps_bind htrans (keeps_readBytesLe hrefl 1 h) fun b => keeps_ite (keeps_pure hrefl ()) ih

theorem keeps_readClLens (hrefl : ∀ a, R a a) (htrans : ∀ a b c, R a b → R b c → R a c)
    (h : ∀ s, linPos s + 3 ≤ 8 * s.inLen.toNat → R s (cursorTo (linPos s + 3) s))
    (h' : ∀ s sym v, R s { s with clLen := s.clLen.set sym v }) (l : List Nat) : Keeps R (readClLens l) := by
  induction l with
  | nil => exact keeps_pure hrefl ()
  | cons sym rest ih =>
    unfold readClLens
    exact keeps_bind htrans (keeps_readBits hrefl 3 h) fun v =>
      keeps_bind htrans (keeps_update fun s => h' s sym _) fun _ => ih

theorem keeps_huffDecode (hrefl : ∀ a, R a a) (htrans : ∀ a b c, R a b → R b c → R a c)
    (h : ∀ s, linPos s + 1 ≤ 8 * s.inLen.toNat → R s (cursorTo (linPos s + 1) s)) (lens : List Nat) (m : Nat) :
    Keeps R (huffDecode lens m) := by
  have loop : ∀ n len code, Keeps R (huffLoop lens len code n) := by
    intro n
    induction n with
    | zero => exact fun len code => keeps_raise hrefl _
    | succ n ih =>
      intro len code
      unfold huffLoop
      refine keeps_bind htrans (keeps_readBits hrefl 1 h) fun b => ?_
      cases findSym lens len (code <<< 1 ||| b) with
      | some s => exact keeps_pure hrefl s
      | none => exact ih _ _
  exact loop m 1 0

/-- A step made of such an operation, when taking a trap is related too. -/
theorem finish_keeps {op : Op Unit} {s t : State} (htrans : ∀ a b c, R a b → R b c → R a c)
    (htrap : ∀ e s, R s (takeTrap e s)) (hop : Keeps R op) (h : finish op s = .next t) : R s t := by
  rcases finish_next h with h' | ⟨e, u, h', rfl⟩
  · exact hop.ok h'
  · exact htrans _ _ _ (hop.error h') (htrap e u)

end keeps

end Sys2Proof.Machine
end

