-- ==== Sys2Proof/Laws/Exec.lean ====
section
/-! SUPPORT. What any instruction can do to the data of a run, said once for the three ways instructions read the input:
whole bytes, bits, and whole bytes after an alignment. A relation that holds of every register write, of every cursor
move of that kind and of `emit` holds of every instruction of the kind, and of the fetch. -/

namespace Sys2Proof.Machine

/-- The arrays have their sizes (10_state.md R42). -/
def SizesOk (s : State) : Prop :=
  s.clLen.length = Config.nCL ∧ s.flat.length = Config.nFlat ∧ s.llLen.length = Config.nLL ∧ s.dLen.length = Config.nD

/-- `t` differs from `s` in registers that are neither the cursor nor the output nor the host's, and in array entries. -/
structure SameData (s t : State) : Prop where
  bytePos : t.bytePos = s.bytePos
  bitOff : t.bitOff = s.bitOff
  inMem : t.inMem = s.inMem
  inLen : t.inLen = s.inLen
  hcrcCheck : t.hcrcCheck = s.hcrcCheck
  outMem : t.outMem = s.outMem
  outPos : t.outPos = s.outPos
  outCap : t.outCap = s.outCap
  outEpoch : t.outEpoch = s.outEpoch
  crc : t.crc = s.crc
  pending : t.pending = s.pending
  sizes : SizesOk s → SizesOk t

theorem SameData.refl (s : State) : SameData s s := ⟨rfl, rfl, rfl, rfl, rfl, rfl, rfl, rfl, rfl, rfl, rfl, id⟩

/-- A write of registers that are none of these. -/
theorem SameData.of_eq {s t : State}
    (h : t = { s with
      phase := t.phase, bfinal := t.bfinal, btype := t.btype, hlit := t.hlit, hdist := t.hdist, hclen := t.hclen,
      idx := t.idx, sRem := t.sRem, mLen := t.mLen, mDist := t.mDist, trailing := t.trailing, err := t.err,
      hdr := t.hdr, trl := t.trl }) : SameData s t := by
  rw [h]
  exact ⟨rfl, rfl, rfl, rfl, rfl, rfl, rfl, rfl, rfl, rfl, rfl, id⟩

theorem length_fillFlat (v : BitVec 4) (i n : Nat) (l : List (BitVec 4)) : (fillFlat v i n l).length = l.length := by
  induction n generalizing i l with
  | zero => rfl
  | succ n ih => rw [fillFlat, ih, List.length_set]

theorem sameData_appendFlat (v : BitVec 4) (n : Nat) (s : State) : SameData s (appendFlat v n s) :=
  ⟨rfl, rfl, rfl, rfl, rfl, rfl, rfl, rfl, rfl, rfl, rfl,
    fun ⟨h1, h2, h3, h4⟩ => ⟨h1, by rw [appendFlat_flat, length_fillFlat]; exact h2, h3, h4⟩⟩

section kinds
variable {R : State → State → Prop}

/-- Register writes, one after another. -/
theorem keeps_of_same (hreg : ∀ s t, SameData s t → R s t) {f : State → State} (h : ∀ s, SameData s (f s)) :
    Keeps R (update f) := keeps_update fun s => hreg s _ (h s)

theorem keeps_blockEnd (hreg : ∀ s t, SameData s t → R s t) : Keeps R blockEnd :=
  keeps_of_same hreg fun _ => SameData.of_eq rfl

/-- The instructions that read whole bytes at the cursor as it stands: the header and STORED.BYTE. -/
theorem exec_bytes_keeps (htrans : ∀ a b c, R a b → R b c → R a c) (hreg : ∀ s t, SameData s t → R s t)
    (hbytes : ∀ s k, s.bytePos.toNat + k ≤ s.inLen.toNat →
      R s { s with bytePos := BitVec.ofNat 32 (s.bytePos.toNat + k) })
    (hemit : ∀ s b, s.outPos.toNat < s.outCap.toNat → R s (emitted b s)) {i : Instr} {s t : State}
    (hi : i ∈ [.gzHdr, .gzFextra, .gzFname, .gzFcomment, .gzFhcrc, .storedByte]) (h : exec i s = .next t) : R s t := by
  have hrefl : ∀ a, R a a := fun a => hreg a a (SameData.refl a)
  have hup : ∀ {f : State → State}, (∀ s, SameData s (f s)) → Keeps R (update f) := fun h => keeps_of_same hreg h
  have hrd : ∀ k, Keeps R (readBytesLe k) := fun k => keeps_readBytesLe hrefl k fun s h => hbytes s k h
  have hsk : ∀ n, Keeps R (skipString n) := fun n => keeps_skipString hrefl htrans (fun s h => hbytes s 1 h) n
  have htrap : ∀ e s, R s (takeTrap e s) := fun e s => hreg _ _ (SameData.of_eq rfl)
  simp only [List.mem_cons, List.not_mem_nil, or_false] at hi
  rcases hi with rfl | rfl | rfl | rfl | rfl | rfl
  · refine finish_keeps htrans htrap (op := _) ?_ h
    repeat' first
      | exact hrd _
      | exact keeps_require hrefl _ _
      | exact hup fun _ => SameData.of_eq rfl
      | refine keeps_bind htrans ?_ fun _ => ?_
  · have hx : Keeps R extraField := by
      refine keeps_bind htrans (hrd 2) fun xlen => ?_
      intro u
      simp only [bind_apply, getState_apply, require_apply]
      by_cases hle : u.bytePos.toNat + xlen ≤ u.inLen.toNat
      · simp only [hle, decide_true, if_true, update_apply, endState]
        exact htrans _ _ _ (hbytes u xlen hle) (hreg _ _ (SameData.of_eq rfl))
      · simp only [hle, decide_false, Bool.false_eq_true, if_false, endState]
        exact hrefl u
    refine finish_keeps htrans htrap (op := _) ?_ h
    repeat' first
      | exact hx
      | exact keeps_pure hrefl _
      | exact hup fun _ => SameData.of_eq rfl
      | refine keeps_ite ?_ ?_
      | refine keeps_bind htrans ?_ fun _ => ?_
  · have hx : Keeps R nameField :=
      keeps_bind htrans (hup fun _ => SameData.of_eq rfl) fun _ => keeps_bind htrans (keeps_getState hrefl) fun u =>
        keeps_bind htrans (hsk _) fun _ => hup fun _ => SameData.of_eq rfl
    refine finish_keeps htrans htrap (op := _) ?_ h
    repeat' first
      | exact hx
      | exact keeps_pure hrefl _
      | exact hup fun _ => SameData.of_eq rfl
      | refine keeps_ite ?_ ?_
      | refine keeps_bind htrans ?_ fun _ => ?_
  · have hx : Keeps R commentField :=
      keeps_bind htrans (hup fun _ => SameData.of_eq rfl) fun _ => keeps_bind htrans (keeps_getState hrefl) fun u =>
        keeps_bind htrans (hsk _) fun _ => hup fun _ => SameData.of_eq rfl
    refine finish_keeps htrans htrap (op := _) ?_ h
    repeat' first
      | exact hx
      | exact keeps_pure hrefl _
      | exact hup fun _ => SameData.of_eq rfl
      | refine keeps_ite ?_ ?_
      | refine keeps_bind htrans ?_ fun _ => ?_
  · have hx : Keeps R hcrcField := by
      unfold hcrcField
      repeat' first
        | exact hrd _
        | exact keeps_getState hrefl
        | exact keeps_pure hrefl _
        | exact keeps_require hrefl _ _
        | exact hup fun _ => SameData.of_eq rfl
        | refine keeps_ite ?_ ?_
        | refine keeps_bind htrans ?_ fun _ => ?_
    refine finish_keeps htrans htrap (op := _) ?_ h
    repeat' first
      | exact hx
      | exact keeps_pure hrefl _
      | exact hup fun _ => SameData.of_eq rfl
      | refine keeps_ite ?_ ?_
      | refine keeps_bind htrans ?_ fun _ => ?_
  · refine finish_keeps htrans htrap (op := _) ?_ h
    refine keeps_ite (keeps_blockEnd hreg) ?_
    refine keeps_bind htrans (hrd 1) fun b => ?_
    exact keeps_bind htrans (keeps_emit hrefl _ fun s h => hemit s _ h) fun _ => hup fun _ => SameData.of_eq rfl

/-- GZ.TRAILER and STORED.LEN: whole bytes after an alignment. The alignment is the reader's, so what it does is a
hypothesis of its own about the state it starts in. -/
theorem exec_aligned_keeps (htrans : ∀ a b c, R a b → R b c → R a c) (hreg : ∀ s t, SameData s t → R s t)
    (hbytes : ∀ s k, s.bytePos.toNat + k ≤ s.inLen.toNat →
      R s { s with bytePos := BitVec.ofNat 32 (s.bytePos.toNat + k) }) {i : Instr} {s t : State}
    (hi : i = .gzTrailer ∨ i = .storedLen) (h : exec i s = .next t) :
    ∃ u, alignToByte s = .ok () u ∧ R u t := by
  have hrefl : ∀ a, R a a := fun a => hreg a a (SameData.refl a)
  have hup : ∀ {f : State → State}, (∀ s, SameData s (f s)) → Keeps R (update f) := fun h => keeps_of_same hreg h
  have hrd : ∀ k, Keeps R (readBytesLe k) := fun k => keeps_readBytesLe hrefl k fun s h => hbytes s k h
  have htrap : ∀ e s, R s (takeTrap e s) := fun e s => hreg _ _ (SameData.of_eq rfl)
  have key : ∀ rest : Unit → Op Unit, Keeps R (rest ()) → finish (alignToByte >>= rest) s = .next t →
      ∃ u, alignToByte s = .ok () u ∧ R u t := by
    intro rest hrest hf
    refine ⟨_, rfl, finish_keeps (op := rest ()) htrans htrap hrest ?_⟩
    simpa [finish, alignToByte] using hf
  rcases hi with rfl | rfl
  · refine key _ ?_ h
    repeat' first
      | exact hrd _
      | exact keeps_getState hrefl
      | exact keeps_require hrefl _ _
      | exact hup fun _ => SameData.of_eq rfl
      | refine keeps_bind htrans ?_ fun _ => ?_
  · refine key _ ?_ h
    repeat' first
      | exact hrd _
      | exact keeps_require hrefl _ _
      | exact hup fun _ => SameData.of_eq rfl
      | refine keeps_bind htrans ?_ fun _ => ?_

/-- The instructions that read whole bytes, aligned or not. -/
def readsBytes : Instr → Bool
  | .gzHdr | .gzFextra | .gzFname | .gzFcomment | .gzFhcrc | .storedByte | .gzTrailer | .storedLen => true
  | _ => false

theorem keeps_matchLength (htrans : ∀ a b c, R a b → R b c → R a c) (hreg : ∀ s t, SameData s t → R s t)
    (hbits : ∀ s n, linPos s + n ≤ 8 * s.inLen.toNat → R s (cursorTo (linPos s + n) s)) (k : Nat) :
    Keeps R (matchLength k) :=
  keeps_bind htrans (keeps_readBits (fun a => hreg a a (SameData.refl a)) _ fun s h => hbits s _ h) fun _ =>
    keeps_of_same hreg fun _ => SameData.of_eq rfl

theorem keeps_matchDistance (htrans : ∀ a b c, R a b → R b c → R a c) (hreg : ∀ s t, SameData s t → R s t)
    (hbits : ∀ s n, linPos s + n ≤ 8 * s.inLen.toNat → R s (cursorTo (linPos s + n) s)) (k : Nat) :
    Keeps R (matchDistance k) :=
  keeps_bind htrans (keeps_readBits (fun a => hreg a a (SameData.refl a)) _ fun s h => hbits s _ h) fun _ =>
    keeps_bind htrans (keeps_getState fun a => hreg a a (SameData.refl a)) fun _ =>
      keeps_bind htrans (keeps_require (fun a => hreg a a (SameData.refl a)) _ _) fun _ =>
        keeps_of_same hreg fun _ => SameData.of_eq rfl

theorem keeps_zeroRun (htrans : ∀ a b c, R a b → R b c → R a c) (hreg : ∀ s t, SameData s t → R s t)
    (hbits : ∀ s n, linPos s + n ≤ 8 * s.inLen.toNat → R s (cursorTo (linPos s + n) s)) (b n : Nat) :
    Keeps R (zeroRun b n) :=
  keeps_bind htrans (keeps_readBits (fun a => hreg a a (SameData.refl a)) _ fun s h => hbits s _ h) fun _ =>
    keeps_bind htrans (keeps_getState fun a => hreg a a (SameData.refl a)) fun _ =>
      keeps_bind htrans (keeps_require (fun a => hreg a a (SameData.refl a)) _ _) fun _ =>
        keeps_of_same hreg fun s => sameData_appendFlat _ _ s

/-- Every LEN row runs one body. -/
theorem exec_of_lengthRow {i : Instr} (h : i ∈ lengthRows.map (·.1)) (s : State) : ∃ k, exec i s = finish (matchLength k) s := by
  simp only [lengthRows, List.map_cons, List.map_nil, List.mem_cons, List.not_mem_nil, or_false] at h
  rcases h with rfl | rfl | rfl | rfl | rfl | rfl | rfl | rfl | rfl | rfl | rfl | rfl | rfl | rfl | rfl | rfl | rfl |
    rfl | rfl | rfl | rfl | rfl | rfl | rfl | rfl | rfl | rfl | rfl | rfl <;> exact ⟨_, rfl⟩

/-- Every DIST row below 30 runs one body. -/
theorem exec_of_distanceRow {i : Instr} (h : i ∈ distanceRows.map (·.1)) (s : State) : ∃ k, exec i s = finish (matchDistance k) s := by
  simp only [distanceRows, List.map_cons, List.map_nil, List.mem_cons, List.not_mem_nil, or_false] at h
  rcases h with rfl | rfl | rfl | rfl | rfl | rfl | rfl | rfl | rfl | rfl | rfl | rfl | rfl | rfl | rfl | rfl | rfl |
    rfl | rfl | rfl | rfl | rfl | rfl | rfl | rfl | rfl | rfl | rfl | rfl | rfl <;> exact ⟨_, rfl⟩

/-- Every CL.LEN row runs one body. -/
theorem exec_of_codeLengthRow {i : Instr} (h : i ∈ codeLengthRows.map (·.1)) (s : State) : ∃ k, exec i s = finish (appendLength k) s := by
  simp only [codeLengthRows, List.map_cons, List.map_nil, List.mem_cons, List.not_mem_nil, or_false] at h
  rcases h with rfl | rfl | rfl | rfl | rfl | rfl | rfl | rfl | rfl | rfl | rfl | rfl | rfl | rfl | rfl | rfl <;> exact ⟨_, rfl⟩

/-- The instructions whose rows differ only in a constant, and the rest. -/
theorem exec_shape {i : Instr} (hi : readsBytes i = false) (hs : i ≠ .start) :
    i ∈ lengthRows.map (·.1) ∨ i ∈ distanceRows.map (·.1) ∨ i ∈ codeLengthRows.map (·.1) ∨
      i ∈ [.clZrep17, .clZrep18] ∨ i ∈ [.llRsvd286, .llRsvd287, .dRsvd30, .dRsvd31] ∨
      (∃ b, i ∈ [.blkStored b, .blkFixed b, .blkDynamic b, .blkReserved b]) ∨
      i ∈ [.dynCounts, .dynCllen, .clRep16, .dynBuild, .copy] ∨ i = .eob ∨ ∃ v, i = .lit v := by
  cases i <;> first
    | exact absurd hi (by decide)
    | exact absurd rfl hs
    | exact .inl (by decide)
    | exact .inr (.inl (by decide))
    | exact .inr (.inr (.inl (by decide)))
    | exact .inr (.inr (.inr (.inl (by decide))))
    | exact .inr (.inr (.inr (.inr (.inl (by decide)))))
    | exact .inr (.inr (.inr (.inr (.inr (.inr (.inl (by decide)))))))
    | simp

/-- Every other instruction but START: it reads bits, or nothing. -/
theorem exec_bits_keeps (htrans : ∀ a b c, R a b → R b c → R a c) (hreg : ∀ s t, SameData s t → R s t)
    (hbits : ∀ s n, linPos s + n ≤ 8 * s.inLen.toNat → R s (cursorTo (linPos s + n) s))
    (hemit : ∀ s b, s.outPos.toNat < s.outCap.toNat → R s (emitted b s)) {i : Instr} {s t : State}
    (hi : readsBytes i = false) (hs : i ≠ .start) (h : exec i s = .next t) : R s t := by
  have hrefl : ∀ a, R a a := fun a => hreg a a (SameData.refl a)
  have hup : ∀ {f : State → State}, (∀ s, SameData s (f s)) → Keeps R (update f) := fun h => keeps_of_same hreg h
  have htrap : ∀ e s, R s (takeTrap e s) := fun e s => hreg _ _ (SameData.of_eq rfl)
  have hem : ∀ b, Keeps R (emit b) := fun b => keeps_emit hrefl b fun s h => hemit s b h
  have hrd : ∀ n, Keeps R (readBits n) := fun n => keeps_readBits hrefl n fun s h => hbits s n h
  have hset : ∀ s sym v, SameData s { s with clLen := s.clLen.set sym v } := fun s sym v =>
    ⟨rfl, rfl, rfl, rfl, rfl, rfl, rfl, rfl, rfl, rfl, rfl,
      fun ⟨h1, h2, h3, h4⟩ => ⟨by simpa using h1, h2, h3, h4⟩⟩
  have hzeroCl : ∀ s : State, SameData s { s with clLen := List.replicate Config.nCL 0 } := fun s =>
    ⟨rfl, rfl, rfl, rfl, rfl, rfl, rfl, rfl, rfl, rfl, rfl, fun ⟨_, h2, h3, h4⟩ => ⟨by simp, h2, h3, h4⟩⟩
  have hll : ∀ s : State, SameData s { s with llLen := builtLL s } := fun s =>
    ⟨rfl, rfl, rfl, rfl, rfl, rfl, rfl, rfl, rfl, rfl, rfl, fun ⟨h1, h2, _, h4⟩ => ⟨h1, h2, by simp [builtLL], h4⟩⟩
  have hdl : ∀ s : State, SameData s { s with dLen := builtDist s } := fun s =>
    ⟨rfl, rfl, rfl, rfl, rfl, rfl, rfl, rfl, rfl, rfl, rfl, fun ⟨h1, h2, h3, _⟩ => ⟨h1, h2, h3, by simp [builtDist]⟩⟩
  have key : ∀ op : Op Unit, exec i s = finish op s → Keeps R op → R s t := fun op he hk =>
    finish_keeps htrans htrap hk (he ▸ h)
  rcases exec_shape hi hs with hm | hm | hm | hm | hm | ⟨b, hm⟩ | hm | rfl | ⟨v, rfl⟩
  · obtain ⟨k, he⟩ := exec_of_lengthRow hm s
    exact key _ he (keeps_matchLength htrans hreg hbits k)
  · obtain ⟨k, he⟩ := exec_of_distanceRow hm s
    exact key _ he (keeps_matchDistance htrans hreg hbits k)
  · obtain ⟨k, he⟩ := exec_of_codeLengthRow hm s
    exact key _ he (hup fun s => sameData_appendFlat k 1 s)
  · simp only [List.mem_cons, List.not_mem_nil, or_false] at hm
    rcases hm with rfl | rfl
    · exact key _ rfl (keeps_zeroRun htrans hreg hbits 3 3)
    · exact key _ rfl (keeps_zeroRun htrans hreg hbits 11 7)
  · have he : exec i s = finish (raise .invalidCode) s := by
      simp only [List.mem_cons, List.not_mem_nil, or_false] at hm
      rcases hm with rfl | rfl | rfl | rfl <;> rfl
    exact key _ he (keeps_raise hrefl _)
  · simp only [List.mem_cons, List.not_mem_nil, or_false] at hm
    rcases hm with rfl | rfl | rfl | rfl
    · exact key (blockHeader b 0 .storedLen) rfl (hup fun _ => SameData.of_eq rfl)
    · exact key (blockHeader b 1 .sym) rfl (hup fun _ => SameData.of_eq rfl)
    · exact key (blockHeader b 2 .dynCounts) rfl (hup fun _ => SameData.of_eq rfl)
    · exact key (update (fun s => { s with bfinal := b, btype := 3 }) >>= fun _ => raise .reservedBlockType) rfl
        (keeps_bind htrans (hup fun _ => SameData.of_eq rfl) fun _ => keeps_raise hrefl _)
  · simp only [List.mem_cons, List.not_mem_nil, or_false] at hm
    rcases hm with rfl | rfl | rfl | rfl | rfl
    all_goals
      refine key _ rfl ?_
      repeat' first
        | exact hem _
        | exact hrd _
        | exact keeps_getState hrefl
        | exact keeps_require hrefl _ _
        | exact keeps_readWindow hrefl
        | exact keeps_readClLens hrefl htrans (fun s h => hbits s 3 h) (fun s sym v => hreg _ _ (hset s sym v)) _
        | exact hup fun s => hzeroCl s
        | exact hup fun s => hll s
        | exact hup fun s => hdl s
        | exact hup fun s => sameData_appendFlat _ _ s
        | exact hup fun _ => SameData.of_eq rfl
        | refine keeps_ite ?_ ?_
        | refine keeps_bind htrans ?_ fun _ => ?_
  · exact key blockEnd rfl (keeps_blockEnd hreg)
  · exact key (emit v) rfl (hem v)

/-- The fetch reads bits and writes `BFINAL`. -/
theorem fetch_keeps (htrans : ∀ a b c, R a b → R b c → R a c) (hreg : ∀ s t, SameData s t → R s t)
    (hbits : ∀ s n, linPos s + n ≤ 8 * s.inLen.toNat → R s (cursorTo (linPos s + n) s)) : Keeps R fetch := by
  have hrefl : ∀ a, R a a := fun a => hreg a a (SameData.refl a)
  have hup : ∀ {f : State → State}, (∀ s, SameData s (f s)) → Keeps R (update f) := fun h => keeps_of_same hreg h
  have hrd : ∀ n, Keeps R (readBits n) := fun n => keeps_readBits hrefl n fun s h => hbits s n h
  have hhd : ∀ lens m, Keeps R (huffDecode lens m) := keeps_huffDecode hrefl htrans fun s h => hbits s 1 h
  have hdec : ∀ sel, Keeps R (decoded sel) := by
    intro sel
    unfold decoded
    split
    · exact keeps_pure hrefl _
    · exact keeps_stopRefuse hrefl _
  intro s
  have hph : ∀ {op : Op (Option Instr)}, Keeps R op → fetch s = op s → R s (endState (fetch s)) := by
    intro op hk he
    rw [he]
    exact hk s
  cases hp : s.phase <;> simp only [fetch, bind_apply, getState_apply, hp]
  case blkHdr =>
    exact keeps_bind htrans (hrd 1) (fun _ => keeps_bind htrans (hup fun _ => SameData.of_eq rfl) fun _ =>
      keeps_bind htrans (hrd 2) fun _ => hdec _) s
  case dynLens =>
    exact keeps_bind htrans (keeps_getState hrefl) (fun _ => keeps_ite (keeps_pure hrefl _)
      (keeps_bind htrans (hhd _ _) fun _ => hdec _)) s
  case sym =>
    exact keeps_bind htrans (keeps_getState hrefl) (fun _ => keeps_ite (keeps_bind htrans (hhd _ _) fun _ => hdec _)
      (keeps_stopFault hrefl _)) s
  case symDist =>
    exact keeps_bind htrans (keeps_getState hrefl) (fun _ => keeps_ite (keeps_bind htrans (hhd _ _) fun _ => hdec _)
      (keeps_stopFault hrefl _)) s
  all_goals first
    | exact keeps_stopFault hrefl _ s
    | exact hdec _ s

end kinds

end Sys2Proof.Machine
end

