-- ==== Sys2Proof/Laws/PerInstr.lean ====
section
/-! SUPPORT. Per instruction: decoding an instruction's selector gives the instruction back (spec/30_encoding.md R99). -/

namespace Sys2Proof.Laws.SelectorRoundTrip

/-- The opcode map sends the instruction's selector to the instruction. -/
def Statement (i : Instr) : Prop := decode (selectorOf i) = .ok i

theorem gzHdr : Statement .gzHdr := rfl
theorem gzFextra : Statement .gzFextra := rfl
theorem gzFname : Statement .gzFname := rfl
theorem gzFcomment : Statement .gzFcomment := rfl
theorem gzFhcrc : Statement .gzFhcrc := rfl
theorem gzTrailer : Statement .gzTrailer := rfl
theorem blkStored (bfinal : BitVec 1) : Statement (.blkStored bfinal) := rfl
theorem blkFixed (bfinal : BitVec 1) : Statement (.blkFixed bfinal) := rfl
theorem blkDynamic (bfinal : BitVec 1) : Statement (.blkDynamic bfinal) := rfl
theorem blkReserved (bfinal : BitVec 1) : Statement (.blkReserved bfinal) := rfl
theorem storedLen : Statement .storedLen := rfl
theorem storedByte : Statement .storedByte := rfl
theorem dynCounts : Statement .dynCounts := rfl
theorem dynCllen : Statement .dynCllen := rfl
theorem dynBuild : Statement .dynBuild := rfl
theorem clLen0 : Statement .clLen0 := rfl
theorem clLen1 : Statement .clLen1 := rfl
theorem clLen2 : Statement .clLen2 := rfl
theorem clLen3 : Statement .clLen3 := rfl
theorem clLen4 : Statement .clLen4 := rfl
theorem clLen5 : Statement .clLen5 := rfl
theorem clLen6 : Statement .clLen6 := rfl
theorem clLen7 : Statement .clLen7 := rfl
theorem clLen8 : Statement .clLen8 := rfl
theorem clLen9 : Statement .clLen9 := rfl
theorem clLen10 : Statement .clLen10 := rfl
theorem clLen11 : Statement .clLen11 := rfl
theorem clLen12 : Statement .clLen12 := rfl
theorem clLen13 : Statement .clLen13 := rfl
theorem clLen14 : Statement .clLen14 := rfl
theorem clLen15 : Statement .clLen15 := rfl
theorem clRep16 : Statement .clRep16 := rfl
theorem clZrep17 : Statement .clZrep17 := rfl
theorem clZrep18 : Statement .clZrep18 := rfl
theorem lit (value : Byte) : Statement (.lit value) := by
  have h := value.isLt
  simp [Statement, decode, decodeLL, selectorOf, h]
theorem eob : Statement .eob := rfl
theorem len257 : Statement .len257 := rfl
theorem len258 : Statement .len258 := rfl
theorem len259 : Statement .len259 := rfl
theorem len260 : Statement .len260 := rfl
theorem len261 : Statement .len261 := rfl
theorem len262 : Statement .len262 := rfl
theorem len263 : Statement .len263 := rfl
theorem len264 : Statement .len264 := rfl
theorem len265 : Statement .len265 := rfl
theorem len266 : Statement .len266 := rfl
theorem len267 : Statement .len267 := rfl
theorem len268 : Statement .len268 := rfl
theorem len269 : Statement .len269 := rfl
theorem len270 : Statement .len270 := rfl
theorem len271 : Statement .len271 := rfl
theorem len272 : Statement .len272 := rfl
theorem len273 : Statement .len273 := rfl
theorem len274 : Statement .len274 := rfl
theorem len275 : Statement .len275 := rfl
theorem len276 : Statement .len276 := rfl
theorem len277 : Statement .len277 := rfl
theorem len278 : Statement .len278 := rfl
theorem len279 : Statement .len279 := rfl
theorem len280 : Statement .len280 := rfl
theorem len281 : Statement .len281 := rfl
theorem len282 : Statement .len282 := rfl
theorem len283 : Statement .len283 := rfl
theorem len284 : Statement .len284 := rfl
theorem len285 : Statement .len285 := rfl
theorem llRsvd286 : Statement .llRsvd286 := rfl
theorem llRsvd287 : Statement .llRsvd287 := rfl
theorem dist0 : Statement .dist0 := rfl
theorem dist1 : Statement .dist1 := rfl
theorem dist2 : Statement .dist2 := rfl
theorem dist3 : Statement .dist3 := rfl
theorem dist4 : Statement .dist4 := rfl
theorem dist5 : Statement .dist5 := rfl
theorem dist6 : Statement .dist6 := rfl
theorem dist7 : Statement .dist7 := rfl
theorem dist8 : Statement .dist8 := rfl
theorem dist9 : Statement .dist9 := rfl
theorem dist10 : Statement .dist10 := rfl
theorem dist11 : Statement .dist11 := rfl
theorem dist12 : Statement .dist12 := rfl
theorem dist13 : Statement .dist13 := rfl
theorem dist14 : Statement .dist14 := rfl
theorem dist15 : Statement .dist15 := rfl
theorem dist16 : Statement .dist16 := rfl
theorem dist17 : Statement .dist17 := rfl
theorem dist18 : Statement .dist18 := rfl
theorem dist19 : Statement .dist19 := rfl
theorem dist20 : Statement .dist20 := rfl
theorem dist21 : Statement .dist21 := rfl
theorem dist22 : Statement .dist22 := rfl
theorem dist23 : Statement .dist23 := rfl
theorem dist24 : Statement .dist24 := rfl
theorem dist25 : Statement .dist25 := rfl
theorem dist26 : Statement .dist26 := rfl
theorem dist27 : Statement .dist27 := rfl
theorem dist28 : Statement .dist28 := rfl
theorem dist29 : Statement .dist29 := rfl
theorem dRsvd30 : Statement .dRsvd30 := rfl
theorem dRsvd31 : Statement .dRsvd31 := rfl
theorem copy : Statement .copy := rfl
theorem start : Statement .start := rfl

end Sys2Proof.Laws.SelectorRoundTrip
end

