-- ==== Sys2Proof/Tests/Slice0.lean ====
section
/-! SUPPORT. Tests on fixed values, and a witness for the hypotheses of every statement that has some. Expected values
are the spec's worked examples (spec/95_test_vectors.md, cited by vector) or read off its tables by hand. -/

namespace Sys2Proof.Tests

set_option Elab.async false

open Sys2Proof.Machine

/-- A state in a phase with these input bytes, the cursor at the first, everything else as after reset. -/
def st (p : Phase) (bytes : List Byte) : State :=
  { State.reset with
    phase := p, inLen := BitVec.ofNat 32 bytes.length, inMem := bytes.zipIdx.map fun x => (x.2, x.1) }

/-- The next state, if there is one. -/
def nextOf : Host.Outcome State Fault Refusal → Option State
  | .next t => some t
  | .fault _ => none
  | .refused _ => none

theorem exists_next {o : Host.Outcome State Fault Refusal} (h : (nextOf o).isSome = true) : ∃ t, o = .next t := by
  cases o with
  | next t => exact ⟨t, rfl⟩
  | fault f => cases h
  | refused r => cases h

/-- An operation's answer and the cursor it leaves. -/
def okAt {α : Type} : EStateM.Result Stop State α → Option (α × Nat × Nat)
  | .ok v t => some (v, t.bytePos.toNat, t.bitOff.toNat)
  | .error _ _ => none

/-- How an operation ended early and the cursor it leaves. -/
def stopAt {α : Type} : EStateM.Result Stop State α → Option (Stop × Nat × Nat)
  | .ok _ _ => none
  | .error e t => some (e, t.bytePos.toNat, t.bitOff.toNat)

/-! ### WellFormed: each check refuses an ill-formed term -/

/-- A context with an empty header, the CL codes of the worked example, and the fixed tables. -/
def ctx (p : Phase) : Context := { phase := p, flg := 0, cl := [3, 3, 3, 3, 3, 2, 4, 4], ll := fixLL, dist := fixD }

theorem test_inPhase_refuses_header_in_sym : inPhase (ctx .sym) .gzHdr = false := by decide
theorem test_inPhase_refuses_start_while_busy : inPhase (ctx .sym) .start = false := by decide
theorem test_present_refuses_absent_field : present (ctx .hdrExtra) .gzFextra = false := by decide
theorem test_coded_refuses_symbol_without_code : coded (ctx .dynLens) .clRep16 = false := by decide
theorem test_wellFormed_refuses_each :
    wellFormed (ctx .sym) .gzHdr = false ∧ wellFormed (ctx .hdrExtra) .gzFextra = false ∧
      wellFormed (ctx .dynLens) .clRep16 = false := by decide
theorem test_wellFormed_accepts :
    wellFormed (ctx .dynLens) .clLen6 = true ∧ wellFormed (ctx .hdrFixed) .gzHdr = true ∧
      wellFormed (ctx .blkHdr) (.blkFixed 1) = true ∧ wellFormed (ctx .idle) .start = true ∧
      wellFormed (ctx .symDist) .dRsvd31 = true := by decide

/-! ### Decoding: words written out from the encodings -/

/-- GZ.*: the first three bytes are 1F 8B 08 (R81), so the 24-bit word is 0x08_8B_1F; the others are named by their phase. -/
theorem test_decode_gz :
    decodeTableWord 24 0b000010001000101100011111 = some .gzHdr ∧ decode (.byPhase .hdrExtra) = .ok .gzFextra ∧
      decode (.byPhase .hdrName) = .ok .gzFname ∧ decode (.byPhase .hdrComment) = .ok .gzFcomment ∧
      decode (.byPhase .hdrHcrc) = .ok .gzFhcrc ∧ decode (.byPhase .trailer) = .ok .gzTrailer := by decide

/-- Rejected by name: the two wrong magics, a wrong method, a CTRL value with bit 0 clear, symbols no alphabet has. -/
theorem test_decode_rejects :
    decode (.magic 0x088B1E) = .error .invalidMagic ∧ decode (.magic 0x08831F) = .error .invalidMagic ∧
      decode (.magic 0x078B1F) = .error .unsupportedMethod ∧ decode (.ctrl 2) = .error .startNotSet ∧
      decode (.cl 19) = .error (.noSuchSymbol 19) ∧ decode (.ll 288) = .error (.noSuchSymbol 288) ∧
      decode (.dist 32) = .error (.noSuchSymbol 32) ∧ decode (.byPhase .sym) = .error (.noOperation .sym) := by decide

/-- BLK.*: BTYPE 00, 01, 10, 11 (R87). -/
theorem test_decode_blk :
    decode (.btype 0 0b00) = .ok (.blkStored 0) ∧ decode (.btype 1 0b01) = .ok (.blkFixed 1) ∧
      decode (.btype 0 0b10) = .ok (.blkDynamic 0) ∧ decode (.btype 1 0b11) = .ok (.blkReserved 1) := by decide

/-- STORED.*, DYN.*, COPY and START are named by their phase or by CTRL bit 0. -/
theorem test_decode_byPhase :
    decode (.byPhase .storedLen) = .ok .storedLen ∧ decode (.byPhase .storedCopy) = .ok .storedByte ∧
      decode (.byPhase .dynCounts) = .ok .dynCounts ∧ decode (.byPhase .dynCllen) = .ok .dynCllen ∧
      decodeTableWord 0 0 = some .dynBuild ∧ decode (.byPhase .copy) = .ok .copy ∧ decode (.ctrl 0b1) = .ok .start := by
  decide

/-- CL.* (R91). -/
theorem test_decode_cl :
    (codeLengthRows.map fun r => decode (.cl r.2.toNat)) = codeLengthRows.map (fun r => .ok r.1) ∧
      decode (.cl 16) = .ok .clRep16 ∧ decode (.cl 17) = .ok .clZrep17 ∧ decode (.cl 18) = .ok .clZrep18 := by decide

/-- LIT, EOB, LEN.*, LL.RSVD.* (R92): symbol 265 is 0b100001001. -/
theorem test_decode_ll :
    decodeTableWord 16 0b01100001 = some (.lit 0x61) ∧ decodeTableWord 16 0b11111111 = some (.lit 0xFF) ∧
      decodeTableWord 16 0b100000000 = some .eob ∧ decodeTableWord 16 0b100001001 = some .len265 ∧
      decodeTableWord 16 0b100011101 = some .len285 ∧ decodeTableWord 16 0b100011110 = some .llRsvd286 ∧
      decodeTableWord 16 0b100011111 = some .llRsvd287 ∧ decodeTableWord 16 0b100100000 = none := by decide

/-- DIST.* and D.RSVD.* (R93). -/
theorem test_decode_dist :
    decodeTableWord 8 0b00000 = some .dist0 ∧ decodeTableWord 8 0b01111 = some .dist15 ∧
      decodeTableWord 8 0b11101 = some .dist29 ∧ decodeTableWord 8 0b11110 = some .dRsvd30 ∧
      decodeTableWord 8 0b11111 = some .dRsvd31 ∧ decodeTableWord 8 0b100000 = none := by decide

/-- The bits of the encoder: a final fixed block is 1,1,0 (R87); the fixed codes of vector T2. -/
theorem test_encode_bits :
    encode (ctx .blkHdr) (.blkFixed 1) = [true, true, false] ∧
      encode (ctx .blkHdr) (.blkDynamic 1) = [true, false, true] ∧
      encode (ctx .sym) .eob = [false, false, false, false, false, false, false] ∧
      encode (ctx .sym) .len285 = [true, true, false, false, false, true, false, true] ∧
      encode (ctx .symDist) .dist15 = [false, true, true, true, true] := by decide +kernel

/-- The fetch of vector V1's payload 4b 4c: the block header at bit 0, the literal 0x61 at bit 3. -/
theorem test_fetch_v1 :
    okAt (fetch (st .blkHdr [0x4b])) = some (some (.blkFixed 1), 0, 3) ∧
      okAt (fetch { st .sym [0x4b, 0x4c] with btype := 1, bitOff := 3 }) = some (some (.lit 0x61), 1, 3) := by
  decide +kernel

/-- `withFetchWord` after reset: the next step runs the word's instruction. -/
theorem test_withFetchWord :
    (nextOf (step (State.reset.withFetchWord 24 0x088B1F))).map (fun t => (t.phase, t.bytePos.toNat)) =
        some (.hdrExtra, 10) ∧
      (nextOf (step (State.reset.withFetchWord 16 0x61))).map (fun t => (t.outPos.toNat, t.crc)) =
        some (1, 0xE8B7BE43) ∧
      (nextOf (step (State.reset.withFetchWord 16 257))).map (fun t => (t.phase, t.mLen.toNat)) = some (.symDist, 3) ∧
      (nextOf (step (State.reset.withFetchWord 8 30))).map (fun t => (t.phase, t.err)) = some (.error, 5) ∧
      (nextOf (step (State.reset.withFetchWord 0 0))).map (fun t => (t.phase, t.err)) = some (.error, 4) := by
  decide +kernel

/-! ### The reader and the Huffman decoder -/

/-- Vector B1: 4b 4c a5. -/
theorem test_readBits_b1 :
    okAt (readBits 2 { st .idle [0x4b, 0x4c, 0xa5] with bitOff := 1 }) = some (1, 0, 3) ∧
      okAt (readBits 13 { st .idle [0x4b, 0x4c, 0xa5] with bytePos := 1, bitOff := 3 }) = some (5289, 3, 0) ∧
      stopAt (readBits 1 { st .idle [0x4b, 0x4c, 0xa5] with bytePos := 3 }) = some (.trap .unexpectedEof, 3, 0) := by
  decide +kernel

/-- Vector B4: 32 bits at bit 7 touch five bytes; four bytes, little-endian. -/
theorem test_readBits_b4 :
    okAt (readBits 32 { st .idle [0x80, 0xff, 0xff, 0xff, 0x7f] with bitOff := 7 }) = some (0xFFFFFFFF, 4, 7) ∧
      okAt (readBytesLe 4 { st .idle [0x00, 0x78, 0x56, 0x34, 0x12] with bytePos := 1 }) = some (0x12345678, 5, 0) := by
  decide +kernel

/-- Vector V2: stream bits 1,1,1,0 decode to symbol 6 after 4 bits. Vector T5: bits 1,1 and the end of the input. -/
theorem test_huffDecode_v2 :
    okAt (huffDecode [3, 3, 3, 3, 3, 2, 4, 4] 7 (st .idle [0b0111])) = some (6, 0, 4) ∧
      stopAt (huffDecode [3, 3, 3, 3, 3, 2, 4, 4] 7 { st .idle [0b11000000] with bitOff := 6 }) =
        some (.trap .unexpectedEof, 1, 0) := by decide +kernel

/-- Vector T3. -/
theorem test_kraft_t3 :
    kraftCheck [1] 7 = .under ∧ kraftCheck [1, 1] 7 = .ok ∧ kraftCheck [1, 1, 1] 7 = .over ∧
      kraftCheck [1, 2, 2, 2] 7 = .over ∧ kraftCheck [0, 0] 7 = .under := by decide

/-! ### Single steps -/

/-- Vector V1: the header. -/
theorem test_gzHdr :
    (nextOf (exec .gzHdr (st .hdrFixed [0x1f, 0x8b, 8, 0x1e, 4, 3, 2, 1, 0, 3]))).map
        (fun t => (t.phase, t.bytePos.toNat, t.hdr.flg, t.hdr.mtime, t.hdr.os)) =
      some (.hdrExtra, 10, 0x1e, 0x01020304, 3) := by decide +kernel

/-- R201: byte 1 is not 8B; byte 2 is not 8. -/
theorem test_gzHdr_faults :
    (nextOf (exec .gzHdr (st .hdrFixed [0x1f, 0x8c, 8]))).map (fun t => (t.err, t.bytePos.toNat)) = some (2, 2) ∧
      (nextOf (exec .gzHdr (st .hdrFixed [0x1f, 0x8b, 7]))).map (fun t => (t.err, t.bytePos.toNat)) = some (3, 3) := by
  decide +kernel

/-- A state whose header says every optional field is present. -/
def optional (p : Phase) (bytes : List Byte) : State :=
  { st p bytes with hdr := { HeaderRecord.zero with flg := 0b00011110 } }

/-- R202: XLEN = 2, little-endian. -/
theorem test_gzFextra :
    (nextOf (exec .gzFextra (optional .hdrExtra [2, 0, 0x41, 0x42, 9]))).map
        (fun t => (t.phase, t.bytePos.toNat, t.hdr.extraOff.toNat, t.hdr.extraLen.toNat)) =
      some (.hdrName, 4, 2, 2) := by decide +kernel

/-- R203, R204: the length does not count the terminator. -/
theorem test_gzStrings :
    (nextOf (exec .gzFname (optional .hdrName [0x61, 0x62, 0, 7]))).map
        (fun t => (t.phase, t.bytePos.toNat, t.hdr.nameOff.toNat, t.hdr.nameLen.toNat)) = some (.hdrComment, 3, 0, 2) ∧
      (nextOf (exec .gzFcomment (optional .hdrComment [0x61, 0x62]))).map
        (fun t => (t.phase, t.err, t.bytePos.toNat, t.hdr.commentLen.toNat)) = some (.error, 1, 2, 0) := by
  decide +kernel

/-- R205 with the known CRC-32 of "abc", 0x352441C2, whose low half is 0x41C2: the field right, and wrong and checked. -/
theorem test_gzFhcrc :
    (nextOf (exec .gzFhcrc { optional .hdrHcrc [0x61, 0x62, 0x63, 0xC2, 0x41] with bytePos := 3, hcrcCheck := 1 })).map
        (fun t => (t.phase, t.hdr.hcrc)) = some (.blkHdr, 0x41C2) ∧
      (nextOf (exec .gzFhcrc { optional .hdrHcrc [0x61, 0x62, 0x63, 0xC3, 0x41] with bytePos := 3, hcrcCheck := 1 })).map
        (fun t => (t.phase, t.err)) = some (.error, 11) := by decide +kernel

/-- Vector V1: EOB left the cursor 2 bits into the byte 00; the trailer is at the next byte. -/
theorem test_gzTrailer :
    (nextOf (exec .gzTrailer
        { st .trailer [0x00, 0xc2, 0x41, 0x24, 0x35, 3, 0, 0, 0] with bitOff := 2, crc := 0x352441C2, outPos := 3 })).map
        (fun t => (t.phase, t.bytePos.toNat, t.trl.crc32, t.trl.isize.toNat, t.trailing)) =
      some (.done, 9, 0x352441C2, 3, 0) := by decide +kernel

/-- R210: the CRC is tested first, then the size. -/
theorem test_gzTrailer_faults :
    (nextOf (exec .gzTrailer { st .trailer [1, 0, 0, 0, 1, 0, 0, 0] with outPos := 2 })).map (·.err) = some 9 ∧
      (nextOf (exec .gzTrailer { st .trailer [0, 0, 0, 0, 1, 0, 0, 0] with outPos := 2 })).map (·.err) = some 10 := by
  decide +kernel

/-- Vector K4: LEN = 2, NLEN = FFFD after five padding bits. -/
theorem test_storedLen :
    (nextOf (exec .storedLen { st .storedLen [0xf9, 2, 0, 0xfd, 0xff] with bitOff := 3 })).map
        (fun t => (t.phase, t.bytePos.toNat, t.bitOff.toNat, t.sRem.toNat)) = some (.storedCopy, 5, 0, 2) ∧
      (nextOf (exec .storedLen (st .storedLen [2, 0, 0xfc, 0xff]))).map (fun t => (t.err, t.bytePos.toNat)) =
        some (7, 4) := by decide +kernel

/-- R167: one byte, and the end of a block. -/
theorem test_storedByte :
    (nextOf (exec .storedByte { st .storedCopy [0x61] with sRem := 1 })).map
        (fun t => (t.phase, t.outMem, t.crc, t.sRem.toNat)) = some (.storedCopy, [(0, 0x61)], 0xE8B7BE43, 0) ∧
      (nextOf (exec .storedByte { st .storedCopy [] with bfinal := 1 })).map (·.phase) = some .trailer := by
  decide +kernel

/-- Vector V5a: 0xf5 holds HLITF = 30, so HLIT = 287 is out of range; V5c: 0xed, HLIT = 286 passes. -/
theorem test_dynCounts :
    (nextOf (exec .dynCounts { st .dynCounts [0xf5, 0, 0] with bitOff := 3 })).map
        (fun t => (t.err, t.hlit.toNat, t.bytePos.toNat, t.bitOff.toNat)) = some (4, 287, 2, 1) ∧
      (nextOf (exec .dynCounts { st .dynCounts [0xed, 0, 0] with bitOff := 3 })).map
        (fun t => (t.phase, t.hlit.toNat, t.hdist.toNat, t.hclen.toNat)) = some (.dynCllen, 286, 1, 4) := by
  decide +kernel

/-- Vector D5 and vector D1: the four CLL fields from bit 1 of byte 12. -/
theorem test_dynCllen :
    (nextOf (exec .dynCllen { st .dynCllen [0x80, 0xe4] with bitOff := 1, hclen := 4 })).map
        (fun t => (t.phase, t.clLen.getD 0 0, t.clLen.getD 18 0, t.clLen.getD 16 0, t.bytePos.toNat, t.bitOff.toNat)) =
      some (.dynLens, 1, 1, 0, 1, 5) ∧
      (nextOf (exec .dynCllen { st .dynCllen [0, 0] with bitOff := 1, hclen := 4 })).map (fun t => (t.phase, t.err)) =
        some (.error, 4) := by decide +kernel

/-- A state in the middle of a dynamic block's code lengths. -/
def lens (bytes : List Byte) (idx : BitVec 9) : State :=
  { st .dynLens bytes with btype := 2, hlit := 257, hdist := 1, idx := idx, flat := (List.replicate 318 0).set 9 7 }

/-- R144, every row. -/
theorem test_clLen :
    (codeLengthRows.map fun r => (nextOf (exec r.1 (lens [] 10))).map fun t => (t.flat.getD 10 0, t.idx.toNat)) =
      codeLengthRows.map fun r => some (r.2, 11) := by decide +kernel

/-- R145: 3 + 1 times the previous length; with nothing before it (vector D4). -/
theorem test_clRep16 :
    (nextOf (exec .clRep16 (lens [0b01] 10))).map
        (fun t => (t.flat.getD 13 0, t.flat.getD 14 0, t.idx.toNat, t.bitOff.toNat)) = some (7, 0, 14, 2) ∧
      (nextOf (exec .clRep16 (lens [0b01] 0))).map (fun t => (t.err, t.bitOff.toNat)) = some (4, 2) := by decide +kernel

/-- R146, R147: 3 + 7 zeros; vector D6's second run, 11 + 109 zeros up to the total 258; one more is too many. -/
theorem test_clZrep :
    (nextOf (exec .clZrep17 (lens [0b111] 9))).map (fun t => (t.flat.getD 9 1, t.idx.toNat, t.bitOff.toNat)) =
        some (0, 19, 3) ∧
      (nextOf (exec .clZrep18 (lens [109] 138))).map (fun t => (t.idx.toNat, t.bitOff.toNat)) = some (258, 7) ∧
      (nextOf (exec .clZrep18 (lens [110] 138))).map (fun t => (t.phase, t.err)) = some (.error, 4) := by decide +kernel

/-- R148: symbols 0 and 256 of length 1, distances 0 and 1 of length 1; vector D6, all lengths 0. -/
theorem test_dynBuild :
    (nextOf (exec .dynBuild
        { lens [] 259 with
          hdist := 2, flat := ((((List.replicate 318 0).set 0 1).set 256 1).set 257 1).set 258 1 })).map
        (fun t => (t.phase, t.llLen.getD 0 0, t.llLen.getD 256 0, t.llLen.getD 257 0, t.dLen.getD 1 0, t.dLen.getD 2 0)) =
      some (.sym, 1, 1, 0, 1, 0) ∧
      (nextOf (exec .dynBuild { lens [] 258 with flat := List.replicate 318 0 })).map (·.err) = some 4 := by
  decide +kernel

/-- Vector V1: the literal 0x61; R183 with the output full. -/
theorem test_lit :
    (nextOf (exec (.lit 0x61) (st .sym []))).map (fun t => (t.phase, t.outMem, t.outPos.toNat, t.crc)) =
        some (.sym, [(0, 0x61)], 1, 0xE8B7BE43) ∧
      (nextOf (exec (.lit 0x61) { st .sym [] with outCap := 0 })).map (fun t => (t.err, t.outMem)) = some (12, []) := by
  decide +kernel

/-- R171, R176. -/
theorem test_eob :
    (nextOf (exec .eob { st .sym [] with bfinal := 1 })).map (·.phase) = some .trailer ∧
      (nextOf (exec .eob (st .sym []))).map (·.phase) = some .blkHdr := by decide +kernel

/-- R94, every row with its extra bits all 1: the longest length of each row is the next row's base less 1, and 258. -/
theorem test_len :
    (lengthRows.map fun r => (nextOf (exec r.1 (st .sym [0xff]))).map fun t => (t.phase, t.bitOff.toNat)) =
        lengthRows.map (fun r => some (.symDist, r.2.2)) ∧
      (nextOf (exec .len265 (st .sym [0b1]))).map (·.mLen.toNat) = some 12 ∧
      (nextOf (exec .len284 (st .sym [0xff]))).map (·.mLen.toNat) = some 258 ∧
      (nextOf (exec .len285 (st .sym []))).map (·.mLen.toNat) = some 258 := by decide +kernel

/-- Vector K3: DIST 15 with extra 7 is 200; R173: a distance one beyond the output. -/
theorem test_dist :
    (nextOf (exec .dist15 { st .symDist [7] with outPos := 200 })).map (fun t => (t.phase, t.mDist.toNat)) =
        some (.copy, 200) ∧
      (nextOf (exec .dist15 { st .symDist [7] with outPos := 199 })).map (fun t => (t.phase, t.err)) =
        some (.error, 8) ∧
      (nextOf (exec .dist29 { st .symDist [0xff, 0xff] with outPos := 32768 })).map (·.mDist.toNat) = some 32768 := by
  decide +kernel

/-- Vector V4: distance 1 repeats the byte before; with nothing left COPY returns to SYM. -/
theorem test_copy :
    (nextOf (exec .copy { st .copy [] with outMem := [(0, 0x41)], outPos := 1, mLen := 5, mDist := 1 })).map
        (fun t => (t.outMem, t.outPos.toNat, t.mLen.toNat, t.phase)) = some ([(0, 0x41), (1, 0x41)], 2, 4, .copy) ∧
      (nextOf (exec .copy (st .copy []))).map (·.phase) = some .sym := by decide +kernel

/-- R174, R175, R165. -/
theorem test_reserved :
    (nextOf (exec .llRsvd286 (st .sym []))).map (·.err) = some 5 ∧
      (nextOf (exec .dRsvd30 (st .symDist []))).map (·.err) = some 5 ∧
      (nextOf (exec (.blkReserved 1) (st .blkHdr []))).map (fun t => (t.err, t.bfinal, t.btype)) = some (6, 1, 3) := by
  decide +kernel

/-- R232, R233, and the register reads of R30 after vector V1's run. -/
theorem test_host :
    (nextOf (step { st .done [] with pending := [.regWrite 0 4 1], outPos := 3, trailing := 1 })).map
        (fun t => (t.phase, t.outPos.toNat, t.trailing)) = some (.hdrFixed, 0, 0) ∧
      (nextOf (step { st .done [] with pending := [.regRead 0x0C 4] })).map (·.hostData.toNat) = some 2 ∧
      (nextOf (step { st .done [] with pending := [.regRead 0x24 4], crc := 0x352441C2 })).map (·.hostData) =
        some 0x352441C2 := by decide +kernel

/-- R209, with the CRC of "abc" of the spec's example. -/
theorem test_crc32 : crc32 [0x61, 0x62, 0x63] = 0x352441C2 := by decide +kernel

/-! ### Witnesses: states and operands that meet the hypotheses of the statements, at the boundaries of their clauses -/

/-- A run that has produced nothing yet is sound when its cursor and its phase are. -/
theorem inv_of_fresh {s : State} (hin : Memory.wf s.inMem ∧ ∀ p ∈ s.inMem, p.1 < 2 ^ 32)
    (hout : s.outMem = [] ∧ s.outPos = 0 ∧ s.crc = 0 ∧ s.err = 0 ∧ s.trailing = 0)
    (hsizes : s.clLen.length = 19 ∧ s.flat.length = 318 ∧ s.llLen.length = 288 ∧ s.dLen.length = 32)
    (hbusy : s.phase.busy = true) (hcursor : CursorOk s) (hphase : PhaseOk s) : Inv s := by
  obtain ⟨h1, h2, h3, h4, h5⟩ := hout
  have hne : s.phase ≠ .error ∧ s.phase ≠ .done := by
    constructor <;> intro h <;> rw [h] at hbusy <;> cases hbusy
  refine ⟨hin.1, h1 ▸ List.Pairwise.nil, hin.2, by simp [h1], hsizes, by simp [h2], ⟨by simp [h4, hne.1], by simp [h4]⟩,
    by simp [h5], fun _ => ⟨hcursor, by simp [CrcOk, h2, h3, outBytes, crc32], fun a h => by simp [h2] at h, hphase⟩,
    fun h => absurd h hne.2⟩

/-- A soundly started run at its first step. -/
def atHeader : State := st .hdrFixed [0x1f]

/-- A final fixed block's header (vector V1). -/
def atBlock : State := st .blkHdr [0x4b]

/-- A fixed block at the literal 0x61, whose code in stream order is 1,0,0,1,0,0,0,1. -/
def atSymbol : State := { st .sym [0x89] with btype := 1 }

/-- A fixed block after the length 3, at distance symbol 15, whose code is 0,1,1,1,1. -/
def atDistance : State := { st .symDist [0x1e] with btype := 1, mLen := 3 }

/-- A dynamic block whose CL symbols 0 and 1 have codes 0 and 1, at CL symbol 0. -/
def atLength : State :=
  { st .dynLens [0] with btype := 2, hlit := 257, hdist := 1, clLen := ((List.replicate 19 0).set 0 1).set 1 1 }

/-- A trailer of an empty output. -/
def atTrailer : State := st .trailer [0, 0, 0, 0, 0, 0, 0, 0]

theorem inv_atHeader : Inv atHeader :=
  inv_of_fresh (by decide) (by decide) (by decide +kernel) rfl ⟨by decide, by decide⟩ rfl

theorem inv_atBlock : Inv atBlock :=
  inv_of_fresh (by decide) (by decide) (by decide +kernel) rfl ⟨by decide, by decide⟩ trivial

theorem inv_atSymbol : Inv atSymbol :=
  inv_of_fresh (by decide) (by decide) (by decide +kernel) rfl ⟨by decide, by decide⟩ (.inl rfl)

theorem inv_atDistance : Inv atDistance :=
  inv_of_fresh (by decide) (by decide) (by decide +kernel) rfl ⟨by decide, by decide⟩
    ⟨.inl rfl, by decide, by decide⟩

theorem inv_atLength : Inv atLength :=
  inv_of_fresh (by decide) (by decide) (by decide +kernel) rfl ⟨by decide, by decide⟩
    ⟨rfl, ⟨by decide, by decide, by decide, by decide⟩, by decide, by decide +kernel⟩

theorem inv_atTrailer : Inv atTrailer :=
  inv_of_fresh (by decide) (by decide) (by decide +kernel) rfl ⟨by decide, by decide⟩ trivial

theorem test_witness_DecodedSelectorIsTheMatchValue :
    decode (.ll 257) = .ok .len257 ∧ decode (.magic 0x088B1F) = .ok .gzHdr ∧ decode (.ctrl 0xFFFFFFFF) = .ok .start := by
  decide

/-- What `FetchReadsTheEncodedInstruction` and `StepRunsTheEncodedInstruction` assume. -/
def Encoded (s : State) (i : Instr) : Prop :=
  Inv s ∧ s.busy = true ∧ s.pending = [] ∧ wellFormed (contextOf s) i = true ∧
    (s.phase = .dynLens → s.idx.toNat < flatTotal s) ∧ StreamHolds s (encode (contextOf s) i)

theorem test_witness_FetchReadsTheEncodedInstruction :
    Encoded atHeader .gzHdr ∧ Encoded atBlock (.blkFixed 1) ∧ Encoded atSymbol (.lit 0x61) ∧
      Encoded atDistance .dist15 ∧ Encoded atLength .clLen0 :=
  ⟨⟨inv_atHeader, by decide, rfl, by decide, by decide, by decide, by decide⟩,
   ⟨inv_atBlock, by decide, rfl, by decide, by decide, by decide, by decide⟩,
   ⟨inv_atSymbol, by decide, rfl, by decide +kernel, by decide, by decide +kernel, by decide +kernel⟩,
   ⟨inv_atDistance, by decide, rfl, by decide +kernel, by decide, by decide +kernel, by decide +kernel⟩,
   ⟨inv_atLength, by decide, rfl, by decide +kernel, by decide, by decide +kernel, by decide +kernel⟩⟩

theorem test_witness_StepRunsTheEncodedInstruction : Encoded atBlock (.blkFixed 1) ∧ Encoded atLength .clLen0 :=
  ⟨test_witness_FetchReadsTheEncodedInstruction.2.1, test_witness_FetchReadsTheEncodedInstruction.2.2.2.2⟩

/-- The worked example's array (R122). -/
def example8 : List Nat := [3, 3, 3, 3, 3, 2, 4, 4]

theorem test_witness_CanonicalCodesFollowAssignment :
    7 < example8.length ∧ kraftCheck example8 15 ≠ .over ∧ 1 ≤ example8.getD 7 0 ∧ example8.getD 7 0 ≤ 15 := by decide

theorem test_witness_AssignedCodesArePrefixFree :
    kraftCheck example8 4 ≠ .over ∧ hasCode example8 0 = true ∧ hasCode example8 7 = true ∧ example8.getD 7 0 ≤ 4 := by
  decide

theorem test_witness_SymbolDecoderReadsItsCode :
    kraftCheck example8 4 ≠ .over ∧ hasCode example8 6 = true ∧ example8.getD 6 0 ≤ 4 ∧
      StreamHolds (st .idle [0b0111]) (codeBits example8 6) :=
  ⟨by decide, by decide, by decide, by decide, by decide⟩

theorem test_witness_CompleteArrayDecodesOrEndsInput :
    kraftCheck example8 4 = .ok ∧ linPos (st .idle []) ≤ 8 * (st .idle []).inLen.toNat := by decide

theorem test_witness_CountDecoderAgrees : linPos (st .idle [0b0111]) ≤ 8 * (st .idle [0b0111]).inLen.toNat := by decide

theorem test_witness_ReadBitsFollowsItsLoop : 0 ≤ Config.readMax ∧ 32 ≤ Config.readMax := by decide

/-- One, two and four bytes: exactly enough input, and one byte too little. -/
theorem test_witness_ReadBytesIsReadBits :
    (st .idle [1]).bitOff = 0 ∧ (st .idle [1]).bytePos.toNat + 1 ≤ (st .idle [1]).inLen.toNat ∧
      (st .idle [1]).inLen.toNat < (st .idle [1]).bytePos.toNat + 2 ∧
      (st .idle [1, 2, 3, 4]).bytePos.toNat + 4 ≤ (st .idle [1, 2, 3, 4]).inLen.toNat := by decide

/-- A cursor inside the last byte, and at the end. -/
theorem test_witness_AlignmentAndEndTest :
    CursorOk { st .idle [1] with bitOff := 7 } ∧ CursorOk { st .idle [1] with bytePos := 1 } :=
  ⟨⟨by decide, by decide⟩, by decide, by decide⟩

/-- The first `n` bytes of a header. -/
def header (n : Nat) : State := st .hdrFixed (([0x1f, 0x8b, 8, 0, 0, 0, 0, 0, 0, 3] : List Byte).take n)

theorem test_witness_GzHdrResult :
    (header 1).bitOff = 0 ∧ (header 1).inLen.toNat < (header 1).bytePos.toNat + 2 ∧
      (2 ≤ (st .hdrFixed [0x1f, 0x8c]).inLen.toNat ∧ le16 (st .hdrFixed [0x1f, 0x8c]) 0 ≠ 0x8B1F) ∧
      (le16 (header 2) 0 = 0x8B1F ∧ (header 2).inLen.toNat = 2) ∧
      (3 ≤ (st .hdrFixed [0x1f, 0x8b, 9]).inLen.toNat ∧ le16 (st .hdrFixed [0x1f, 0x8b, 9]) 0 = 0x8B1F ∧
        inByte (st .hdrFixed [0x1f, 0x8b, 9]) 2 ≠ 8) ∧
      (inByte (header 3) 2 = 8 ∧ (header 3).inLen.toNat = 3) ∧
      (le16 (header 4) 0 = 0x8B1F ∧ inByte (header 4) 2 = 8 ∧ 4 ≤ (header 4).inLen.toNat ∧ (header 7).inLen.toNat < 8) ∧
      (header 8).inLen.toNat = 8 ∧ (header 9).inLen.toNat = 9 ∧
      (le16 (header 10) 0 = 0x8B1F ∧ inByte (header 10) 2 = 8 ∧ 10 ≤ (header 10).inLen.toNat) := by decide

/-- Absent; no length; a payload one byte short; an empty and a whole payload. -/
theorem test_witness_GzFextraResult :
    (header 1).hdr.flg.getLsbD 2 = false ∧ (optional .hdrExtra [1]).hdr.flg.getLsbD 2 = true ∧
      (optional .hdrExtra [1]).inLen.toNat < 2 ∧
      (2 ≤ (optional .hdrExtra [1, 0]).inLen.toNat ∧
        (optional .hdrExtra [1, 0]).inLen.toNat < 2 + (le16 (optional .hdrExtra [1, 0]) 0).toNat) ∧
      2 + (le16 (optional .hdrExtra [0, 0]) 0).toNat ≤ (optional .hdrExtra [0, 0]).inLen.toNat ∧
      2 + (le16 (optional .hdrExtra [1, 0, 9]) 0).toNat ≤ (optional .hdrExtra [1, 0, 9]).inLen.toNat := by decide

/-- An empty string, a string of one byte, a string with no end, and no input at all. -/
theorem test_witness_GzStringResult :
    ((optional .hdrName [0]).bitOff = 0 ∧ 0 < (optional .hdrName [0]).inLen.toNat ∧ inByte (optional .hdrName [0]) 0 = 0) ∧
      (1 < (optional .hdrName [5, 0]).inLen.toNat ∧ (∀ j, j < 1 → inByte (optional .hdrName [5, 0]) j ≠ 0) ∧
        inByte (optional .hdrName [5, 0]) 1 = 0) ∧
      ((optional .hdrName [5]).inLen.toNat = 1 ∧ inByte (optional .hdrName [5]) 0 ≠ 0) ∧
      (optional .hdrComment []).inLen.toNat = 0 ∧ (optional .hdrName []).hdr.flg.getLsbD 3 = true ∧
      (optional .hdrName []).hdr.flg.getLsbD 4 = true ∧ (st .hdrName []).hdr.flg.getLsbD 3 = false ∧
      (st .hdrName []).hdr.flg.getLsbD 4 = false := by decide

/-- A header CRC of no bytes, which is 0: one byte short, unchecked, checked and right, checked and wrong. -/
theorem test_witness_GzFhcrcResult :
    (st .hdrHcrc []).hdr.flg.getLsbD 1 = false ∧ (optional .hdrHcrc [0]).hdr.flg.getLsbD 1 = true ∧
      (optional .hdrHcrc [0]).inLen.toNat < 2 ∧ 2 ≤ (optional .hdrHcrc [0, 0]).inLen.toNat ∧
      (optional .hdrHcrc [0, 0]).hcrcCheck = 0 ∧
      (crc32 (inBytes (optional .hdrHcrc [0, 0]) 0 0)).setWidth 16 = le16 (optional .hdrHcrc [0, 0]) 0 ∧
      (crc32 (inBytes (optional .hdrHcrc [1, 0]) 0 0)).setWidth 16 ≠ le16 (optional .hdrHcrc [1, 0]) 0 := by decide

/-- Too short by one byte for each field; the right trailer of no output; a wrong CRC; a wrong size; a byte after it. -/
theorem test_witness_GzTrailerResult :
    CursorOk atTrailer ∧ (st .trailer [0, 0, 0]).inLen.toNat < alignedPos (st .trailer [0, 0, 0]) + 4 ∧
      (4 ≤ (st .trailer [0, 0, 0, 0]).inLen.toNat ∧ (st .trailer [0, 0, 0, 0, 0, 0, 0]).inLen.toNat < 8) ∧
      (alignedPos atTrailer + 8 = atTrailer.inLen.toNat ∧ le32 atTrailer 0 = atTrailer.crc ∧
        le32 atTrailer 4 = BitVec.ofNat 32 (atTrailer.outPos.toNat % 2 ^ 32)) ∧
      le32 (st .trailer [1, 0, 0, 0, 0, 0, 0, 0]) 0 ≠ (st .trailer [1, 0, 0, 0, 0, 0, 0, 0]).crc ∧
      le32 (st .trailer [0, 0, 0, 0, 1, 0, 0, 0]) 4 ≠
        BitVec.ofNat 32 ((st .trailer [0, 0, 0, 0, 1, 0, 0, 0]).outPos.toNat % 2 ^ 32) ∧
      8 < (st .trailer [0, 0, 0, 0, 0, 0, 0, 0, 0]).inLen.toNat :=
  ⟨⟨by decide, by decide⟩, by decide⟩

/-- Each header operation answers a next state. -/
theorem test_witness_GzipHeaderFrame :
    ∀ i ∈ [Instr.gzHdr, .gzFextra, .gzFname, .gzFcomment, .gzFhcrc], ∃ t, exec i (header 10) = .next t := by
  intro i hi
  simp only [List.mem_cons, List.not_mem_nil, or_false] at hi
  rcases hi with rfl | rfl | rfl | rfl | rfl <;> exact exists_next (by decide +kernel)

/-- No bits; one bit; each block type in the three bits 1,b,b. -/
theorem test_witness_BlockHeaderStep :
    8 * (st .blkHdr []).inLen.toNat < linPos (st .blkHdr []) + 1 ∧
      StreamHolds { st .blkHdr [0x80] with bitOff := 7 } (bitsLsb 1 1) ∧
      8 * (st .blkHdr [0x80]).inLen.toNat < linPos { st .blkHdr [0x80] with bitOff := 7 } + 3 ∧
      StreamHolds (st .blkHdr [0b001]) (bitsLsb 1 1 ++ bitsLsb 0 2) ∧
      StreamHolds (st .blkHdr [0b011]) (bitsLsb 1 1 ++ bitsLsb 1 2) ∧
      StreamHolds (st .blkHdr [0b101]) (bitsLsb 1 1 ++ bitsLsb 2 2) ∧
      StreamHolds (st .blkHdr [0b111]) (bitsLsb 1 1 ++ bitsLsb 3 2) :=
  ⟨by decide, ⟨by decide, by decide⟩, by decide, ⟨by decide, by decide⟩, ⟨by decide, by decide⟩,
   ⟨by decide, by decide⟩, by decide, by decide⟩

/-- Too short by one byte for each field; LEN 0 with its complement; LEN 0 without it; a cursor inside a byte. -/
theorem test_witness_StoredLenResult :
    CursorOk { st .storedLen [1, 0, 0, 0xff, 0xff] with bitOff := 3 } ∧
      alignedPos { st .storedLen [1, 0, 0, 0xff, 0xff] with bitOff := 3 } = 1 ∧
      (st .storedLen [0]).inLen.toNat < 2 ∧ 2 ≤ (st .storedLen [0, 0]).inLen.toNat ∧
      (st .storedLen [0, 0, 0xff]).inLen.toNat < 4 ∧
      le16 (st .storedLen [0, 0, 0xff, 0xff]) 2 = ~~~le16 (st .storedLen [0, 0, 0xff, 0xff]) 0 ∧
      le16 (st .storedLen [0, 0, 0xfe, 0xff]) 2 ≠ ~~~le16 (st .storedLen [0, 0, 0xfe, 0xff]) 0 :=
  ⟨⟨by decide, by decide⟩, by decide⟩

/-- Nothing left to copy; no input; a full output; room for one byte. -/
theorem test_witness_StoredByteResult :
    (st .storedCopy []).sRem = 0 ∧ (st .storedCopy []).bitOff = 0 ∧
      ({ st .storedCopy [] with sRem := 1 } : State).inLen.toNat < 1 ∧
      (1 ≤ (st .storedCopy [7]).inLen.toNat ∧
        ({ st .storedCopy [7] with sRem := 1, outCap := 0 } : State).outPos = 0) ∧
      (st .storedCopy [7]).outPos.toNat < (st .storedCopy [7]).outCap.toNat := by decide

/-- An empty stored block, and one of two bytes that just fit. -/
theorem test_witness_StoredBlockCopiesItsBytes :
    ((st .storedCopy []).pending = [] ∧ (st .storedCopy []).phase = .storedCopy ∧ BytesLeft (st .storedCopy []) 0) ∧
      BytesLeft { st .storedCopy [7, 8] with sRem := 2, outCap := 2 } 2 ∧
      ({ st .storedCopy [7, 8] with sRem := 2, outCap := 2 } : State).outPos.toNat + 2 ≤ 2 :=
  ⟨⟨rfl, rfl, rfl, by decide⟩, ⟨rfl, by decide⟩, by decide⟩

theorem test_witness_ReservedSymbolsFault :
    Instr.llRsvd286 ∈ [Instr.llRsvd286, .llRsvd287, .dRsvd30, .dRsvd31] ∧
      Instr.dRsvd31 ∈ [Instr.llRsvd286, .llRsvd287, .dRsvd30, .dRsvd31] := by decide

theorem test_witness_LiteralAndEndOfBlockResult :
    (({ st .sym [] with outCap := 0 } : State).outPos = 0 ∧
      ({ st .sym [] with outCap := 1 } : State).outPos.toNat < 1) ∧
    ({ st .sym [] with bfinal := 1 } : State).bfinal = 1 ∧ (st .sym []).bfinal = 0 := by decide

/-- Row 284 with the largest extra bits, and with too few bits left. -/
theorem test_witness_MatchLengthResult :
    (Instr.len284, 227, 5) ∈ lengthRows ∧ 31 < 2 ^ 5 ∧ StreamHolds (st .sym [31]) (bitsLsb 31 5) ∧
      8 * (st .sym []).inLen.toNat < linPos (st .sym []) + 5 :=
  ⟨by decide, by decide, ⟨by decide, by decide⟩, by decide⟩

/-- Row 4 with both values of the extra bit, a distance equal to the output's length and one beyond it. -/
theorem test_witness_MatchDistanceResult :
    (Instr.dist4, 5, 1) ∈ distanceRows ∧ StreamHolds { st .symDist [1] with outPos := 6 } (bitsLsb 1 1) ∧
      5 + 1 ≤ ({ st .symDist [1] with outPos := 6 } : State).outPos.toNat ∧
      ({ st .symDist [1] with outPos := 5 } : State).outPos.toNat < 5 + 1 ∧
      8 * (st .symDist []).inLen.toNat < linPos (st .symDist []) + 1 :=
  ⟨by decide, ⟨by decide, by decide⟩, by decide⟩

theorem test_witness_BlockAndSymbolFrame :
    ∀ i ∈ [Instr.blkStored 1, .blkFixed 1, .blkDynamic 1, .blkReserved 1, .storedLen, .eob, .len257, .dist0],
      ∃ t, exec i (st .sym [0, 0, 0xff, 0xff]) = .next t := by
  intro i hi
  simp only [List.mem_cons, List.not_mem_nil, or_false] at hi
  rcases hi with rfl | rfl | rfl | rfl | rfl | rfl | rfl | rfl <;> exact exists_next (by decide +kernel)

/-- The bits of HLITF = 29 and 30, HDISTF = 31, HCLENF = 15; no bits; bits for one and for two fields only. -/
theorem test_witness_DynCountsResult :
    8 * (st .dynCounts []).inLen.toNat < linPos (st .dynCounts []) + 5 ∧
      StreamHolds { st .dynCounts [0xe8] with bitOff := 3 } (bitsLsb 29 5) ∧
      8 * (st .dynCounts [0xe8]).inLen.toNat < linPos { st .dynCounts [0xe8] with bitOff := 3 } + 10 ∧
      StreamHolds { st .dynCounts [0xc0, 0xff] with bitOff := 6 } (bitsLsb 31 5 ++ bitsLsb 31 5) ∧
      8 * (st .dynCounts [0xc0, 0xff]).inLen.toNat < linPos { st .dynCounts [0xc0, 0xff] with bitOff := 6 } + 14 ∧
      StreamHolds (st .dynCounts [0xfd, 0x3f]) (bitsLsb 29 5 ++ bitsLsb 31 5 ++ bitsLsb 15 4) ∧
      StreamHolds (st .dynCounts [0xfe, 0x3f]) (bitsLsb 30 5 ++ bitsLsb 31 5 ++ bitsLsb 15 4) := by
  unfold StreamHolds
  decide +kernel

/-- Four fields 0, 0, 1, 1, a complete array; 0, 0, 0, 0, an incomplete one; too few bits for one field. -/
theorem test_witness_DynCllenResult :
    ({ st .dynCllen [0x40, 0x02] with hclen := 4 } : State).hclen.toNat ≤ 19 ∧ (∀ v ∈ [0, 0, 1, 1], v < 8) ∧
      StreamHolds { st .dynCllen [0x40, 0x02] with hclen := 4 } ([0, 0, 1, 1].flatMap fun v => bitsLsb v 3) ∧
      kraftCheck (lensOf (clArray [0, 0, 1, 1])) 7 = .ok ∧
      StreamHolds { st .dynCllen [0, 0] with hclen := 4 } ([0, 0, 0, 0].flatMap fun v => bitsLsb v 3) ∧
      kraftCheck (lensOf (clArray [0, 0, 0, 0])) 7 ≠ .ok ∧
      (StreamHolds { st .dynCllen [] with hclen := 4 } [] ∧
        8 * (st .dynCllen []).inLen.toNat < linPos (st .dynCllen []) + 3) := by
  unfold StreamHolds
  decide +kernel

theorem test_witness_CodeLengthSymbolResult : (Instr.clLen15, (15 : BitVec 4)) ∈ codeLengthRows := by decide

/-- No previous length; a run that just fits 258; one that does not; no bits. -/
theorem test_witness_RepeatPreviousResult :
    StreamHolds (lens [3] 252) (bitsLsb 3 2) ∧ (lens [3] 252).idx ≠ 0 ∧
      (lens [3] 252).idx.toNat + (3 + 3) ≤ (lens [3] 252).hlit.toNat + (lens [3] 252).hdist.toNat ∧
      (lens [3] 0).idx = 0 ∧
      (lens [3] 253).hlit.toNat + (lens [3] 253).hdist.toNat < (lens [3] 253).idx.toNat + (3 + 3) ∧
      8 * (lens [] 1).inLen.toNat < linPos (lens [] 1) + 2 := by
  unfold StreamHolds
  decide +kernel

/-- The longest run of row 18 that just fits 258, one that does not, and too few bits. -/
theorem test_witness_ZeroRunResult :
    (Instr.clZrep18, 11, 7) ∈ zeroRunRows ∧ StreamHolds (lens [127] 120) (bitsLsb 127 7) ∧
      (lens [127] 120).idx.toNat + (11 + 127) ≤ (lens [127] 120).hlit.toNat + (lens [127] 120).hdist.toNat ∧
      (lens [127] 121).hlit.toNat + (lens [127] 121).hdist.toNat < (lens [127] 121).idx.toNat + (11 + 127) ∧
      8 * (lens [] 0).inLen.toNat < linPos (lens [] 0) + 7 := by
  unfold StreamHolds
  decide +kernel

/-- Complete arrays, as `DynBuildResult` takes them from FLAT: a next state in SYM; and incomplete ones: MalformedTable. -/
theorem test_witness_DynBuildResult :
    kraftCheck (lensOf (builtLL { lens [] 259 with flat := ((List.replicate 318 0).set 0 1).set 256 1 })) 15 = .ok ∧
      kraftCheck (lensOf (builtDist
        { lens [] 259 with hdist := 2, flat := ((List.replicate 318 0).set 257 1).set 258 1 })) 15 = .ok ∧
      kraftCheck (lensOf (builtLL (lens [] 258))) 15 ≠ .ok := by decide +kernel

theorem test_witness_DynamicTableFrame :
    ∀ i ∈ [Instr.dynCounts, .dynCllen, .clLen3, .clRep16, .clZrep17, .clZrep18, .dynBuild],
      ∃ t, exec i (lens [1, 2, 3] 9) = .next t := by
  intro i hi
  simp only [List.mem_cons, List.not_mem_nil, or_false] at hi
  rcases hi with rfl | rfl | rfl | rfl | rfl | rfl | rfl <;> exact exists_next (by decide +kernel)

/-- Nothing left; the smallest distance with the output full and with room; a distance as long as the output. -/
theorem test_witness_CopyResult :
    (st .copy []).mLen = 0 ∧
      (({ st .copy [] with mLen := 1, mDist := 1, outPos := 1, outCap := 1 } : State).mLen ≠ 0 ∧
        1 ≤ ({ st .copy [] with mLen := 1, mDist := 1, outPos := 1, outCap := 1 } : State).mDist.toNat ∧
        ({ st .copy [] with mLen := 1, mDist := 1, outPos := 1, outCap := 1 } : State).mDist.toNat ≤ 1 ∧
        ({ st .copy [] with mLen := 1, mDist := 1, outPos := 1, outCap := 1 } : State).outPos = 1) ∧
      ({ st .copy [] with mLen := 1, mDist := 32768, outPos := 32768 } : State).outPos.toNat <
        (st .copy []).outCap.toNat := by decide

/-- A match of 258 with distance 1, and of 3 with distance 2, each just fitting its output. -/
theorem test_witness_MatchCopiesCyclically :
    (1 ≤ ({ st .copy [] with mLen := 258, mDist := 1, outPos := 1, outCap := 259 } : State).mDist.toNat ∧
      ({ st .copy [] with mLen := 258, mDist := 1, outPos := 1, outCap := 259 } : State).mDist.toNat ≤ 1 ∧
      ({ st .copy [] with mLen := 258, mDist := 1, outPos := 1, outCap := 259 } : State).outPos.toNat + 258 ≤ 259) ∧
      ({ st .copy [] with mLen := 3, mDist := 2, outPos := 2, outCap := 5 } : State).outPos.toNat + 3 ≤ 5 := by decide

theorem test_witness_StoringFrame :
    ∀ i ∈ [Instr.lit 0x41, .storedByte, .copy],
      ∃ t, exec i { st .copy [7] with sRem := 1, mLen := 1, mDist := 1, outPos := 1, outMem := [(0, 9)] } = .next t := by
  intro i hi
  simp only [List.mem_cons, List.not_mem_nil, or_false] at hi
  rcases hi with rfl | rfl | rfl <;> exact exists_next (by decide +kernel)

/-- A step that stores, and one that does not. -/
theorem test_witness_OnlyEmitWritesMemory :
    (atSymbol.pending = [] ∧ ∃ t, step atSymbol = .next t) ∧ ∃ t, step atBlock = .next t :=
  ⟨⟨rfl, exists_next (by decide +kernel)⟩, exists_next (by decide +kernel)⟩

theorem test_witness_PhaseTransfersFollowTable : atTrailer.pending = [] ∧ ∃ t, step atTrailer = .next t :=
  ⟨rfl, exists_next (by decide +kernel)⟩

/-- A fetch that answers, one that raises, a full flat array, and a `wait` of the host. -/
theorem test_witness_StepRunsTheFetchedInstruction :
    okAt (fetch atBlock) = some (some (.blkFixed 1), 0, 3) ∧
      stopAt (fetch (st .blkHdr [])) = some (.trap .unexpectedEof, 0, 0) ∧
      (lens [] 258).idx.toNat = (lens [] 258).hlit.toNat + (lens [] 258).hdist.toNat ∧
      ({ atBlock with pending := [.wait] } : State).busy = true := by decide +kernel

theorem test_witness_TrapEntryWritesErrAndPhase :
    (raise .outputOverflow : Op Unit) atBlock = .error (.trap .outputOverflow) atBlock := rfl

/-- A step that traps: no input for a block header. -/
theorem test_witness_FaultsByPhase :
    Inv (st .blkHdr []) ∧ (st .blkHdr []).pending = [] ∧
      (nextOf (step (st .blkHdr []))).map (fun t => (t.phase, t.err)) = some (.error, 1) :=
  ⟨inv_of_fresh (by decide) (by decide) (by decide +kernel) rfl ⟨by decide, by decide⟩ trivial, rfl, by decide +kernel⟩

/-- A core step, and a host move, from sound states. -/
theorem test_witness_StepKeepsSoundness :
    (Inv atHeader ∧ ∃ t, step atHeader = .next t) ∧
      ∃ t, step { State.reset with pending := [.regWrite 0 4 1] } = .next t :=
  ⟨⟨inv_atHeader, exists_next (by decide +kernel)⟩, exists_next (by decide +kernel)⟩

theorem test_witness_SoundBusyCoreHasNextState : Inv atSymbol ∧ atSymbol.busy = true ∧ atSymbol.pending = [] :=
  ⟨inv_atSymbol, rfl, rfl⟩

theorem test_witness_EveryRunEnds : Inv atHeader ∧ atHeader.busy = true ∧ atHeader.pending = [] :=
  ⟨inv_atHeader, rfl, rfl⟩

theorem test_witness_DoneMeansVerified :
    Inv atTrailer ∧ atTrailer.busy = true ∧ atTrailer.pending = [] ∧
      (nextOf (step atTrailer)).map (·.phase) = some .done :=
  ⟨inv_atTrailer, rfl, rfl, by decide +kernel⟩

theorem test_witness_CursorNeverGoesBack : Inv atDistance ∧ atDistance.pending = [] ∧ ∃ t, step atDistance = .next t :=
  ⟨inv_atDistance, rfl, exists_next (by decide +kernel)⟩

/-- After reset, with these moves of the host pending. -/
def idle (moves : List HostMove) : State := { State.reset with pending := moves }

/-- In a run, with these moves of the host pending. -/
def running (moves : List HostMove) : State := { atBlock with pending := moves }

/-- START accepted, START with bit 0 clear, START while BUSY. -/
theorem test_witness_StartBeginsARun :
    (idle [.regWrite 0 4 0xFFFFFFFF]).pending = [.regWrite 0 4 0xFFFFFFFF] ∧
      (0xFFFFFFFF : Word).getLsbD 0 = true ∧ (0xFFFFFFFE : Word).getLsbD 0 = false ∧ (running []).busy = true ∧
      (idle []).busy = false := by decide

/-- The first and the last register, an offset just past them, a misaligned and a narrow read; both modes. -/
theorem test_witness_RegisterReads :
    ((idle [.regRead 0x58 4]).busy = false ∧ (0x00, (0 : Word)) ∈ registerMap (idle [.regRead 0 4]) ∧
      (0x58, (0 : Word)) ∈ registerMap (idle [.regRead 0x58 4])) ∧
      (∀ p ∈ registerMap (idle [.regRead 0x5C 4]), p.1 ≠ 0x5C) ∧ 0x5C % 4 = 0 ∧ 0x06 % 4 ≠ 0 ∧
      (running [.regRead 0x0C 4]).busy = true := by decide

/-- IN_LEN outside a run and during one, a read-only register, a misaligned write. -/
theorem test_witness_RegisterWrites :
    (idle [.regWrite 0x08 4 7]).busy = false ∧ (running [.regWrite 0x08 4 7]).busy = true ∧ 0x08 % 4 = 0 ∧
      0x0C % 4 = 0 ∧ 0x0A % 4 ≠ 0 := by decide

/-- The last address of each memory. -/
theorem test_witness_HostMemoryAccess :
    (idle [.writeIn (2 ^ 32 - 1) 7]).pending = [.writeIn (2 ^ 32 - 1) 7] ∧ 2 ^ 32 - 1 < 2 ^ 32 ∧
      2 ^ 64 - 2 < (idle [.writeOut (2 ^ 64 - 2) 7]).outCap.toNat ∧ (idle [.readOut 0]).busy = false ∧
      (running [.readOut 0]).busy = true := by decide

theorem test_witness_ResultsStayUntilStart :
    (st .done []).busy = false ∧ HostMove.regWrite 0 4 0 ≠ .hardReset ∧
      (∀ data : Word, data.getLsbD 0 = true → HostMove.readIn 0 ≠ .regWrite 0 4 data) ∧
      ∃ t, step { st .done [7] with pending := [.readIn 0] } = .next t :=
  ⟨rfl, by decide, fun _ _ => by simp, exists_next (by decide +kernel)⟩

/-- Reset during a run and outside one. -/
theorem test_witness_HardwareReset :
    (running [.hardReset]).pending = [.hardReset] ∧ (running [.hardReset]).busy = true ∧
      (idle [.hardReset]).busy = false := by decide

end Sys2Proof.Tests
end

section
/-! PROOFS. The Kraft check and the Kraft sum (spec/41_huffman_tables.md R123, spec/00_scope.md R19). -/

namespace Sys2Proof.Machine

/-- The Kraft sum over the lengths `len .. len + n - 1` alone, in units of `2^-(len + n - 1)`: what is left for the loop
of `kraft_check` (R123) to weigh when `n` lengths remain from `len` on. -/
def kraftSumFrom (lens : List Nat) (len n : Nat) : Nat :=
  (lens.map fun l => if len ≤ l ∧ l < len + n then 2 ^ (len + n - 1 - l) else 0).sum

@[simp] theorem kraftSumFrom_zero (lens : List Nat) (len : Nat) : kraftSumFrom lens len 0 = 0 := by
  have h : ∀ l, ¬(len ≤ l ∧ l < len) := fun l => by omega
  simp [kraftSumFrom, h]

theorem kraftSumFrom_one (lens : List Nat) (maxbits : Nat) : kraftSumFrom lens 1 maxbits = kraftSum lens maxbits := by
  simp only [kraftSumFrom, kraftSum, Nat.add_comm 1 maxbits, Nat.add_sub_cancel, Nat.lt_succ_iff]

/-- The first length of the rest weighs `count[len]` codes; the others are the rest one length further on. -/
theorem kraftSumFrom_succ (lens : List Nat) (len n : Nat) :
    kraftSumFrom lens len (n + 1) = countLen lens len * 2 ^ n + kraftSumFrom lens (len + 1) n := by
  induction lens with
  | nil => simp [kraftSumFrom, countLen]
  | cons l rest ih =>
    simp only [kraftSumFrom, countLen, List.map_cons, List.sum_cons] at ih ⊢
    rw [ih, List.count_cons, show len + (n + 1) - 1 = len + 1 + n - 1 by omega]
    rcases Nat.lt_trichotomy l len with hlt | rfl | hgt
    · simp [Nat.not_le.2 hlt, Nat.not_le.2 (Nat.lt_succ_of_lt hlt), Nat.ne_of_lt hlt]
    · simp [Nat.add_mul]
      omega
    · have hiff : (len ≤ l ∧ l < len + (n + 1)) ↔ (len + 1 ≤ l ∧ l < len + 1 + n) := by omega
      simp only [hiff, beq_iff_eq, Nat.ne_of_gt hgt, if_false, Nat.add_zero]
      omega

/-- What the loop of `kraft_check` answers (R123): it weighs `left` codes of length `len - 1` against the rest. -/
theorem kraftLoop_eq (lens : List Nat) (left len n : Nat) :
    kraftLoop lens left len n =
      if left * 2 ^ n < kraftSumFrom lens len n then .over
      else if kraftSumFrom lens len n < left * 2 ^ n then .under else .ok := by
  induction n generalizing left len with
  | zero => simp [kraftLoop]
  | succ n ih =>
    have hpos : 0 < 2 ^ n := Nat.two_pow_pos n
    have hleft : left * 2 ^ (n + 1) = left * 2 * 2 ^ n := by ring
    rw [kraftLoop, kraftSumFrom_succ, hleft]
    by_cases h : left * 2 < countLen lens len
    · have hover : left * 2 * 2 ^ n < countLen lens len * 2 ^ n := Nat.mul_lt_mul_of_pos_right h hpos
      rw [if_pos h, if_pos (by omega)]
    · have hle : countLen lens len * 2 ^ n ≤ left * 2 * 2 ^ n := Nat.mul_le_mul_right _ (Nat.not_lt.1 h)
      rw [if_neg h, ih, Nat.sub_mul]
      exact if_congr (by omega) rfl (if_congr (by omega) rfl rfl)

/-- Settles O5: the loop's equation, from one code of length 0 over all the lengths. -/
theorem kraftCheckClassifies : Obligations.KraftCheckClassifies := by
  intro lens maxbits
  rw [kraftCheck, kraftLoop_eq, kraftSumFrom_one, Nat.one_mul]
  rcases Nat.lt_trichotomy (kraftSum lens maxbits) (2 ^ maxbits) with h | h | h
  · simp [h, Nat.lt_asymm h, Nat.ne_of_lt h]
  · simp [h]
  · simp [h, Nat.lt_asymm h, Nat.ne_of_gt h]

end Sys2Proof.Machine
end

section
/-! PROOFS. What an operation ensures where it goes through, when it makes no stop of the model: one rule per way of
putting operations together and one per primitive, so that an instruction is run by its rules. -/

namespace Sys2Proof.Machine

/-- From `s` the operation makes no stop of the model, and where it goes through, its answer and the state it leaves
satisfy `Q`; it may raise. -/
def Ensures {α : Type} (op : Op α) (s : State) (Q : α → State → Prop) : Prop :=
  match op s with
  | .ok a t => Q a t
  | .error (.trap _) _ => True
  | .error (.fault _) _ => False
  | .error (.refuse _) _ => False

/-- The step has a next state, which is ERROR or satisfies `Q`. -/
def Leads (o : Host.Outcome State Fault Refusal) (Q : State → Prop) : Prop :=
  ∃ t, o = .next t ∧ (t.phase = .error ∨ Q t)

section calculus
variable {α β : Type} {s : State} {Q : α → State → Prop} {Q' : β → State → Prop} {P : State → Prop}

@[simp] theorem ensures_bind {x : Op α} {f : α → Op β} :
    Ensures (x >>= f) s Q' ↔ Ensures x s fun a u => Ensures (f a) u Q' := by
  unfold Ensures
  rw [bind_apply]
  cases x s with
  | ok a u => rfl
  | error e u => cases e <;> rfl

@[simp] theorem ensures_pure {a : α} : Ensures (pure a) s Q ↔ Q a s := Iff.rfl

@[simp] theorem ensures_getState {Q : State → State → Prop} : Ensures getState s Q ↔ Q s s := Iff.rfl

@[simp] theorem ensures_update {f : State → State} {Q : Unit → State → Prop} :
    Ensures (update f) s Q ↔ Q () (f s) := Iff.rfl

@[simp] theorem ensures_raise {e : Trap} : Ensures (raise e) s Q := trivial

@[simp] theorem ensures_require {c : Bool} {e : Trap} {Q : Unit → State → Prop} :
    Ensures (require c e) s Q ↔ (c = true → Q () s) := by
  cases c <;> simp [Ensures]

theorem ensures_ite {c : Prop} [Decidable c] {x y : Op α} (hx : c → Ensures x s Q) (hy : ¬c → Ensures y s Q) :
    Ensures (if c then x else y) s Q := by
  split
  · exact hx ‹_›
  · exact hy ‹_›

theorem Ensures.mono {R : α → State → Prop} {op : Op α} (h : Ensures op s R) (hQ : ∀ a u, R a u → Q a u) :
    Ensures op s Q := by
  unfold Ensures at h ⊢
  split at h <;> simp_all

/-- A transmitted array is accepted only when it is complete (R124). -/
@[simp] theorem ensures_requireKraft {lens : List Nat} {m : Nat} {Q : Unit → State → Prop} :
    Ensures (requireKraft lens m) s Q ↔ (kraftCheck lens m = .ok → Q () s) := by
  rw [requireKraft, ensures_require]
  cases kraftCheck lens m <;> simp [kraftAccepts]

theorem leads_finish {op : Op Unit} (h : Ensures op s fun _ t => P t) : Leads (finish op s) P := by
  unfold Ensures at h
  split at h
  · exact ⟨_, finish_ok ‹_›, .inr h⟩
  · exact ⟨_, finish_trap ‹_›, .inl rfl⟩
  · exact h.elim
  · exact h.elim

end calculus

/-! ### The reader, the decoder and the window -/

section primitives
variable {s : State}

theorem ensures_readBits {k n : Nat} {Q : Nat → State → Prop} (hk : linPos s = k)
    (h : ∀ v, v < 2 ^ n → k + n ≤ 8 * s.inLen.toNat → Q v (cursorTo (k + n) s)) : Ensures (readBits n) s Q := by
  subst hk
  unfold Ensures
  rcases Nat.lt_or_ge (8 * s.inLen.toNat) (linPos s + n) with hlt | hge
  · rw [readBits_of_lt hlt]
    trivial
  · rw [readBits_of_le hge]
    exact h _ (inField_lt s _ n) hge

theorem ensures_readBytesLe {k : Nat} {Q : Nat → State → Prop}
    (h : ∀ v (p : BitVec 32), p.toNat = s.bytePos.toNat + k → s.bytePos.toNat + k ≤ s.inLen.toNat →
      Q v { s with bytePos := p }) : Ensures (readBytesLe k) s Q := by
  unfold Ensures
  rcases Nat.lt_or_ge s.inLen.toNat (s.bytePos.toNat + k) with hlt | hge
  · rw [readBytesLe_of_lt hlt]
    trivial
  · rw [readBytesLe_of_le hge]
    exact h _ _ (bytePos_after hge) hge

theorem cursorOk_iff : CursorOk s ↔ linPos s ≤ 8 * s.inLen.toNat := by
  have hb := s.bitOff.isLt
  have h0 : s.bitOff = 0 ↔ s.bitOff.toNat = 0 := by rw [← BitVec.toNat_inj]; rfl
  simp only [CursorOk, linPos, h0]
  omega

theorem ensures_alignToByte {Q : Unit → State → Prop} (hc : CursorOk s)
    (h : ∀ p : BitVec 32, linPos s ≤ 8 * p.toNat → p.toNat ≤ s.inLen.toNat →
      Q () { s with bytePos := p, bitOff := 0 }) : Ensures alignToByte s Q := by
  have hi := s.inLen.isLt
  obtain ⟨hle, hend⟩ := hc
  simp only [Ensures, alignToByte]
  by_cases h0 : s.bitOff = 0
  · rw [if_pos h0]
    have := h s.bytePos (by simp [linPos, h0]) hle
    rwa [← h0] at this
  · rw [if_neg h0]
    have hlt : s.bytePos.toNat < s.inLen.toNat := Nat.lt_of_le_of_ne hle fun he => h0 (hend he)
    have hp : (s.bytePos + 1).toNat = s.bytePos.toNat + 1 := by simp; omega
    have hb := s.bitOff.isLt
    exact h _ (by rw [hp, linPos]; omega) (by rw [hp]; omega)

theorem ensures_skipString {n : Nat} {Q : Unit → State → Prop}
    (h : ∀ p : BitVec 32, s.bytePos.toNat ≤ p.toNat → p.toNat ≤ s.inLen.toNat → Q () { s with bytePos := p }) :
    Ensures (skipString n) s Q := by
  induction n generalizing s with
  | zero => exact ensures_raise
  | succ n ih =>
    rw [skipString, ensures_bind]
    refine ensures_readBytesLe fun v p hp hle => ensures_ite (fun _ => h p (by omega) (by omega)) fun _ => ?_
    exact ih fun q h1 h2 => h q (by simp only at h1; omega) h2

/-- A symbol decoded is one of the array's, and its code was at least one bit of the input (R126). -/
theorem ensures_huffDecode {lens : List Nat} {m : Nat} {Q : Nat → State → Prop}
    (h : ∀ v k, v < lens.length → linPos s < k → k ≤ 8 * s.inLen.toNat → Q v (cursorTo k s)) :
    Ensures (huffDecode lens m) s Q := by
  have loop : ∀ n len code (u : State), (∀ v k, v < lens.length → linPos u < k → k ≤ 8 * u.inLen.toNat →
      Q v (cursorTo k u)) → Ensures (huffLoop lens len code n) u Q := by
    intro n
    induction n with
    | zero => exact fun len code u _ => ensures_raise
    | succ n ih =>
      intro len code u hu
      rw [huffLoop, ensures_bind]
      refine ensures_readBits rfl fun bit _ hle => ?_
      cases hf : findSym lens len (code <<< 1 ||| bit) with
      | some v => exact hu v _ (List.getElem?_eq_some_iff.1 (findSym_eq_some.1 hf).1).1 (by omega) hle
      | none =>
        refine ih _ _ _ fun v j hv hj hj' => ?_
        rw [linPos_cursorTo u _ hle] at hj
        exact hu v j hv (by omega) hj'
  exact loop m 1 0 s h

theorem ensures_readClLens {l : List Nat} {Q : Unit → State → Prop} (hc : linPos s ≤ 8 * s.inLen.toNat)
    (h : ∀ cl k, linPos s ≤ k → k ≤ 8 * s.inLen.toNat → Q () (cursorTo k { s with clLen := cl })) :
    Ensures (readClLens l) s Q := by
  induction l generalizing s with
  | nil =>
    have := h s.clLen (linPos s) (Nat.le_refl _) hc
    rwa [show { s with clLen := s.clLen } = s from rfl, cursorTo_linPos] at this
  | cons sym rest ih =>
    rw [readClLens, ensures_bind]
    refine ensures_readBits rfl fun v _ hle => ?_
    rw [ensures_bind, ensures_update]
    have hlin := linPos_cursorTo s _ hle
    exact ih (hlin.trans_le hle) fun cl j h1 h2 => h cl j (by have := hlin.symm.trans_le h1; omega) h2

theorem ensures_emit {b : Byte} {Q : Unit → State → Prop} (ho : s.outPos.toNat ≤ s.outCap.toNat)
    (h : s.outPos.toNat < s.outCap.toNat → Q () (emitted b s)) : Ensures (emit b) s Q := by
  unfold Ensures
  rcases Nat.lt_or_eq_of_le ho with hlt | heq
  · rw [emit_of_lt hlt]
    exact h hlt
  · rw [emit_of_full (BitVec.eq_of_toNat_eq heq)]
    trivial

theorem ensures_readWindow {Q : Byte → State → Prop} (h1 : s.mDist.toNat ≤ s.outPos.toNat)
    (h2 : s.outPos.toNat - s.mDist.toNat < s.outCap.toNat)
    (h : Q (outByte s (s.outPos.toNat - s.mDist.toNat)) s) : Ensures readWindow s Q := by
  rw [Ensures, readWindow_of_le h1 h2]
  exact h

end primitives

end Sys2Proof.Machine
end

section
/-! PROOFS. From every sound point of a run a core step reaches a sound point with fewer steps left, or the end of the
run (spec/00_scope.md R11, spec/40_bitstream_reader.md R116): instruction by instruction, then for the step. -/

namespace Sys2Proof.Machine

/-! ### Every core step goes down -/

/-- How many steps can follow in this phase before one consumes input or the run is over (R11: a counted loop, or a
phase that passes on without a read). -/
def idleSteps (s : State) : Nat :=
  match s.phase with
  | .hdrExtra => 4
  | .hdrName | .dynCllen => 3
  | .hdrComment | .dynLens => 2
  | .hdrHcrc | .storedCopy | .dynBuild => 1
  | .copy => 1 + s.mLen.toNat
  | _ => 0

/-- A bound on the steps left: every input bit can be followed by fewer than 1024 steps that consume none (R116). -/
def stepBound (s : State) : Nat := 1024 * (8 * s.inLen.toNat - linPos s) + idleSteps s

/-- What a core step that raises nothing reaches: a sound point of the run, or its end, with fewer steps left. -/
structure Advances (s t : State) : Prop where
  cursor : CursorOk t
  phase : PhaseOk t
  notIdle : t.phase ≠ .idle
  bound : stepBound t < stepBound s

section advances
variable {s t : State}

theorem idleSteps_lt (t : State) : idleSteps t < 1024 := by
  have := t.mLen.isLt
  unfold idleSteps
  split <;> omega

/-- A step that consumes input. -/
theorem advances_of_read (hlt : linPos s < linPos t) (hle : linPos t ≤ 8 * t.inLen.toNat) (hi : t.inLen = s.inLen)
    (hp : PhaseOk t) (hn : t.phase ≠ .idle) : Advances s t := by
  refine ⟨cursorOk_iff.2 hle, hp, hn, ?_⟩
  have := idleSteps_lt t
  rw [hi] at hle
  rw [stepBound, stepBound, hi]
  omega

/-- A step that may consume none. -/
theorem advances_of_pass (hlt : idleSteps t < idleSteps s) (hge : linPos s ≤ linPos t)
    (hle : linPos t ≤ 8 * t.inLen.toNat) (hi : t.inLen = s.inLen) (hp : PhaseOk t) (hn : t.phase ≠ .idle) :
    Advances s t := by
  refine ⟨cursorOk_iff.2 hle, hp, hn, ?_⟩
  rw [hi] at hle
  rw [stepBound, stepBound, hi]
  omega

end advances

/-! ### Instructions that read whole bytes -/

/-- What reading at least `k` bytes leaves of the cursor. -/
def BytesRead (k : Nat) (s t : State) : Prop :=
  t.inLen = s.inLen ∧ t.bitOff = s.bitOff ∧ s.bytePos.toNat + k ≤ t.bytePos.toNat ∧ t.bytePos.toNat ≤ t.inLen.toNat

theorem ensures_readBytesLe_after {s u : State} {k n : Nat} {Q : Nat → State → Prop} (hu : BytesRead k s u)
    (h : ∀ v t, BytesRead (k + n) s t → Q v t) : Ensures (readBytesLe n) u Q := by
  obtain ⟨hi, hb, hk, -⟩ := hu
  exact ensures_readBytesLe fun v p hp hle => h v _ ⟨hi, hb, by simp only [hp]; omega, by simp only [hp]; exact hle⟩

section fields
variable {s : State}

theorem bytesRead_zero (hc : CursorOk s) : BytesRead 0 s s := ⟨rfl, rfl, Nat.le_refl _, hc.1⟩

theorem extraField_reads (hc : CursorOk s) : Ensures extraField s fun _ t => BytesRead 0 s t := by
  simp only [extraField, ensures_bind, ensures_getState, ensures_require, ensures_update, decide_eq_true_eq]
  refine ensures_readBytesLe_after (bytesRead_zero hc) fun xlen t ⟨hi, hb, hge, _⟩ hle => ?_
  have hpos := bytePos_after hle
  exact ⟨hi, hb, by simp only [hpos]; omega, by simp only [hpos]; exact hle⟩

theorem nameField_reads : Ensures nameField s fun _ t => BytesRead 0 s t := by
  simp only [nameField, ensures_bind, ensures_getState, ensures_update]
  exact ensures_skipString fun p h1 h2 => ⟨rfl, rfl, h1, h2⟩

theorem commentField_reads : Ensures commentField s fun _ t => BytesRead 0 s t := by
  simp only [commentField, ensures_bind, ensures_getState, ensures_update]
  exact ensures_skipString fun p h1 h2 => ⟨rfl, rfl, h1, h2⟩

theorem hcrcField_reads (hc : CursorOk s) : Ensures hcrcField s fun _ t => BytesRead 0 s t := by
  simp only [hcrcField, ensures_bind, ensures_getState, ensures_update]
  refine ensures_readBytesLe_after (bytesRead_zero hc) fun v t ⟨hi, hb, hge, hle⟩ => ?_
  have hread : BytesRead 0 s { t with hdr := { t.hdr with hcrc := BitVec.ofNat 16 v } } :=
    ⟨hi, hb, (Nat.add_le_add_left (Nat.zero_le _) _).trans hge, hle⟩
  exact ensures_ite (fun _ => ensures_require.2 fun _ => hread) fun _ => hread

end fields

section header
variable {s : State} (hc : CursorOk s) (hb : s.bitOff = 0)
include hc hb

theorem gzHdr_advances : Leads (exec .gzHdr s) (Advances s) := by
  refine leads_finish ?_
  simp only [ensures_bind, ensures_require, ensures_update]
  refine ensures_readBytesLe_after (bytesRead_zero hc) fun _ _ h1 _ => ensures_readBytesLe_after h1 fun _ _ h2 _ => ?_
  refine ensures_readBytesLe_after h2 fun _ _ h3 => ensures_readBytesLe_after h3 fun _ _ h4 => ?_
  refine ensures_readBytesLe_after h4 fun _ _ h5 => ensures_readBytesLe_after h5 fun _ t ⟨hi, hbit, hle, hend⟩ => ?_
  rw [hb] at hbit
  refine advances_of_read ?_ ?_ hi hbit (by simp)
  · simp [linPos, hb, hbit]; omega
  · simp [linPos, hbit]; omega

/-- An optional header field and the passing on to the next phase (R181, R200). -/
theorem optionalField_advances {field : Op Unit} {p : Phase} {f : Bool}
    (hfield : Ensures field s fun _ t => BytesRead 0 s t) (hp : ∀ t : State, t.bitOff = 0 → PhaseOk (setPhase p t))
    (hlt : ∀ t, idleSteps (setPhase p t) < idleSteps s) (hn : p ≠ .idle) :
    Leads (finish (do
      if f then field else pure ()
      update (setPhase p)) s) (Advances s) := by
  have hend : ∀ t, BytesRead 0 s t → Advances s (setPhase p t) := fun t ⟨hi, hbit, hge, hle⟩ => by
    rw [hb] at hbit
    refine advances_of_pass (hlt t) ?_ ?_ hi (hp t hbit) hn
    · simp [linPos, hb, hbit]; omega
    · simp [linPos, hbit]; omega
  refine leads_finish ?_
  cases f
  · exact hend s (bytesRead_zero hc)
  · simp only [if_true, ensures_bind, ensures_update]
    exact hfield.mono fun _ => hend

theorem gzFextra_advances (hp : s.phase = .hdrExtra) : Leads (exec .gzFextra s) (Advances s) :=
  optionalField_advances hc hb (extraField_reads hc) (fun _ h => h) (fun _ => by simp [idleSteps, hp]) (by simp)

theorem gzFname_advances (hp : s.phase = .hdrName) : Leads (exec .gzFname s) (Advances s) :=
  optionalField_advances hc hb nameField_reads (fun _ h => h) (fun _ => by simp [idleSteps, hp]) (by simp)

theorem gzFcomment_advances (hp : s.phase = .hdrComment) : Leads (exec .gzFcomment s) (Advances s) :=
  optionalField_advances hc hb commentField_reads (fun _ h => h) (fun _ => by simp [idleSteps, hp]) (by simp)

theorem gzFhcrc_advances (hp : s.phase = .hdrHcrc) : Leads (exec .gzFhcrc s) (Advances s) :=
  optionalField_advances hc hb (hcrcField_reads hc) (fun _ _ => trivial) (fun _ => by simp [idleSteps, hp]) (by simp)

end header

section aligned
variable {s : State} (hc : CursorOk s)
include hc

/-- The alignment, and what it leaves for the byte reads after it: a state at a byte, not before the cursor. -/
theorem ensures_alignToByte_after {Q : Unit → State → Prop}
    (h : ∀ u, u.inLen = s.inLen → u.bitOff = 0 → linPos s ≤ 8 * u.bytePos.toNat → BytesRead 0 u u → Q () u) :
    Ensures alignToByte s Q :=
  ensures_alignToByte hc fun _ hge hle => h _ rfl rfl hge ⟨rfl, rfl, Nat.le_refl _, hle⟩

theorem gzTrailer_advances : Leads (exec .gzTrailer s) (Advances s) := by
  refine leads_finish ?_
  simp only [ensures_bind, ensures_getState, ensures_require, ensures_update]
  refine ensures_alignToByte_after hc fun u hu h0 hge h => ensures_readBytesLe_after h fun _ _ h1 => ?_
  refine ensures_readBytesLe_after h1 fun _ t ⟨hi, hbit, hle, hend⟩ _ _ => ?_
  rw [h0] at hbit
  refine advances_of_read ?_ ?_ (hi.trans hu) trivial (by simp)
  · simp [linPos, hbit] at hge ⊢; omega
  · simp [linPos, hbit]; omega

theorem storedLen_advances : Leads (exec .storedLen s) (Advances s) := by
  refine leads_finish ?_
  simp only [ensures_bind, ensures_require, ensures_update]
  refine ensures_alignToByte_after hc fun u hu h0 hge h => ensures_readBytesLe_after h fun _ _ h1 => ?_
  refine ensures_readBytesLe_after h1 fun _ t ⟨hi, hbit, hle, hend⟩ _ => ?_
  rw [h0] at hbit
  refine advances_of_read ?_ ?_ (hi.trans hu) hbit (by simp)
  · simp [linPos, hbit] at hge ⊢; omega
  · simp [linPos, hbit]; omega

end aligned

/-! ### Blocks -/

/-- `block_end()` passes on to a phase that relies on nothing (R176). -/
theorem blockEnd_advances {s u : State} (hc : linPos u ≤ 8 * u.inLen.toNat) (hi : u.inLen = s.inLen)
    (h : linPos s < linPos u ∨ linPos s = linPos u ∧ 0 < idleSteps s) :
    Ensures blockEnd u fun _ t => Advances s t := by
  have hphase : blockEndPhase u = .trailer ∨ blockEndPhase u = .blkHdr := by
    unfold blockEndPhase
    split <;> simp
  obtain ⟨hp, hn, h0⟩ : PhaseOk (setPhase (blockEndPhase u) u) ∧ blockEndPhase u ≠ .idle ∧
      idleSteps (setPhase (blockEndPhase u) u) = 0 := by
    rcases hphase with h | h <;> simp [h, PhaseOk, idleSteps]
  rw [blockEnd, ensures_update]
  rcases h with h | ⟨h, hpos⟩
  · exact advances_of_read h hc hi hp hn
  · exact advances_of_pass (h0.trans_lt hpos) (Nat.le_of_eq h) hc hi hp hn

theorem storedByte_advances {s : State} (hc : CursorOk s) (hb : s.bitOff = 0) (ho : s.outPos.toNat ≤ s.outCap.toNat)
    (hp : s.phase = .storedCopy) : Leads (exec .storedByte s) (Advances s) := by
  refine leads_finish (ensures_ite (fun _ => ?_) fun _ => ?_)
  · exact blockEnd_advances (cursorOk_iff.1 hc) rfl (.inr ⟨rfl, by simp [idleSteps, hp]⟩)
  · simp only [ensures_bind, ensures_update]
    refine ensures_readBytesLe fun b p h1 hle => ensures_emit ho fun _ => ?_
    refine advances_of_read ?_ ?_ rfl ?_ ?_
    · simp [linPos, hb]; omega
    · simp [linPos, hb]; omega
    · simpa [PhaseOk, hp] using hb
    · simp [hp]

section blockHeader
variable {s u : State} (bfinal : BitVec 1) (hlt : linPos s < linPos u) (hle : linPos u ≤ 8 * u.inLen.toNat)
  (hi : u.inLen = s.inLen)
include hlt hle hi

theorem blockHeader_advances (btype : BitVec 2) (p : Phase)
    (hp : PhaseOk { u with bfinal := bfinal, btype := btype, phase := p }) (hn : p ≠ .idle) :
    Ensures (blockHeader bfinal btype p) u fun _ t => Advances s t :=
  advances_of_read (t := { u with bfinal := bfinal, btype := btype, phase := p }) hlt hle hi hp hn

/-- The four block types (R161 to R165), after the header's bits. -/
theorem decodeBtype_advances (btype : BitVec 2) : Leads (exec (decodeBtype bfinal btype) u) (Advances s) := by
  unfold decodeBtype
  split
  · exact leads_finish (blockHeader_advances bfinal hlt hle hi 0 .storedLen trivial (by simp))
  · split
    · exact leads_finish (blockHeader_advances bfinal hlt hle hi 1 .sym (Or.inl rfl) (by simp))
    · split
      · exact leads_finish (blockHeader_advances bfinal hlt hle hi 2 .dynCounts rfl (by simp))
      · change Leads (execBlkReserved bfinal u) (Advances s)
        refine leads_finish ?_
        simp only [ensures_bind, ensures_update, ensures_raise]

end blockHeader

/-! ### Dynamic tables -/

section dynamic
variable {s : State}

theorem dynCounts_advances (ht : s.btype = 2) : Leads (exec .dynCounts s) (Advances s) := by
  refine leads_finish ?_
  simp only [ensures_bind, ensures_getState, ensures_require, ensures_update, decide_eq_true_eq]
  refine ensures_readBits rfl fun hlitf h1 l1 => ensures_readBits (linPos_cursorTo _ _ l1) fun hdistf h2 l2 => ?_
  refine ensures_readBits (linPos_cursorTo _ _ l2) fun hclenf h3 l3 hlit _ => ?_
  have hpos := linPos_cursorTo _ _ l3
  refine advances_of_read (lt_of_lt_of_eq (by omega) hpos.symm) (hpos.trans_le l3) rfl ⟨ht, ⟨?_, hlit, ?_, ?_⟩, ?_, ?_⟩
    (by simp)
  all_goals simp; omega

theorem dynCllen_advances (hc : CursorOk s) (hp : s.phase = .dynCllen) (ht : s.btype = 2) (hcounts : CountsOk s) :
    Leads (exec .dynCllen s) (Advances s) := by
  refine leads_finish ?_
  simp only [ensures_bind, ensures_getState, ensures_requireKraft, ensures_update]
  refine ensures_readClLens (cursorOk_iff.1 hc) fun cl k hge hle hkraft => ?_
  have hpos := linPos_cursorTo _ _ hle
  exact advances_of_pass (by simp [idleSteps, hp]) (hge.trans_eq hpos.symm) (hpos.trans_le hle) rfl
    ⟨ht, hcounts, Nat.zero_le _, hkraft⟩ (by simp)

theorem dynBuild_advances (hc : CursorOk s) (hp : s.phase = .dynBuild) (ht : s.btype = 2) :
    Leads (exec .dynBuild s) (Advances s) := by
  refine leads_finish ?_
  simp only [ensures_bind, ensures_getState, ensures_requireKraft, ensures_update]
  exact fun hll hd => advances_of_pass (by simp [idleSteps, hp]) (Nat.le_refl _) (cursorOk_iff.1 hc) rfl
    (Or.inr ⟨ht, hll, hd⟩) (by simp)

end dynamic

/-! ### Symbols

In these lemmas `s` is the state a step starts in and `u` the one the fetch has left: the symbol's code is consumed. -/

/-- Every row of the length table is within 3 and `MAX_LEN` (R94). -/
theorem length_bounds : ∀ k < 29, 3 ≤ lbase.getD k 0 ∧ lbase.getD k 0 + 2 ^ lext.getD k 0 ≤ Config.maxLen + 1 := by
  decide

/-- Every row of the distance table is within 1 and `MAX_DIST` (R95). -/
theorem distance_bounds : ∀ k < 30, 1 ≤ dbase.getD k 0 ∧ dbase.getD k 0 + 2 ^ dext.getD k 0 ≤ Config.maxDist + 1 := by
  decide

/-- A sound point of DYN_LENS, but for the number of lengths there are so far. -/
def InDynLens (u : State) : Prop :=
  u.phase = .dynLens ∧ u.btype = 2 ∧ CountsOk u ∧ kraftCheck (lensOf u.clLen) Config.maxBitsCL = .ok

section symbols
variable {s u : State} (hlt : linPos s < linPos u) (hi : u.inLen = s.inLen)
include hlt hi

/-- Code lengths that fit keep the phase sound (R143 to R147). -/
theorem appendFlat_advances (hle : linPos u ≤ 8 * u.inLen.toNat) (hok : InDynLens u) (v : BitVec 4) {n : Nat}
    (hfit : u.idx.toNat + n ≤ flatTotal u) : Advances s (appendFlat v n u) := by
  obtain ⟨hp, ht, hcounts, hkraft⟩ := hok
  have hidx : (BitVec.ofNat 9 (u.idx.toNat + n)).toNat ≤ flatTotal u := by
    simp only [BitVec.toNat_ofNat]
    exact (Nat.mod_le _ _).trans hfit
  refine advances_of_read hlt hle hi ?_ (by simp [hp])
  simp only [PhaseOk, appendFlat_phase, hp]
  exact ⟨ht, hcounts, hidx, hkraft⟩

theorem zeroRun_advances (hok : InDynLens u) (base n : Nat) :
    Ensures (zeroRun base n) u fun _ t => Advances s t := by
  simp only [zeroRun, ensures_bind, ensures_getState, ensures_require, ensures_update, decide_eq_true_eq]
  refine ensures_readBits rfl fun e _ hle hfit => ?_
  have hpos := linPos_cursorTo u _ hle
  exact appendFlat_advances (u := cursorTo _ u) (by omega) hi (hpos.trans_le hle) hok 0 hfit

theorem clRep16_advances (hok : InDynLens u) : Leads (exec .clRep16 u) (Advances s) := by
  refine leads_finish ?_
  simp only [ensures_bind, ensures_getState, ensures_require, ensures_update, decide_eq_true_eq]
  refine ensures_readBits rfl fun e _ hle _ hfit => ?_
  have hpos := linPos_cursorTo u _ hle
  exact appendFlat_advances (u := cursorTo _ u) (by omega) hi (hpos.trans_le hle) hok _ hfit

theorem lit_advances (hle : linPos u ≤ 8 * u.inLen.toNat) (hp : u.phase = .sym) (htab : TablesOk u)
    (ho : u.outPos.toNat ≤ u.outCap.toNat) (v : Byte) : Leads (exec (.lit v) u) (Advances s) := by
  refine leads_finish (ensures_emit ho fun _ => ?_)
  refine advances_of_read (t := emitted v u) hlt hle hi ?_ (by simp [hp])
  simp only [PhaseOk, emitted_phase, hp]
  exact htab

theorem matchLength_advances (htab : TablesOk u) {k : Nat} (hk : k < 29) :
    Ensures (matchLength k) u fun _ t => Advances s t := by
  obtain ⟨hmin, hmax⟩ := length_bounds k hk
  simp only [matchLength, ensures_bind, ensures_update]
  refine ensures_readBits rfl fun e he hle => ?_
  have hpos := linPos_cursorTo u _ hle
  have hlen : (BitVec.ofNat 9 (lbase.getD k 0 + e)).toNat = lbase.getD k 0 + e := by
    simp only [BitVec.toNat_ofNat, Config.maxLen] at hmax ⊢
    omega
  refine advances_of_read (lt_of_lt_of_eq (by omega) hpos.symm) (hpos.trans_le hle) hi ⟨htab, ?_, ?_⟩ (by simp)
  · simp only [hlen]; omega
  · simp only [hlen]; omega

theorem matchDistance_advances (htab : TablesOk u) (hlen : u.mLen.toNat ≤ Config.maxLen) {k : Nat} (hk : k < 30) :
    Ensures (matchDistance k) u fun _ t => Advances s t := by
  obtain ⟨hmin, hmax⟩ := distance_bounds k hk
  simp only [matchDistance, ensures_bind, ensures_getState, ensures_require, ensures_update, decide_eq_true_eq]
  refine ensures_readBits rfl fun e he hle hout => ?_
  have hpos := linPos_cursorTo u _ hle
  have hdist : (BitVec.ofNat 16 (dbase.getD k 0 + e)).toNat = dbase.getD k 0 + e := by
    simp only [BitVec.toNat_ofNat, Config.maxDist] at hmax ⊢
    omega
  refine advances_of_read (lt_of_lt_of_eq (by omega) hpos.symm) (hpos.trans_le hle) hi ⟨htab, hlen, ?_, ?_, ?_⟩ (by simp)
  · simp only [hdist]; omega
  · simp only [hdist]; exact hout
  · simp only [hdist]; omega

end symbols

/-- COPY counts `M_LEN` down (R185). -/
theorem copy_advances {s : State} (hc : CursorOk s) (hp : s.phase = .copy) (hok : PhaseOk s)
    (ho : s.outPos.toNat ≤ s.outCap.toNat) : Leads (exec .copy s) (Advances s) := by
  simp only [PhaseOk, hp] at hok
  obtain ⟨htab, hlen, hmin, hout, hmax⟩ := hok
  refine leads_finish (ensures_ite (fun _ => ?_) fun h0 => ?_)
  · exact advances_of_pass (t := setPhase .sym s) (by simp [idleSteps, hp]) (Nat.le_refl _) (cursorOk_iff.1 hc) rfl htab
      (by simp)
  · have hpos : 0 < s.mLen.toNat := Nat.pos_of_ne_zero fun h => h0 (BitVec.eq_of_toNat_eq h)
    have hdec : (s.mLen - 1).toNat = s.mLen.toNat - 1 := by
      have := s.mLen.isLt
      simp [BitVec.toNat_sub]
      omega
    simp only [ensures_bind, ensures_update]
    refine ensures_readWindow hout (by omega) (ensures_emit ho fun hroom => ?_)
    have hnext := outPos_emitted (b := outByte s (s.outPos.toNat - s.mDist.toNat)) hroom
    refine advances_of_pass ?_ (Nat.le_refl _) (cursorOk_iff.1 hc) rfl ?_ (by simp [hp])
    · simp only [idleSteps, emitted_phase, hp, emitted_mLen, hdec]
      omega
    · simp only [PhaseOk, emitted_phase, hp]
      exact ⟨htab, by simp only [emitted_mLen, hdec]; omega, hmin, by simp only [hnext, emitted_mDist]; omega, hmax⟩

/-! ### What the symbols decode to -/

theorem lensOf_length {w : Nat} (l : List (BitVec w)) : (lensOf l).length = l.length := List.length_map _

/-- Every code-length symbol is an instruction (R91). -/
theorem decodeCL_lt {sym : Nat} (h : sym < 19) : ∃ i, decodeCL sym = .ok i ∧
    ((∃ v, ∀ u, exec i u = finish (appendLength v) u) ∨ i = .clRep16 ∨
      ∃ base n, ∀ u, exec i u = finish (zeroRun base n) u) := by
  rcases Nat.lt_or_ge sym 16 with h16 | h16
  · interval_cases sym <;> exact ⟨_, rfl, .inl ⟨_, fun _ => rfl⟩⟩
  · interval_cases sym
    · exact ⟨_, rfl, .inr (.inl rfl)⟩
    · exact ⟨_, rfl, .inr (.inr ⟨_, _, fun _ => rfl⟩)⟩
    · exact ⟨_, rfl, .inr (.inr ⟨_, _, fun _ => rfl⟩)⟩

/-- Every literal/length symbol is an instruction (R92). -/
theorem decodeLL_lt {sym : Nat} (h : sym < 288) : ∃ i, decodeLL sym = .ok i ∧
    ((∃ v, i = .lit v) ∨ i = .eob ∨ (∃ k < 29, ∀ u, exec i u = finish (matchLength k) u) ∨
      ∀ u, exec i u = finish (raise .invalidCode) u) := by
  rcases Nat.lt_or_ge sym 256 with hlit | hhigh
  · exact ⟨_, if_pos hlit, .inl ⟨_, rfl⟩⟩
  rw [decodeLL, if_neg (Nat.not_lt.2 hhigh)]
  rcases Nat.lt_or_ge sym 286 with hlen | hrsvd
  · interval_cases sym
    · exact ⟨_, rfl, .inr (.inl rfl)⟩
    all_goals exact ⟨_, rfl, .inr (.inr (.inl ⟨_, by decide, fun _ => rfl⟩))⟩
  · interval_cases sym <;> exact ⟨_, rfl, .inr (.inr (.inr fun _ => rfl))⟩

/-- Every distance symbol is an instruction (R93). -/
theorem decodeDist_lt {sym : Nat} (h : sym < 32) : ∃ i, decodeDist sym = .ok i ∧
    ((∃ k < 30, ∀ u, exec i u = finish (matchDistance k) u) ∨ ∀ u, exec i u = finish (raise .invalidCode) u) := by
  rcases Nat.lt_or_ge sym 30 with hdist | hrsvd
  · interval_cases sym <;> exact ⟨_, rfl, .inl ⟨_, by decide, fun _ => rfl⟩⟩
  · interval_cases sym <;> exact ⟨_, rfl, .inr fun _ => rfl⟩

theorem hasActiveTables_of_tablesOk {s : State} (h : TablesOk s) : hasActiveTables s = true := by
  rcases h with h | ⟨h, -, -⟩ <;> simp [hasActiveTables, h]

theorem activeLL_length {s : State} (h : SizesOk s) : (activeLL s).length = 288 := by
  unfold activeLL
  split
  · simp only [fixLL, List.length_append, List.length_replicate]
  · exact (lensOf_length _).trans h.2.2.1

theorem activeDist_length {s : State} (h : SizesOk s) : (activeDist s).length = 32 := by
  unfold activeDist
  split
  · simp [fixD]
  · exact (lensOf_length _).trans h.2.2.2

/-! ### The core step -/

/-- What the core makes of what the fetch answered (R189): it runs the instruction, or passes on to DYN_BUILD. -/
def RunsTo (P : State → Prop) : Option Instr → State → Prop
  | some i, u => Leads (exec i u) P
  | none, u => P (setPhase .dynBuild u)

theorem leads_coreStep {s : State} {P : State → Prop} (h : Ensures fetch s (RunsTo P)) : Leads (coreStep s) P := by
  unfold Ensures at h
  unfold coreStep
  cases hf : fetch s with
  | ok i u =>
    rw [hf] at h
    cases i with
    | some i => exact h
    | none => exact ⟨_, rfl, .inr h⟩
  | error e u =>
    rw [hf] at h
    cases e with
    | trap e => exact ⟨_, rfl, .inl rfl⟩
    | fault f => exact h.elim
    | refuse r => exact h.elim

theorem ensures_decoded {sel : Selector} {i : Instr} {s : State} {Q : Option Instr → State → Prop}
    (h : decode sel = .ok i) (hQ : Q (some i) s) : Ensures (decoded sel) s Q := by
  rw [decoded, h]
  exact ensures_pure.2 hQ

theorem ensures_decoded_finish {sel : Selector} {i : Instr} {op : Op Unit} {s : State} {P : State → Prop}
    (h : decode sel = .ok i) (he : ∀ u, exec i u = finish op u) (hop : Ensures op s fun _ t => P t) :
    Ensures (decoded sel) s (RunsTo P) :=
  ensures_decoded h (he s ▸ leads_finish hop : Leads (exec i s) P)

section step
variable {s : State}

theorem fetchBlockHeader_advances : Ensures fetchBlockHeader s (RunsTo (Advances s)) := by
  simp only [fetchBlockHeader, ensures_bind, ensures_update]
  refine ensures_readBits rfl fun bfinal _ l1 => ensures_readBits (linPos_cursorTo _ _ l1) fun btype _ l2 => ?_
  have hpos := linPos_cursorTo _ _ l2
  exact ensures_decoded rfl
    (decodeBtype_advances (s := s) _ (lt_of_lt_of_eq (by omega) hpos.symm) (hpos.trans_le l2) rfl _)

theorem fetchClSymbol_advances (hc : CursorOk s) (hok : PhaseOk s) (hsize : SizesOk s) (hp : s.phase = .dynLens) :
    Ensures fetchClSymbol s (RunsTo (Advances s)) := by
  simp only [PhaseOk, hp] at hok
  obtain ⟨ht, hcounts, hidx, hkraft⟩ := hok
  simp only [fetchClSymbol, ensures_bind, ensures_getState]
  refine ensures_ite (fun hfull => ?_) fun hroom => ?_
  · exact advances_of_pass (t := setPhase .dynBuild s) (by simp [idleSteps, hp]) (Nat.le_refl _) (cursorOk_iff.1 hc)
      rfl ⟨ht, hcounts, hfull⟩ (by simp)
  · rw [ensures_bind]
    refine ensures_huffDecode fun sym k hsym hgt hle => ?_
    have hpos := linPos_cursorTo s k hle
    have hin : InDynLens (cursorTo k s) := ⟨hp, ht, hcounts, hkraft⟩
    have hlt := hgt.trans_eq hpos.symm
    rw [lensOf_length, hsize.1] at hsym
    obtain ⟨i, hi, ⟨v, he⟩ | rfl | ⟨base, n, he⟩⟩ := decodeCL_lt hsym
    · have hfit := Nat.lt_of_le_of_ne hidx hroom
      exact ensures_decoded_finish hi he (appendFlat_advances hlt rfl (hpos.trans_le hle) hin v hfit)
    · exact ensures_decoded hi (clRep16_advances hlt rfl hin)
    · exact ensures_decoded_finish hi he (zeroRun_advances hlt rfl hin base n)

theorem fetchLLSymbol_advances (hsize : SizesOk s) (hp : s.phase = .sym) (htab : TablesOk s)
    (ho : s.outPos.toNat ≤ s.outCap.toNat) : Ensures fetchLLSymbol s (RunsTo (Advances s)) := by
  simp only [fetchLLSymbol, ensures_bind, ensures_getState, hasActiveTables_of_tablesOk htab, if_true]
  refine ensures_huffDecode fun sym k hsym hgt hle => ?_
  have hpos := linPos_cursorTo s k hle
  have hlt := hgt.trans_eq hpos.symm
  rw [activeLL_length hsize] at hsym
  obtain ⟨i, hi, ⟨v, rfl⟩ | rfl | ⟨n, hn, he⟩ | he⟩ := decodeLL_lt hsym
  · exact ensures_decoded hi (lit_advances hlt rfl (hpos.trans_le hle) hp htab ho v)
  · exact ensures_decoded hi (leads_finish (blockEnd_advances (s := s) (hpos.trans_le hle) rfl (.inl hlt)))
  · exact ensures_decoded_finish hi he (matchLength_advances hlt rfl htab hn)
  · exact ensures_decoded_finish hi he ensures_raise

theorem fetchDistSymbol_advances (hsize : SizesOk s) (htab : TablesOk s) (hlen : s.mLen.toNat ≤ Config.maxLen) :
    Ensures fetchDistSymbol s (RunsTo (Advances s)) := by
  simp only [fetchDistSymbol, ensures_bind, ensures_getState, hasActiveTables_of_tablesOk htab, if_true]
  refine ensures_huffDecode fun sym k hsym hgt hle => ?_
  have hlt := hgt.trans_eq (linPos_cursorTo s k hle).symm
  rw [activeDist_length hsize] at hsym
  obtain ⟨i, hi, ⟨n, hn, he⟩ | he⟩ := decodeDist_lt hsym
  · exact ensures_decoded_finish hi he (matchDistance_advances hlt rfl htab hlen hn)
  · exact ensures_decoded_finish hi he ensures_raise

/-- From a sound point of a run the core has a next state, and without a fault it is a sound point with fewer steps
left. -/
theorem coreStep_advances (hc : CursorOk s) (hok : PhaseOk s) (hsize : SizesOk s)
    (ho : s.outPos.toNat ≤ s.outCap.toNat) (hbusy : s.busy = true) : Leads (coreStep s) (Advances s) := by
  refine leads_coreStep ?_
  have hph := hok
  unfold fetch
  cases hp : s.phase <;> simp only [PhaseOk, hp] at hph <;> simp only [ensures_bind, ensures_getState, hp]
  case idle | done | error => simp [State.busy, hp, Phase.busy] at hbusy
  case hdrFixed => exact ensures_decoded rfl (gzHdr_advances hc hph)
  case hdrExtra => exact ensures_decoded rfl (gzFextra_advances hc hph hp)
  case hdrName => exact ensures_decoded rfl (gzFname_advances hc hph hp)
  case hdrComment => exact ensures_decoded rfl (gzFcomment_advances hc hph hp)
  case hdrHcrc => exact ensures_decoded rfl (gzFhcrc_advances hc hph hp)
  case blkHdr => exact fetchBlockHeader_advances
  case storedLen => exact ensures_decoded rfl (storedLen_advances hc)
  case storedCopy => exact ensures_decoded rfl (storedByte_advances hc hph ho hp)
  case dynCounts => exact ensures_decoded rfl (dynCounts_advances hph)
  case dynCllen => exact ensures_decoded rfl (dynCllen_advances hc hp hph.1 hph.2.1)
  case dynLens => exact fetchClSymbol_advances hc hok hsize hp
  case dynBuild => exact ensures_decoded rfl (dynBuild_advances hc hp hph.1)
  case sym => exact fetchLLSymbol_advances hsize hp hph ho
  case symDist => exact fetchDistSymbol_advances hsize hph.1 hph.2.2
  case copy => exact ensures_decoded rfl (copy_advances hc hp hok ho)
  case trailer => exact ensures_decoded rfl (gzTrailer_advances hc)

end step

end Sys2Proof.Machine
end

section
/-! PROOFS. A relation that holds of every register write, every cursor move and `emit` holds of every core step. -/

namespace Sys2Proof.Machine

theorem decode_ne_start {sel : Selector} {i : Instr} (h : decode sel = .ok i) (hsel : ∀ data, sel ≠ .ctrl data) :
    i ≠ .start := by
  rintro rfl
  cases sel with
  | byPhase p => cases p <;> cases h
  | magic w =>
    simp only [decode, decodeMagic] at h
    split at h
    · cases h
    · split at h <;> cases h
  | btype bfinal w =>
    simp only [decode, decodeBtype, Except.ok.injEq] at h
    split at h
    · cases h
    · split at h
      · cases h
      · split at h <;> cases h
  | cl s =>
    simp only [decode] at h
    unfold decodeCL at h
    split at h <;> cases h
  | ll s =>
    simp only [decode, decodeLL] at h
    split at h
    · cases h
    · unfold decodeLLHigh at h
      split at h <;> cases h
  | dist s =>
    simp only [decode] at h
    unfold decodeDist at h
    split at h <;> cases h
  | ctrl data => exact hsel data rfl

theorem decoded_ok {sel : Selector} {o : Option Instr} {s t : State} (h : decoded sel s = .ok o t) :
    ∃ i, o = some i ∧ decode sel = .ok i := by
  unfold decoded at h
  cases hd : decode sel <;> rw [hd] at h <;> cases h
  exact ⟨_, rfl, rfl⟩

/-- The fetch never answers START: that is the host's (R31). -/
theorem fetch_ne_start {s t : State} {i : Instr} (h : fetch s = .ok (some i) t) : i ≠ .start := by
  have hdec : ∀ {sel : Selector} {u : State}, (∀ data, sel ≠ .ctrl data) → decoded sel u = .ok (some i) t →
      i ≠ .start := by
    intro sel u hsel hd
    obtain ⟨j, hj, hdecode⟩ := decoded_ok hd
    cases hj
    exact decode_ne_start hdecode hsel
  cases hp : s.phase <;> simp only [fetch, bind_apply, getState_apply, hp] at h
  case blkHdr =>
    obtain ⟨_, _, -, h⟩ := bind_ok h
    obtain ⟨_, _, -, h⟩ := bind_ok h
    obtain ⟨_, _, -, h⟩ := bind_ok h
    exact hdec (by simp) h
  case dynLens =>
    obtain ⟨_, _, -, h⟩ := bind_ok h
    rw [ite_apply_op] at h
    split at h
    · cases h
    · obtain ⟨_, _, -, h⟩ := bind_ok h
      exact hdec (by simp) h
  case sym | symDist =>
    obtain ⟨_, _, -, h⟩ := bind_ok h
    rw [ite_apply_op] at h
    split at h
    · obtain ⟨_, _, -, h⟩ := bind_ok h
      exact hdec (by simp) h
    · cases h
  case idle | done | error => cases h
  all_goals exact hdec (by simp) h

section keeps
variable {R : State → State → Prop} (htrans : ∀ a b c, R a b → R b c → R a c) (hreg : ∀ s t, SameData s t → R s t)
  (hbits : ∀ s n, linPos s + n ≤ 8 * s.inLen.toNat → R s (cursorTo (linPos s + n) s))
  (hbytes : ∀ s k, s.bytePos.toNat + k ≤ s.inLen.toNat →
    R s { s with bytePos := BitVec.ofNat 32 (s.bytePos.toNat + k) })
  (halign : ∀ s t, alignToByte s = .ok () t → R s t)
  (hemit : ∀ s b, s.outPos.toNat < s.outCap.toNat → R s (emitted b s))
include htrans hreg hbits hbytes halign hemit

/-- A relation that holds of every register write, every cursor move and `emit` holds of every instruction but START. -/
theorem exec_keeps {i : Instr} {s t : State} (hi : i ≠ .start) (h : exec i s = .next t) : R s t := by
  cases hb : readsBytes i with
  | false => exact exec_bits_keeps htrans hreg hbits hemit hb hi h
  | true =>
    have hkind : i ∈ [.gzHdr, .gzFextra, .gzFname, .gzFcomment, .gzFhcrc, .storedByte] ∨
        (i = .gzTrailer ∨ i = .storedLen) := by
      cases i <;> simp [readsBytes] at hb ⊢
    rcases hkind with hplain | haligned
    · exact exec_bytes_keeps htrans hreg hbytes hemit hplain h
    · obtain ⟨u, hu, hR⟩ := exec_aligned_keeps htrans hreg hbytes haligned h
      exact htrans _ _ _ (halign _ _ hu) hR

/-- Such a relation holds of every core step. -/
theorem coreStep_keeps {s t : State} (h : coreStep s = .next t) : R s t := by
  have hfetch := fetch_keeps htrans hreg hbits
  unfold coreStep at h
  split at h
  case h_1 i u hf =>
    exact htrans _ _ _ (hfetch.ok hf) (exec_keeps htrans hreg hbits hbytes halign hemit (fetch_ne_start hf) h)
  case h_2 u hf =>
    cases h
    exact htrans _ _ _ (hfetch.ok hf) (hreg _ _ (SameData.of_eq rfl))
  case h_3 e u hf =>
    cases h
    exact htrans _ _ _ (hfetch.error hf) (hreg _ _ (SameData.of_eq rfl))
  case h_4 => cases h
  case h_5 => cases h

end keeps

/-- What no core step disturbs: the host's pending moves, the sizes of the arrays, the output within its bound. -/
structure KeepsShape (s t : State) : Prop where
  pending : t.pending = s.pending
  sizes : SizesOk s → SizesOk t
  outPos : s.outPos.toNat ≤ s.outCap.toNat → t.outPos.toNat ≤ t.outCap.toNat

theorem coreStep_keepsShape {s t : State} (h : coreStep s = .next t) : KeepsShape s t := by
  refine coreStep_keeps (R := KeepsShape) ?_ ?_ ?_ ?_ ?_ ?_ h
  · exact fun a b c h1 h2 => ⟨h2.pending.trans h1.pending, h2.sizes ∘ h1.sizes, h2.outPos ∘ h1.outPos⟩
  · exact fun a b h => ⟨h.pending, h.sizes, fun ho => by rwa [h.outPos, h.outCap]⟩
  · exact fun _ _ _ => ⟨rfl, id, id⟩
  · exact fun _ _ _ => ⟨rfl, id, id⟩
  · intro a b h
    simp only [alignToByte, EStateM.Result.ok.injEq, true_and] at h
    subst h
    split <;> exact ⟨rfl, id, id⟩
  · exact fun a b hlt => ⟨rfl, id, fun _ => (outPos_emitted hlt).trans_le hlt⟩

end Sys2Proof.Machine
end

section
/-! PROOFS. Every run ends (spec/00_scope.md R11, spec/40_bitstream_reader.md R116). -/

namespace Sys2Proof.Machine

/-- A sound point of a run with no host move pending: the parts of `Inv` that keep the core going. -/
structure RunOk (s : State) : Prop where
  pending : s.pending = []
  sizes : SizesOk s
  outPos : s.outPos.toNat ≤ s.outCap.toNat
  cursor : CursorOk s
  phase : PhaseOk s

theorem runOk_of_inv {s : State} (h : Inv s) (hb : s.busy = true) (hp : s.pending = []) : RunOk s :=
  ⟨hp, h.sizes, h.outPos, (h.run hb).cursor, (h.run hb).phase⟩

theorem step_of_pending_nil {s : State} (h : s.pending = []) : step s = coreStep s := by
  simp only [step, systemStep, h]

/-- One step of a run: to ERROR, or to a sound point with fewer steps left. -/
theorem step_runOk {s : State} (h : RunOk s) (hb : s.busy = true) :
    Leads (step s) fun t => RunOk t ∧ t.phase ≠ .idle ∧ stepBound t < stepBound s := by
  rw [step_of_pending_nil h.pending]
  obtain ⟨t, ht, hend⟩ := coreStep_advances h.cursor h.phase h.sizes h.outPos hb
  have hk := coreStep_keepsShape ht
  exact ⟨t, ht, hend.imp_right fun ha => ⟨⟨hk.pending.trans h.pending, hk.sizes h.sizes, hk.outPos h.outPos, ha.cursor,
    ha.phase⟩, ha.notIdle, ha.bound⟩⟩

theorem run_succ {s t : State} (h : step s = .next t) (n : Nat) :
    Host.Core.run core (n + 1) s = Host.Core.run core n t := by
  simp only [Host.Core.run, core, h]

theorem ended_of_not_busy {s : State} (hb : s.busy ≠ true) (hn : s.phase ≠ .idle) : s.phase = .done ∨ s.phase = .error := by
  cases hp : s.phase <;> simp_all [State.busy, Phase.busy]

/-- By induction on the bound on the steps left. -/
theorem run_ends {s : State} (h : RunOk s) (hb : s.busy = true) :
    ∃ n t, Host.Core.run core n s = .next t ∧ (t.phase = .done ∨ t.phase = .error) := by
  induction hm : stepBound s using Nat.strong_induction_on generalizing s with
  | _ m ih =>
    obtain ⟨t, ht, herr | ⟨hok, hidle, hlt⟩⟩ := step_runOk h hb
    · exact ⟨1, t, run_succ ht 0, .inr herr⟩
    · by_cases hbt : t.busy = true
      · obtain ⟨n, u, hrun, hend⟩ := ih _ (hm ▸ hlt) hok hbt rfl
        exact ⟨n + 1, u, (run_succ ht n).trans hrun, hend⟩
      · exact ⟨1, t, run_succ ht 0, ended_of_not_busy hbt hidle⟩

/-- Settles O50: each step of a run lowers a bound on the steps left. -/
theorem everyRunEnds : Obligations.EveryRunEnds :=
  fun _ h hb hp => run_ends (runOk_of_inv h hb hp) hb

end Sys2Proof.Machine
end

section
/-! PROOFS. A sound state in its parts, and the states that reset and START leave (spec/10_state.md R48 to R50). -/

namespace Sys2Proof.Machine

/-! ### The parts of a sound state -/

/-- The memories' part of `Inv`: both are canonical and inside their spaces (R60, R61). -/
structure MemoriesOk (s : State) : Prop where
  inWf : Memory.wf s.inMem
  outWf : Memory.wf s.outMem
  inSpace : ∀ p ∈ s.inMem, p.1 < 2 ^ 32
  outSpace : ∀ p ∈ s.outMem, p.1 < s.outCap.toNat

/-- The status part of `Inv`: what `ERR`, `TRAILING` and DONE say (R35, R36, R189). -/
structure StatusOk (s : State) : Prop where
  err : (s.err ≠ 0 ↔ s.phase = .error) ∧ s.err.toNat ≤ 12
  trailing : s.trailing = 1 → s.phase = .done
  done : s.phase = .done → DoneOk s

/-- Neither a fault nor DONE has happened since the last reset or START. -/
def Quiet (s : State) : Prop := s.phase ≠ .done ∧ s.phase ≠ .error ∧ s.err = 0 ∧ s.trailing ≠ 1

section parts
variable {s t : State}

theorem inv_iff_parts : Inv s ↔ MemoriesOk s ∧ SizesOk s ∧ s.outPos.toNat ≤ s.outCap.toNat ∧ StatusOk s ∧
    (s.busy = true → RunInv s) :=
  ⟨fun h => ⟨⟨h.inWf, h.outWf, h.inSpace, h.outSpace⟩, h.sizes, h.outPos, ⟨h.err, h.trailing, h.done⟩, h.run⟩,
    fun ⟨hm, hsize, hout, hst, hrun⟩ => ⟨hm.inWf, hm.outWf, hm.inSpace, hm.outSpace, hsize, hout, hst.err, hst.trailing,
      hrun, hst.done⟩⟩

theorem statusOk_of_quiet (h : Quiet s) : StatusOk s := by
  obtain ⟨hdone, herror, herr, htrail⟩ := h
  exact ⟨⟨by simp [herr, herror], by simp [herr]⟩, fun h => absurd h htrail, fun h => absurd h hdone⟩

theorem trapCode_range (e : Trap) : trapCode e ≠ 0 ∧ (trapCode e).toNat ≤ 12 := by
  cases e <;> decide

/-- A trap taken outside DONE is the fault that ERR names (R251). -/
theorem statusOk_takeTrap (e : Trap) (h : s.trailing ≠ 1) : StatusOk (takeTrap e s) :=
  ⟨⟨iff_of_true (trapCode_range e).1 rfl, (trapCode_range e).2⟩, fun ht => absurd ht h, nofun⟩

/-- In a run nothing has ended it. -/
theorem quiet_of_inv (h : Inv s) (hb : s.busy = true) : Quiet s := by
  have hdone : s.phase ≠ .done := fun hp => by simp [State.busy, hp, Phase.busy] at hb
  have herror : s.phase ≠ .error := fun hp => by simp [State.busy, hp, Phase.busy] at hb
  exact ⟨hdone, herror, not_not.1 fun he => herror (h.err.1.1 he), fun ht => hdone (h.trailing ht)⟩

theorem memWrite_space {m : Memory} {a n : Nat} {b : Byte} (h : ∀ p ∈ m, p.1 < n) (ha : a < n) :
    ∀ p ∈ memWrite m a b, p.1 < n := fun p hp =>
  (mem_memWrite hp).elim (fun he => he ▸ ha) (h p)

theorem memoriesOk_writeIn {a : Nat} (h : MemoriesOk s) (ha : a < 2 ^ 32) (b : Byte) :
    MemoriesOk { s with inMem := memWrite s.inMem a b } :=
  ⟨memWrite_wf h.inWf a b, h.outWf, memWrite_space h.inSpace ha, h.outSpace⟩

theorem memoriesOk_writeOut {a : Nat} (h : MemoriesOk s) (ha : a < s.outCap.toNat) (b : Byte) :
    MemoriesOk { s with outMem := memWrite s.outMem a b } :=
  ⟨h.inWf, memWrite_wf h.outWf a b, h.inSpace, memWrite_space h.outSpace ha⟩

/-- The host's own fields have no part in soundness. -/
theorem inv_withHost (h : Inv s) (pending : List HostMove) (hostData : Word) (draws : Nat) :
    Inv (withHost pending hostData draws s) :=
  ⟨h.inWf, h.outWf, h.inSpace, h.outSpace, h.sizes, h.outPos, h.err, h.trailing,
    fun hb =>
      have hrun := h.run hb
      ⟨hrun.cursor, hrun.crc.trans (congrArg crc32 (outBytes_congr fun _ _ _ => rfl)), hrun.window, hrun.phase⟩,
    h.done⟩

end parts

/-! ### Reset and START -/

/-- Waiting for START with no result left is sound, whatever the arrays and the memories hold. -/
theorem inv_of_idle {s : State} (hp : s.phase = .idle) (hm : MemoriesOk s) (hsize : SizesOk s)
    (h0 : s.outPos = 0 ∧ s.err = 0 ∧ s.trailing = 0) : Inv s := by
  obtain ⟨hout, herr, htrail⟩ := h0
  refine inv_iff_parts.2 ⟨hm, hsize, by simp [hout], statusOk_of_quiet ⟨?_, ?_, herr, by simp [htrail]⟩, fun hb => ?_⟩
  · simp [hp]
  · simp [hp]
  · simp [State.busy, hp, Phase.busy] at hb

/-- Settles O47: nothing is listed in the memories and no run has left a result. -/
theorem resetIsSound : Obligations.ResetIsSound :=
  inv_of_idle rfl ⟨reset_memories_wf.1, reset_memories_wf.2, nofun, nofun⟩
    ⟨List.length_replicate, List.length_replicate, List.length_replicate, List.length_replicate⟩ ⟨rfl, rfl, rfl⟩

/-- Settles O60: the table of R48, register by register. -/
theorem resetRegisterValues : Obligations.ResetRegisterValues := by
  unfold Obligations.ResetRegisterValues
  exact ⟨rfl, rfl, rfl, rfl, rfl, rfl, rfl, rfl, rfl, rfl, rfl, rfl, rfl, rfl, rfl, rfl, rfl, rfl, rfl, rfl, rfl⟩

theorem length_resetArray (w draw array n : Nat) : (resetArray w draw array n).length = n := by
  simp [resetArray]

theorem resetState_sizes (s : State) : SizesOk (resetState s) :=
  ⟨length_resetArray .., length_resetArray .., length_resetArray .., length_resetArray ..⟩

/-- Outside a run a reset leaves `OUT` (R48). -/
theorem outByte_resetState {s : State} (hb : s.busy = false) (a : Nat) : outByte (resetState s) a = outByte s a :=
  outByte_congr (by simp [resetState, hb]) (by simp [resetState, hb]) a

theorem inv_resetState {s : State} (h : Inv s) : Inv (resetState s) := by
  refine inv_of_idle rfl ⟨h.inWf, ?_, h.inSpace, ?_⟩ (resetState_sizes s) ⟨rfl, rfl, rfl⟩
  · simp only [resetState]
    split
    · exact List.Pairwise.nil
    · exact h.outWf
  · simp only [resetState]
    split
    · exact nofun
    · exact h.outSpace

/-- START begins with an empty output and the cursor at the first byte (R49). -/
theorem inv_started {s : State} (h : Inv s) : Inv (started s) :=
  inv_iff_parts.2 ⟨⟨h.inWf, h.outWf, h.inSpace, h.outSpace⟩, h.sizes, Nat.zero_le _,
    statusOk_of_quiet ⟨by simp, by simp, rfl, by simp⟩,
    fun _ => ⟨⟨Nat.zero_le _, fun _ => rfl⟩, rfl, fun _ ha => absurd ha (Nat.not_lt_zero _), rfl⟩⟩

end Sys2Proof.Machine
end

section
/-! PROOFS. What a move of the host can do, said once for a busy and for an idle block, and that it keeps a sound state
sound (spec/46_host_control.md, spec/70_reset_and_hazards.md R280). -/

namespace Sys2Proof.Machine

section moves
variable {s t : State} {m : HostMove} {rest : List HostMove}

/-- A pending access of the host is the next step (log 2). -/
theorem step_of_hostActs (hp : s.pending = m :: rest) (h : hostActs m = true) :
    step s = hostMove m { s with pending := rest } := by
  simp only [step, systemStep, hp, h, Bool.true_or, if_true]

/-- While not BUSY every pending move is the next step, `wait` too (log 2). -/
theorem step_of_not_busy (hp : s.pending = m :: rest) (hb : s.busy = false) :
    step s = hostMove m { s with pending := rest } := by
  simp only [step, systemStep, hp, hb, Bool.not_false, Bool.or_true, if_true]

/-- Outside a run the core has no step (R23, R189). -/
theorem coreStep_of_not_busy (hb : s.busy = false) : coreStep s = .fault .noStep := by
  have hp : s.phase = .idle ∨ s.phase = .done ∨ s.phase = .error := by
    cases h : s.phase <;> simp [State.busy, h, Phase.busy] at hb ⊢
  rcases hp with hp | hp | hp <;> simp [coreStep, fetch, hp]

theorem hostMove_writeCtrl (s : State) (data : Word) :
    hostMove (.regWrite 0 4 data) s = if data.getLsbD 0 then execStart s else .next s := by
  simp [hostMove, hostRegWrite, aligned]

/-- While BUSY a host move other than a reset changes only what the host has read, and the draws (R73, R234, R235). -/
theorem hostMove_of_busy (hb : s.busy = true) (hm : m ≠ .hardReset) (h : hostMove m s = .next t) :
    ∃ hostData draws, t = withHost s.pending hostData draws s := by
  cases m with
  | regRead offset size =>
    simp only [hostMove, hostRegRead, hb, if_true] at h
    split at h <;> cases h
    exact ⟨_, _, rfl⟩
  | regWrite offset size data =>
    have hsame : t = s := by
      simp only [hostMove, hostRegWrite, execStart, hb, if_true, ite_self] at h
      split at h <;> cases h
      rfl
    exact ⟨s.hostData, s.draws, hsame⟩
  | readIn a =>
    simp only [hostMove, hostReadIn] at h
    split at h <;> cases h
    exact ⟨_, s.draws, rfl⟩
  | writeIn a b => simp [hostMove, hostWriteIn, hb] at h
  | readOut a => simp [hostMove, hostReadOut, hb] at h
  | writeOut a b => simp [hostMove, hostWriteOut, hb] at h
  | hardReset => exact absurd rfl hm
  | wait =>
    cases h
    exact ⟨s.hostData, s.draws, rfl⟩

/-- What the host can change without START or a reset: its own fields, `CFG`, `IN_LEN` and the memories, which it leaves
canonical and inside their spaces. -/
structure HostOnly (s t : State) : Prop where
  frame : t = { s with pending := t.pending, hostData := t.hostData, hcrcCheck := t.hcrcCheck, inLen := t.inLen,
                       inMem := t.inMem, outMem := t.outMem }
  memories : MemoriesOk s → MemoriesOk t

/-- A move that leaves the memories. -/
theorem hostOnly_of_registers (h : t = { s with hostData := t.hostData, hcrcCheck := t.hcrcCheck, inLen := t.inLen }) :
    HostOnly s t := by
  rw [h]
  exact ⟨rfl, fun ⟨h1, h2, h3, h4⟩ => ⟨h1, h2, h3, h4⟩⟩

/-- While not BUSY a host move is a reset, START, or leaves the results (R35, R237). -/
theorem hostMove_of_not_busy (hb : s.busy = false) (hm : m ≠ .hardReset) (h : hostMove m s = .next t) :
    HostOnly s t ∨ t = started s ∧ ∃ data : Word, data.getLsbD 0 = true ∧ m = .regWrite 0 4 data := by
  cases m with
  | regRead offset size =>
    simp only [hostMove, hostRegRead, hb] at h
    split at h <;> cases h
    exact .inl (hostOnly_of_registers rfl)
  | regWrite offset size data =>
    simp only [hostMove, hostRegWrite, execStart, hb, Bool.false_eq_true, if_false] at h
    split at h
    · cases h
    rename_i hal
    split at h
    · rename_i hoff
      split at h <;> cases h
      · rename_i hbit
        have hsize : size = 4 := by simp [aligned] at hal; exact hal.1
        exact .inr ⟨rfl, data, hbit, by rw [hoff, hsize]⟩
      · exact .inl (hostOnly_of_registers rfl)
    · split at h
      · cases h
        exact .inl (hostOnly_of_registers rfl)
      · split at h <;> cases h <;> exact .inl (hostOnly_of_registers rfl)
  | readIn a =>
    simp only [hostMove, hostReadIn] at h
    split at h <;> cases h
    exact .inl (hostOnly_of_registers rfl)
  | writeIn a b =>
    simp only [hostMove, hostWriteIn, hb, Bool.false_eq_true, if_false] at h
    split at h <;> cases h
    exact .inl ⟨rfl, fun hmem => memoriesOk_writeIn hmem (Nat.not_le.1 ‹_›) b⟩
  | readOut a =>
    simp only [hostMove, hostReadOut, hb, Bool.false_eq_true, if_false] at h
    split at h <;> cases h
    exact .inl (hostOnly_of_registers rfl)
  | writeOut a b =>
    simp only [hostMove, hostWriteOut, hb, Bool.false_eq_true, if_false] at h
    split at h <;> cases h
    exact .inl ⟨rfl, fun hmem => memoriesOk_writeOut hmem (Nat.not_le.1 ‹_›) b⟩
  | hardReset => exact absurd rfl hm
  | wait =>
    cases h
    exact .inl (hostOnly_of_registers rfl)

/-- Outside a run the invariant speaks of nothing else that the host can change. -/
theorem inv_of_hostOnly (h : Inv s) (hb : s.busy = false) (ht : HostOnly s t) : Inv t := by
  obtain ⟨hmem, hsize, hout, ⟨herr, htrail, hdone⟩, -⟩ := inv_iff_parts.1 h
  have hmem' := ht.memories hmem
  rw [ht.frame] at hmem' ⊢
  exact inv_iff_parts.2 ⟨hmem', hsize, hout, ⟨herr, htrail, hdone⟩, fun hb' => absurd (hb.symm.trans hb') (by decide)⟩

/-- Every move of the host keeps a sound state sound. -/
theorem inv_hostMove (h : Inv s) (ht : hostMove m s = .next t) : Inv t := by
  by_cases hm : m = .hardReset
  · subst hm
    cases ht
    exact inv_resetState h
  cases hb : s.busy with
  | true =>
    obtain ⟨hostData, draws, rfl⟩ := hostMove_of_busy hb hm ht
    exact inv_withHost h _ _ _
  | false =>
    rcases hostMove_of_not_busy hb hm ht with honly | ⟨rfl, -⟩
    · exact inv_of_hostOnly h hb honly
    · exact inv_started h

end moves

/-- Settles O54: START is the host's write of 1 to bit 0 of CTRL, and `started` is what it leaves. -/
theorem startBeginsARun : Obligations.StartBeginsARun := by
  unfold Obligations.StartBeginsARun
  refine fun s => ⟨fun data rest hp => ?_, fun hb => ?_, fun hb => ?_⟩
  · rw [step_of_hostActs hp rfl, hostMove_writeCtrl]
    exact ⟨fun hbit => if_pos hbit, fun hbit => if_neg (Bool.eq_false_iff.1 hbit)⟩
  · exact congrArg Host.Outcome.next (if_pos hb)
  · exact congrArg Host.Outcome.next (if_neg (Bool.eq_false_iff.1 hb))

/-- Settles O58: with no move pending the core has no step, and a move of the host leaves the results. -/
theorem resultsStayUntilStart : Obligations.ResultsStayUntilStart := by
  unfold Obligations.ResultsStayUntilStart
  intro s hb
  constructor
  · intro hp
    rw [step_of_pending_nil hp]
    exact coreStep_of_not_busy hb
  · intro m rest t hp hm hstart ht
    rw [step_of_not_busy hp hb] at ht
    rcases hostMove_of_not_busy (s := { s with pending := rest }) hb hm ht with honly | ⟨-, data, hbit, rfl⟩
    · exact honly.frame
    · exact absurd rfl (hstart data hbit)

/-- Settles O59: the reset is `resetState`, whose registers are those of the state after reset. -/
theorem hardwareReset : Obligations.HardwareReset := by
  unfold Obligations.HardwareReset
  intro s rest hp
  obtain ⟨hcl, hflat, hll, hd⟩ := resetState_sizes { s with pending := rest }
  exact ⟨_, step_of_hostActs hp rfl, rfl, hcl, hflat, hll, hd, fun hb => outByte_resetState hb⟩

end Sys2Proof.Machine
end

section
/-! PROOFS. A core step keeps the output sound: the memories, the CRC and the window (spec/10_state.md R28, R50;
spec/44_inflate_engine.md R183). -/

namespace Sys2Proof.Machine

/-- What a run has produced is sound: the memories, the CRC of the output, the window. -/
structure OutputOk (s : State) : Prop where
  memories : MemoriesOk s
  crc : CrcOk s
  window : WindowOk s

section output
variable {s t : State}

/-- Only the memories, `OUT_POS`, `CRC` and the model's own two fields about `OUT` have a part in it. -/
theorem OutputOk.congr (h : OutputOk s) (hin : t.inMem = s.inMem) (hout : t.outMem = s.outMem)
    (hpos : t.outPos = s.outPos) (hcap : t.outCap = s.outCap) (hepoch : t.outEpoch = s.outEpoch) (hcrc : t.crc = s.crc) :
    OutputOk t where
  memories := by
    obtain ⟨h1, h2, h3, h4⟩ := h.memories
    exact ⟨hin ▸ h1, hout ▸ h2, hin ▸ h3, hout ▸ hcap ▸ h4⟩
  crc := by
    rw [CrcOk, hcrc, hpos, h.crc, outBytes_congr fun x _ _ => outByte_congr hout hepoch x]
  window := fun a ha => hout ▸ h.window a (hpos ▸ ha)

/-- `emit` extends the output by one byte, and CRC and window with it (R183). -/
theorem outputOk_emitted (h : OutputOk s) (hroom : s.outPos.toNat < s.outCap.toNat) (b : Byte) :
    OutputOk (emitted b s) where
  memories := by
    obtain ⟨h1, h2, h3, h4⟩ := memoriesOk_writeOut h.memories hroom b
    exact ⟨h1, h2, h3, h4⟩
  crc := by
    rw [CrcOk, outBytes_emitted hroom, crc32_snoc, emitted_crc, h.crc]
  window := by
    intro a ha
    rw [outPos_emitted hroom] at ha
    rw [emitted_outMem, memLookup_memWrite]
    split
    · rfl
    · exact h.window a (by omega)

theorem coreStep_outputOk (h : coreStep s = .next t) : OutputOk s → OutputOk t := by
  refine coreStep_keeps (R := fun s t => OutputOk s → OutputOk t) ?_ ?_ ?_ ?_ ?_ ?_ h
  · exact fun _ _ _ h1 h2 => h2 ∘ h1
  · exact fun _ _ hsame h => h.congr hsame.inMem hsame.outMem hsame.outPos hsame.outCap hsame.outEpoch hsame.crc
  · exact fun _ _ _ h => h.congr rfl rfl rfl rfl rfl rfl
  · exact fun _ _ _ h => h.congr rfl rfl rfl rfl rfl rfl
  · intro a b hab h
    simp only [alignToByte, EStateM.Result.ok.injEq, true_and] at hab
    subst hab
    split
    · exact h
    · exact h.congr rfl rfl rfl rfl rfl rfl
  · exact fun _ b hroom h => outputOk_emitted h hroom b

end output

end Sys2Proof.Machine
end

section
/-! PROOFS. What a core step does to the status (spec/10_state.md R35, R36; spec/60_exceptions.md R251): only taking a
trap writes `ERR`, and only GZ.TRAILER writes `TRAILING` and ends a run in DONE. -/

namespace Sys2Proof.Machine

/-- From a state in which nothing has ended the run to another one. -/
def QuietStays (s t : State) : Prop := Quiet s → Quiet t

theorem QuietStays.refl (s : State) : QuietStays s s := id

theorem QuietStays.trans (s t u : State) (h1 : QuietStays s t) (h2 : QuietStays t u) : QuietStays s u := h2 ∘ h1

/-- However the operation ends, it has not ended the run: it writes neither `ERR` nor `TRAILING`, and enters neither DONE
nor ERROR. -/
def KeepsQuiet {α : Type} (op : Op α) : Prop := Keeps QuietStays op

/-! ### The shared operations -/

section primitives
variable {α β : Type}

protected theorem KeepsQuiet.bind {x : Op α} {f : α → Op β} (hx : KeepsQuiet x) (hf : ∀ a, KeepsQuiet (f a)) :
    KeepsQuiet (x >>= f) := keeps_bind QuietStays.trans hx hf

protected theorem KeepsQuiet.ite {c : Prop} [Decidable c] {x y : Op α} (hx : KeepsQuiet x) (hy : KeepsQuiet y) :
    KeepsQuiet (if c then x else y) := keeps_ite hx hy

protected theorem KeepsQuiet.pure (a : α) : KeepsQuiet (pure a) := keeps_pure QuietStays.refl a

protected theorem KeepsQuiet.getState : KeepsQuiet getState := keeps_getState QuietStays.refl

protected theorem KeepsQuiet.raise (e : Trap) : KeepsQuiet (raise e : Op α) := keeps_raise QuietStays.refl e

protected theorem KeepsQuiet.stopFault (f : Fault) : KeepsQuiet (stopFault f : Op α) := keeps_stopFault QuietStays.refl f

protected theorem KeepsQuiet.require (c : Bool) (e : Trap) : KeepsQuiet (require c e) := keeps_require QuietStays.refl c e

protected theorem KeepsQuiet.update {f : State → State} (h : ∀ s, Quiet s → Quiet (f s)) : KeepsQuiet (update f) :=
  keeps_update h

/-- A phase that goes on. -/
protected theorem KeepsQuiet.setPhase {p : Phase} (hdone : p ≠ .done := by decide) (herror : p ≠ .error := by decide) :
    KeepsQuiet (update (setPhase p)) := .update fun _ ⟨_, _, h⟩ => ⟨hdone, herror, h⟩

protected theorem KeepsQuiet.blockEnd : KeepsQuiet blockEnd := by
  have hphase : ∀ s, blockEndPhase s ≠ .done ∧ blockEndPhase s ≠ .error := fun s => by
    unfold blockEndPhase
    split <;> decide
  exact .update fun s ⟨_, _, h⟩ => ⟨(hphase s).1, (hphase s).2, h⟩

protected theorem KeepsQuiet.readBits (n : Nat) : KeepsQuiet (readBits n) :=
  keeps_readBits QuietStays.refl n fun _ _ h => h

protected theorem KeepsQuiet.readBytesLe (k : Nat) : KeepsQuiet (readBytesLe k) :=
  keeps_readBytesLe QuietStays.refl k fun _ _ h => h

protected theorem KeepsQuiet.alignToByte : KeepsQuiet alignToByte := fun s h => by
  simp only [Machine.alignToByte, endState]
  split
  · exact h
  · exact h

protected theorem KeepsQuiet.skipString (n : Nat) : KeepsQuiet (skipString n) :=
  keeps_skipString QuietStays.refl QuietStays.trans (fun _ _ h => h) n

protected theorem KeepsQuiet.readClLens (l : List Nat) : KeepsQuiet (readClLens l) :=
  keeps_readClLens QuietStays.refl QuietStays.trans (fun _ _ h => h) (fun _ _ _ h => h) l

protected theorem KeepsQuiet.huffDecode (lens : List Nat) (m : Nat) : KeepsQuiet (huffDecode lens m) :=
  keeps_huffDecode QuietStays.refl QuietStays.trans (fun _ _ h => h) lens m

protected theorem KeepsQuiet.emit (b : Byte) : KeepsQuiet (emit b) := keeps_emit QuietStays.refl b fun _ _ h => h

protected theorem KeepsQuiet.readWindow : KeepsQuiet readWindow := keeps_readWindow QuietStays.refl

protected theorem KeepsQuiet.zeroRun (base n : Nat) : KeepsQuiet (zeroRun base n) :=
  .bind (.readBits n) fun _ => .bind .getState fun _ => .bind (.require _ _) fun _ => .update fun _ h => h

protected theorem KeepsQuiet.matchLength (k : Nat) : KeepsQuiet (matchLength k) :=
  .bind (.readBits _) fun _ => .update fun _ ⟨_, _, h⟩ => ⟨nofun, nofun, h⟩

protected theorem KeepsQuiet.matchDistance (k : Nat) : KeepsQuiet (matchDistance k) :=
  .bind (.readBits _) fun _ => .bind .getState fun _ => .bind (.require _ _) fun _ =>
    .update fun _ ⟨_, _, h⟩ => ⟨nofun, nofun, h⟩

end primitives

/-! ### The fetch -/

protected theorem KeepsQuiet.decoded (sel : Selector) : KeepsQuiet (decoded sel) := by
  unfold Machine.decoded
  split
  · exact .pure _
  · exact keeps_stopRefuse QuietStays.refl _

theorem fetch_keepsQuiet : KeepsQuiet fetch := by
  refine .bind .getState fun s => ?_
  have hsymbol : ∀ (lens : List Nat) (m : Nat) (sel : Nat → Selector),
      KeepsQuiet (huffDecode lens m >>= fun sym => decoded (sel sym)) := fun lens m sel =>
    .bind (.huffDecode lens m) fun _ => .decoded _
  cases s.phase
  case blkHdr =>
    exact .bind (.readBits 1) fun _ => .bind (.update fun _ h => h) fun _ => .bind (.readBits 2) fun _ => .decoded _
  case dynLens => exact .bind .getState fun _ => .ite (.pure none) (hsymbol _ _ _)
  case sym => exact .bind .getState fun _ => .ite (hsymbol _ _ _) (.stopFault _)
  case symDist => exact .bind .getState fun _ => .ite (hsymbol _ _ _) (.stopFault _)
  case idle | done | error => exact .stopFault _
  all_goals exact .decoded _

/-! ### The instructions -/

/-- An optional header field and the passing on to the next phase (R181, R200). -/
protected theorem KeepsQuiet.optional {field : Op Unit} {p : Phase} {present : Bool} (h : KeepsQuiet field)
    (hdone : p ≠ .done) (herror : p ≠ .error) :
    KeepsQuiet (do
      if present then field else pure ()
      update (setPhase p)) :=
  .ite (.bind h fun _ => .setPhase hdone herror) (.setPhase hdone herror)

/-- The step is made of an operation that does not end the run. -/
def RunsQuietly (i : Instr) (s : State) : Prop := ∃ op, exec i s = finish op s ∧ KeepsQuiet op

/-- The header, field by field (R201 to R206). -/
theorem runsQuietly_of_header {i : Instr} (hi : i ∈ [.gzHdr, .gzFextra, .gzFname, .gzFcomment, .gzFhcrc]) (s : State) :
    RunsQuietly i s := by
  simp only [List.mem_cons, List.not_mem_nil, or_false] at hi
  rcases hi with rfl | rfl | rfl | rfl | rfl
  case inl =>
    exact ⟨_, rfl, .bind (.readBytesLe 2) fun _ => .bind (.require _ _) fun _ => .bind (.readBytesLe 1) fun _ =>
      .bind (.require _ _) fun _ => .bind (.readBytesLe 1) fun _ => .bind (.update fun _ h => h) fun _ =>
      .bind (.readBytesLe 4) fun _ => .bind (.update fun _ h => h) fun _ => .bind (.readBytesLe 1) fun _ =>
      .bind (.update fun _ h => h) fun _ => .bind (.readBytesLe 1) fun _ => .bind (.update fun _ h => h) fun _ =>
      .setPhase⟩
  all_goals refine ⟨_, rfl, .optional ?_ (by decide) (by decide)⟩
  · exact .bind (.readBytesLe 2) fun _ => .bind .getState fun _ => .bind (.require _ _) fun _ =>
      .bind (.update fun _ h => h) fun _ => .bind (.update fun _ h => h) fun _ => .update fun _ h => h
  · exact .bind (.update fun _ h => h) fun _ => .bind .getState fun _ => .bind (.skipString _) fun _ =>
      .update fun _ h => h
  · exact .bind (.update fun _ h => h) fun _ => .bind .getState fun _ => .bind (.skipString _) fun _ =>
      .update fun _ h => h
  · exact .bind .getState fun _ => .bind (.readBytesLe 2) fun _ => .bind (.update fun _ h => h) fun _ =>
      .bind .getState fun _ => .ite (.require _ _) (.pure _)

/-- The stored block (R166, R167). -/
theorem runsQuietly_of_stored {i : Instr} (hi : i = .storedLen ∨ i = .storedByte) (s : State) : RunsQuietly i s := by
  rcases hi with rfl | rfl
  · exact ⟨_, rfl, .bind .alignToByte fun _ => .bind (.readBytesLe 2) fun _ => .bind (.readBytesLe 2) fun _ =>
      .bind (.require _ _) fun _ => .bind (.update fun _ h => h) fun _ => .setPhase⟩
  · exact ⟨_, rfl, .ite .blockEnd <| .bind (.readBytesLe 1) fun _ => .bind (.emit _) fun _ => .update fun _ h => h⟩

/-- The dynamic table reader's own operations, and COPY (R141, R142, R145, R148, R185). -/
theorem runsQuietly_of_table {i : Instr} (hi : i ∈ [.dynCounts, .dynCllen, .clRep16, .dynBuild, .copy]) (s : State) :
    RunsQuietly i s := by
  simp only [List.mem_cons, List.not_mem_nil, or_false] at hi
  rcases hi with rfl | rfl | rfl | rfl | rfl
  · exact ⟨_, rfl, .bind (.readBits 5) fun _ => .bind (.update fun _ h => h) fun _ => .bind (.readBits 5) fun _ =>
      .bind (.update fun _ h => h) fun _ => .bind (.readBits 4) fun _ => .bind (.update fun _ h => h) fun _ =>
      .bind .getState fun _ => .bind (.require _ _) fun _ => .bind (.require _ _) fun _ => .setPhase⟩
  · exact ⟨_, rfl, .bind (.update fun _ h => h) fun _ => .bind (.readClLens _) fun _ => .bind .getState fun _ =>
      .bind (.require _ _) fun _ => .bind (.update fun _ h => h) fun _ => .setPhase⟩
  · exact ⟨_, rfl, .bind (.readBits 2) fun _ => .bind .getState fun _ => .bind (.require _ _) fun _ =>
      .bind (.require _ _) fun _ => .update fun _ h => h⟩
  · exact ⟨_, rfl, .bind (.update fun _ h => h) fun _ => .bind (.update fun _ h => h) fun _ => .bind .getState fun _ =>
      .bind (.require _ _) fun _ => .bind (.require _ _) fun _ => .setPhase⟩
  · exact ⟨_, rfl, .ite .setPhase <| .bind .readWindow fun _ => .bind (.emit _) fun _ => .update fun _ h => h⟩

/-- The four block types (R161 to R165). -/
theorem runsQuietly_of_block {i : Instr} {bfinal : BitVec 1}
    (hi : i ∈ [.blkStored bfinal, .blkFixed bfinal, .blkDynamic bfinal, .blkReserved bfinal]) (s : State) :
    RunsQuietly i s := by
  have hheader : ∀ (btype : BitVec 2) (p : Phase), p ≠ .done → p ≠ .error → KeepsQuiet (blockHeader bfinal btype p) :=
    fun _ _ hdone herror => .update fun _ ⟨_, _, h⟩ => ⟨hdone, herror, h⟩
  simp only [List.mem_cons, List.not_mem_nil, or_false] at hi
  rcases hi with rfl | rfl | rfl | rfl
  · exact ⟨_, rfl, hheader 0 .storedLen nofun nofun⟩
  · exact ⟨_, rfl, hheader 1 .sym nofun nofun⟩
  · exact ⟨_, rfl, hheader 2 .dynCounts nofun nofun⟩
  · have hop : KeepsQuiet (update (fun u => { u with bfinal := bfinal, btype := 3 }) >>= fun _ =>
        (raise .reservedBlockType : Op Unit)) := .bind (.update fun _ h => h) fun _ => .raise _
    exact ⟨_, rfl, hop⟩

/-- Every instruction of the stream but GZ.TRAILER. -/
theorem runsQuietly_of_ne {i : Instr} (hstart : i ≠ .start) (htrailer : i ≠ .gzTrailer) (s : State) : RunsQuietly i s := by
  cases hb : readsBytes i with
  | true =>
    have hkind : i ∈ [.gzHdr, .gzFextra, .gzFname, .gzFcomment, .gzFhcrc] ∨ (i = .storedLen ∨ i = .storedByte) := by
      cases i <;> simp [readsBytes] at hb htrailer ⊢
    exact hkind.elim (runsQuietly_of_header · s) (runsQuietly_of_stored · s)
  | false =>
    rcases exec_shape hb hstart with hlen | hdist | hcl | hzero | hreserved | ⟨b, hblock⟩ | htable | rfl | ⟨v, rfl⟩
    · obtain ⟨k, he⟩ := exec_of_lengthRow hlen s
      exact ⟨_, he, .matchLength k⟩
    · obtain ⟨k, he⟩ := exec_of_distanceRow hdist s
      exact ⟨_, he, .matchDistance k⟩
    · obtain ⟨v, he⟩ := exec_of_codeLengthRow hcl s
      exact ⟨_, he, .update fun _ h => h⟩
    · simp only [List.mem_cons, List.not_mem_nil, or_false] at hzero
      rcases hzero with rfl | rfl <;> exact ⟨_, rfl, .zeroRun _ _⟩
    · simp only [List.mem_cons, List.not_mem_nil, or_false] at hreserved
      rcases hreserved with rfl | rfl | rfl | rfl <;> exact ⟨_, rfl, .raise _⟩
    · exact runsQuietly_of_block hblock s
    · exact runsQuietly_of_table htable s
    · exact ⟨_, rfl, .blockEnd⟩
    · exact ⟨_, rfl, .emit v⟩

/-- A step made of such an operation leaves a sound status: nothing has ended the run, or a trap has. -/
theorem statusOk_of_finish {op : Op Unit} {s t : State} (hop : KeepsQuiet op) (hs : Quiet s) (h : finish op s = .next t) :
    StatusOk t := by
  rcases finish_next h with hok | ⟨e, u, herr, rfl⟩
  · exact statusOk_of_quiet (hop.ok hok hs)
  · obtain ⟨-, -, -, htrail⟩ := hop.error herr hs
    exact statusOk_takeTrap e htrail

end Sys2Proof.Machine
end

section
/-! PROOFS. Every step keeps a sound state sound (spec/10_state.md R22, R28, R50). -/

namespace Sys2Proof.Machine

/-! ### Which instructions read whole bytes -/

/-- A block type or a symbol is no instruction that reads whole bytes. -/
theorem readsBytes_of_decode {sel : Selector} {i : Instr} (h : decode sel = .ok i) (hphase : ∀ p, sel ≠ .byPhase p)
    (hmagic : ∀ w, sel ≠ .magic w) : readsBytes i = false := by
  cases sel with
  | byPhase p => exact absurd rfl (hphase p)
  | magic w => exact absurd rfl (hmagic w)
  | btype bfinal w =>
    simp only [decode, decodeBtype, Except.ok.injEq] at h
    subst h
    split
    · rfl
    · split
      · rfl
      · split <;> rfl
  | cl s =>
    simp only [decode] at h
    unfold decodeCL at h
    split at h <;> cases h <;> rfl
  | ll s =>
    simp only [decode, decodeLL] at h
    split at h
    · cases h
      rfl
    · unfold decodeLLHigh at h
      split at h <;> cases h <;> rfl
  | dist s =>
    simp only [decode] at h
    unfold decodeDist at h
    split at h <;> cases h <;> rfl
  | ctrl data =>
    simp only [decode] at h
    split at h <;> cases h
    rfl

/-- An instruction that reads whole bytes is the one its phase names, and fetching it reads nothing (R99). -/
theorem fetch_of_readsBytes {s u : State} {i : Instr} (h : fetch s = .ok (some i) u) (hi : readsBytes i = true) :
    decodePhase s.phase = .ok i ∧ u = s := by
  have hsymbol : ∀ {sel : Selector} {v : State}, (∀ p, sel ≠ .byPhase p) → (∀ w, sel ≠ .magic w) →
      decoded sel v ≠ .ok (some i) u := by
    intro sel v hphase hmagic hd
    obtain ⟨j, hj, hdecode⟩ := decoded_ok hd
    cases hj
    rw [readsBytes_of_decode hdecode hphase hmagic] at hi
    cases hi
  cases hp : s.phase <;> simp only [fetch, bind_apply, getState_apply, hp] at h
  case blkHdr =>
    obtain ⟨_, _, -, h⟩ := bind_ok h
    obtain ⟨_, _, -, h⟩ := bind_ok h
    obtain ⟨_, _, -, h⟩ := bind_ok h
    exact absurd h (hsymbol (by simp) (by simp))
  case dynLens =>
    obtain ⟨_, _, -, h⟩ := bind_ok h
    rw [ite_apply_op] at h
    split at h
    · cases h
    · obtain ⟨_, _, -, h⟩ := bind_ok h
      exact absurd h (hsymbol (by simp) (by simp))
  case sym | symDist =>
    obtain ⟨_, _, -, h⟩ := bind_ok h
    rw [ite_apply_op] at h
    split at h
    · obtain ⟨_, _, -, h⟩ := bind_ok h
      exact absurd h (hsymbol (by simp) (by simp))
    · cases h
  case idle | done | error => cases h
  all_goals
    cases h
    exact ⟨rfl, rfl⟩

/-! ### GZ.TRAILER -/

/-- Where the operation raises, it has not ended the run before. -/
def QuietOnError {α : Type} (op : Op α) : Prop := ∀ s t e, op s = .error e t → QuietStays s t

section trailer
variable {s t : State}

theorem QuietOnError.bind {α β : Type} {x : Op α} {f : α → Op β} (hx : KeepsQuiet x) (hf : ∀ a, QuietOnError (f a)) :
    QuietOnError (x >>= f) := fun s t e h => by
  rcases bind_error h with h1 | ⟨a, u, h1, h2⟩
  · exact hx.error h1
  · exact QuietStays.trans _ _ _ (hx.ok h1) (hf a u t e h2)

/-- The status after a step, from what its operation ensures where it goes through. -/
theorem statusOk_of_ensures {op : Op Unit} (hok : Ensures op s fun _ t => StatusOk t) (herr : QuietOnError op)
    (hs : Quiet s) (h : finish op s = .next t) : StatusOk t := by
  rcases finish_next h with hend | ⟨e, u, hend, rfl⟩
  · rwa [Ensures, hend] at hok
  · obtain ⟨-, -, -, htrail⟩ := herr s u _ hend hs
    exact statusOk_takeTrap e htrail

/-- GZ.TRAILER enters DONE only with its two checks passed (R210), and writes `TRAILING` only then (R212). -/
theorem gzTrailer_statusOk (hc : CursorOk s) (hs : Quiet s) (h : exec .gzTrailer s = .next t) : StatusOk t := by
  refine statusOk_of_ensures (op := _) ?_ ?_ hs h
  · simp only [ensures_bind, ensures_getState, ensures_require, ensures_update, decide_eq_true_eq]
    refine ensures_alignToByte hc fun _ _ _ => ensures_readBytesLe fun _ _ _ _ => ensures_readBytesLe fun _ _ _ _ => ?_
    intro hcrc hsize
    obtain ⟨-, -, hnone, -⟩ := hs
    exact ⟨⟨by simp [hnone], by simp [hnone]⟩, fun _ => rfl, fun _ => ⟨hcrc.symm, hsize.symm, rfl⟩⟩
  · refine .bind .alignToByte fun _ => .bind (.readBytesLe 4) fun _ => .bind (.update fun _ h => h) fun _ =>
      .bind (.readBytesLe 4) fun _ => .bind (.update fun _ h => h) fun _ => .bind .getState fun _ =>
      .bind (.require _ _) fun _ => .bind (.require _ _) fun _ => ?_
    intro _ _ _ hend
    cases hend

end trailer

/-! ### The step -/

section step
variable {s t : State}

theorem coreStep_statusOk (hc : CursorOk s) (hs : Quiet s) (h : coreStep s = .next t) : StatusOk t := by
  unfold coreStep at h
  split at h
  case h_1 i u hf =>
    have hu := fetch_keepsQuiet.ok hf hs
    by_cases htrailer : i = .gzTrailer
    · subst htrailer
      rw [(fetch_of_readsBytes hf rfl).2] at h
      exact gzTrailer_statusOk hc hs h
    · obtain ⟨op, hop, hkeeps⟩ := runsQuietly_of_ne (fetch_ne_start hf) htrailer u
      exact statusOk_of_finish hkeeps hu (hop ▸ h)
  case h_2 u hf =>
    cases h
    obtain ⟨-, -, hu⟩ := fetch_keepsQuiet.ok hf hs
    exact statusOk_of_quiet ⟨nofun, nofun, hu⟩
  case h_3 e u hf =>
    cases h
    obtain ⟨-, -, -, htrail⟩ := fetch_keepsQuiet.error hf hs
    exact statusOk_takeTrap e htrail
  case h_4 => cases h
  case h_5 => cases h

theorem busy_of_coreStep (h : coreStep s = .next t) : s.busy = true := by
  by_contra hb
  rw [coreStep_of_not_busy (Bool.eq_false_iff.2 hb)] at h
  cases h

/-- A core step keeps a sound state sound. -/
theorem inv_coreStep (h : Inv s) (ht : coreStep s = .next t) : Inv t := by
  have hb := busy_of_coreStep ht
  obtain ⟨hmem, hsize, hout, -, hrun⟩ := inv_iff_parts.1 h
  obtain ⟨hc, hcrc, hwin, hok⟩ := hrun hb
  have hshape := coreStep_keepsShape ht
  have houtput := coreStep_outputOk ht ⟨hmem, hcrc, hwin⟩
  refine inv_iff_parts.2 ⟨houtput.memories, hshape.sizes hsize, hshape.outPos hout,
    coreStep_statusOk hc (quiet_of_inv h hb) ht, fun hbt => ?_⟩
  obtain ⟨u, hu, hend⟩ := coreStep_advances hc hok hsize hout hb
  obtain rfl : t = u := Host.Outcome.next.inj (ht.symm.trans hu)
  rcases hend with herror | hadv
  · simp [State.busy, herror, Phase.busy] at hbt
  · exact ⟨hadv.cursor, houtput.crc, houtput.window, hadv.phase⟩

/-- Settles O48: a step is a move of the host or a step of the core, and each keeps soundness. -/
theorem stepKeepsSoundness : Obligations.StepKeepsSoundness := by
  unfold Obligations.StepKeepsSoundness
  intro s t h ht
  cases hp : s.pending with
  | nil => exact inv_coreStep h (step_of_pending_nil hp ▸ ht)
  | cons m rest =>
    have hpop : Inv { s with pending := rest } := inv_withHost h rest s.hostData s.draws
    simp only [step, systemStep, hp] at ht
    split at ht
    · exact inv_hostMove hpop ht
    · exact inv_coreStep hpop ht

end step

end Sys2Proof.Machine
end

section
/-! PROOFS. The cursor never goes back and never passes the end of the input, however the step ends (spec/10_state.md
R22, spec/40_bitstream_reader.md R115). -/

namespace Sys2Proof.Machine

/-- From a cursor in the input to a later one, in the same input. -/
def CursorOn (s t : State) : Prop :=
  t.inLen = s.inLen ∧ (linPos s ≤ 8 * s.inLen.toNat → linPos s ≤ linPos t ∧ linPos t ≤ 8 * t.inLen.toNat)

/-- The same for whole bytes, which leave the bit offset. -/
def BytesOn (s t : State) : Prop :=
  t.inLen = s.inLen ∧ t.bitOff = s.bitOff ∧
    (s.bytePos.toNat ≤ s.inLen.toNat → s.bytePos.toNat ≤ t.bytePos.toNat ∧ t.bytePos.toNat ≤ t.inLen.toNat)

section cursor
variable {s t u : State}

theorem CursorOn.trans (s t u : State) (h1 : CursorOn s t) (h2 : CursorOn t u) : CursorOn s u := by
  obtain ⟨hi1, h1⟩ := h1
  obtain ⟨hi2, h2⟩ := h2
  refine ⟨hi2.trans hi1, fun hs => ?_⟩
  obtain ⟨hle, hend⟩ := h1 hs
  exact ⟨hle.trans (h2 hend).1, (h2 hend).2⟩

theorem cursorOn_of_same (h : SameData s t) : CursorOn s t := by
  have hpos : linPos t = linPos s := by rw [linPos, linPos, h.bytePos, h.bitOff]
  exact ⟨h.inLen, fun hs => ⟨hpos.ge, by rwa [hpos, h.inLen]⟩⟩

theorem cursorOn_readBits {n : Nat} (h : linPos s + n ≤ 8 * s.inLen.toNat) : CursorOn s (cursorTo (linPos s + n) s) := by
  have hpos := linPos_cursorTo s _ h
  exact ⟨rfl, fun _ => ⟨by omega, hpos.trans_le h⟩⟩

theorem fetch_cursorOn : Keeps CursorOn fetch :=
  fetch_keeps CursorOn.trans (fun _ _ h => cursorOn_of_same h) fun _ _ h => cursorOn_readBits h

/-- Every instruction that reads bits, or nothing. -/
theorem exec_cursorOn {i : Instr} (hi : readsBytes i = false) (hs : i ≠ .start) (h : exec i s = .next t) :
    CursorOn s t := by
  refine exec_bits_keeps CursorOn.trans (fun _ _ h => cursorOn_of_same h) (fun _ _ h => cursorOn_readBits h) ?_ hi hs h
  exact fun a b _ => ⟨rfl, fun ha => ⟨Nat.le_refl _, ha⟩⟩

theorem BytesOn.trans (s t u : State) (h1 : BytesOn s t) (h2 : BytesOn t u) : BytesOn s u := by
  obtain ⟨hi1, hb1, h1⟩ := h1
  obtain ⟨hi2, hb2, h2⟩ := h2
  refine ⟨hi2.trans hi1, hb2.trans hb1, fun hs => ?_⟩
  obtain ⟨hle, hend⟩ := h1 hs
  exact ⟨hle.trans (h2 hend).1, (h2 hend).2⟩

theorem bytesOn_of_same (h : SameData s t) : BytesOn s t :=
  ⟨h.inLen, h.bitOff, fun hs => by rw [h.bytePos, h.inLen]; exact ⟨Nat.le_refl _, hs⟩⟩

theorem bytesOn_readBytesLe {k : Nat} (h : s.bytePos.toNat + k ≤ s.inLen.toNat) :
    BytesOn s { s with bytePos := BitVec.ofNat 32 (s.bytePos.toNat + k) } := by
  have hpos := bytePos_after h
  exact ⟨rfl, rfl, fun _ => ⟨by simp only [hpos]; omega, hpos.trans_le h⟩⟩

/-- At a byte boundary whole bytes keep the cursor in the input. -/
theorem cursorOn_of_bytesOn (hb : s.bitOff = 0) (h : BytesOn s t) : CursorOn s t := by
  obtain ⟨hi, hbit, h⟩ := h
  rw [hb] at hbit
  refine ⟨hi, fun hs => ?_⟩
  have hpos : linPos s = 8 * s.bytePos.toNat := by simp [linPos, hb]
  have hpos' : linPos t = 8 * t.bytePos.toNat := by simp [linPos, hbit]
  obtain ⟨hle, hend⟩ := h (by omega)
  omega

theorem cursorOn_alignToByte (hc : CursorOk s) (h : alignToByte s = .ok () t) : CursorOn s t ∧ t.bitOff = 0 := by
  have hal : Ensures alignToByte s fun _ t => CursorOn s t ∧ t.bitOff = 0 :=
    ensures_alignToByte hc fun p hge hle => ⟨⟨rfl, fun _ => by simp [linPos] at hge ⊢; omega⟩, rfl⟩
  rwa [Ensures, h] at hal

/-- The instructions that read whole bytes, in the phases they are in. -/
theorem exec_bytes_cursorOn {i : Instr} (hi : readsBytes i = true) (hphase : decodePhase s.phase = .ok i)
    (hc : CursorOk s) (hok : PhaseOk s) (h : exec i s = .next t) : CursorOn s t := by
  have hkind : s.bitOff = 0 ∧ i ∈ [.gzHdr, .gzFextra, .gzFname, .gzFcomment, .gzFhcrc, .storedByte] ∨
      (i = .gzTrailer ∨ i = .storedLen) := by
    cases hp : s.phase <;> simp only [PhaseOk, hp] at hok hphase
    case hdrFixed | hdrExtra | hdrName | hdrComment | hdrHcrc | storedCopy =>
      cases hphase
      exact .inl ⟨hok, by simp⟩
    case trailer =>
      cases hphase
      exact .inr (.inl rfl)
    case storedLen =>
      cases hphase
      exact .inr (.inr rfl)
    case dynCounts | dynCllen | dynBuild | copy =>
      cases hphase
      cases hi
    all_goals cases hphase
  rcases hkind with ⟨hb, hplain⟩ | haligned
  · refine cursorOn_of_bytesOn hb (exec_bytes_keeps BytesOn.trans (fun _ _ h => bytesOn_of_same h)
      (fun _ _ h => bytesOn_readBytesLe h) ?_ hplain h)
    exact fun a b _ => ⟨rfl, rfl, fun ha => ⟨Nat.le_refl _, ha⟩⟩
  · obtain ⟨u, hu, hbytes⟩ := exec_aligned_keeps BytesOn.trans (fun _ _ h => bytesOn_of_same h)
      (fun _ _ h => bytesOn_readBytesLe h) haligned h
    obtain ⟨hon, hb⟩ := cursorOn_alignToByte hc hu
    exact CursorOn.trans _ _ _ hon (cursorOn_of_bytesOn hb hbytes)

theorem coreStep_cursorOn (hc : CursorOk s) (hok : PhaseOk s) (h : coreStep s = .next t) : CursorOn s t := by
  unfold coreStep at h
  split at h
  case h_1 i u hf =>
    cases hi : readsBytes i with
    | false => exact CursorOn.trans _ _ _ (fetch_cursorOn.ok hf) (exec_cursorOn hi (fetch_ne_start hf) h)
    | true =>
      obtain ⟨hphase, rfl⟩ := fetch_of_readsBytes hf hi
      exact exec_bytes_cursorOn hi hphase hc hok h
  case h_2 u hf =>
    cases h
    exact CursorOn.trans _ _ _ (fetch_cursorOn.ok hf) (cursorOn_of_same (SameData.of_eq rfl))
  case h_3 e u hf =>
    cases h
    exact CursorOn.trans _ _ _ (fetch_cursorOn.error hf) (cursorOn_of_same (SameData.of_eq rfl))
  case h_4 => cases h
  case h_5 => cases h

/-- Settles O52: bits move the cursor forward in the input from any cursor, and whole bytes from a byte boundary. -/
theorem cursorNeverGoesBack : Obligations.CursorNeverGoesBack := by
  unfold Obligations.CursorNeverGoesBack
  intro s t h hp ht
  rw [step_of_pending_nil hp] at ht
  obtain ⟨hc, -, -, hok⟩ := h.run (busy_of_coreStep ht)
  obtain ⟨-, hon⟩ := coreStep_cursorOn hc hok ht
  exact hon (cursorOk_iff.1 hc)

end cursor

end Sys2Proof.Machine
end

section
/-! PROOFS. The host's access to the memories (spec/20_memory.md R73, spec/46_host_control.md R239). -/

namespace Sys2Proof.Machine

/-- Reading `IN` after a write to it (R69). -/
theorem inByte_write (s : State) (a : Nat) (b : Byte) (x : Nat) :
    inByte { s with inMem := memWrite s.inMem a b } x = if x = a then b else inByte s x := by
  by_cases h : x = a <;> simp [inByte, memLookup_memWrite, h]

/-- Reading `OUT` after a write to it (R69). -/
theorem outByte_write (s : State) (a : Nat) (b : Byte) (x : Nat) :
    outByte { s with outMem := memWrite s.outMem a b } x = if x = a then b else outByte s x := by
  by_cases h : x = a <;> simp [outByte, memLookup_memWrite, h]

/-- An access that the host may make only outside a run, and only to an address that exists (R60, R61, R73). -/
theorem guarded_access {s t : State} {c : Prop} [Decidable c] (hb : s.busy = false) (hc : ¬c) :
    (if s.busy then .refused .hostTouchesMemoryWhileBusy
      else if c then .fault .noSuchHostAddress else .next t : Host.Outcome State Fault Refusal) = .next t := by
  rw [hb, if_neg Bool.false_ne_true, if_neg hc]

/-- Settles O57: a pending access is the next step, and only its guards decide whether it is made. -/
theorem hostMemoryAccess : Obligations.HostMemoryAccess := by
  unfold Obligations.HostMemoryAccess
  intro s a b rest
  refine ⟨fun hp ha => ?readIn, fun hp => ?writeIn, fun hp => ?readOut, fun hp => ?writeOut⟩ <;>
    rw [step_of_hostActs hp rfl]
  case readIn => exact if_neg (Nat.not_le.2 ha)
  case writeIn =>
    refine ⟨fun hb => if_pos hb, fun hb ha => ⟨_, guarded_access hb (Nat.not_le.2 ha), ?_, fun x hx => ?_, rfl⟩⟩
    · exact (inByte_write _ a b a).trans (if_pos rfl)
    · exact (inByte_write _ a b x).trans (if_neg hx)
  case readOut => exact ⟨fun hb => if_pos hb, fun hb ha => guarded_access hb (Nat.not_le.2 ha)⟩
  case writeOut =>
    refine ⟨fun hb => if_pos hb, fun hb ha => ⟨_, guarded_access hb (Nat.not_le.2 ha), ?_, fun x hx => ?_, rfl⟩⟩
    · exact (outByte_write _ a b a).trans (if_pos rfl)
    · exact (outByte_write _ a b x).trans (if_neg hx)

end Sys2Proof.Machine
end

section
/-! PROOFS. No input stops the core otherwise than in DONE or ERROR (spec/20_memory.md R74, spec/44_inflate_engine.md
R189). -/

namespace Sys2Proof.Machine

/-- Settles O49: from a sound point of a run a core step leads somewhere. -/
theorem soundBusyCoreHasNextState : Obligations.SoundBusyCoreHasNextState := by
  unfold Obligations.SoundBusyCoreHasNextState
  intro s h hb hp
  obtain ⟨t, ht, -⟩ := step_runOk (runOk_of_inv h hb hp) hb
  exact ⟨t, ht⟩

end Sys2Proof.Machine
end

section
/-! PROOFS. What a core step does to the memories: `emit` is the only writer of `OUT`, `OUT_POS` and `CRC`, at most once
in a step and only in SYM, STORED_COPY and COPY (spec/20_memory.md R60, R71; spec/44_inflate_engine.md R183). -/

namespace Sys2Proof.Machine

/-! ### The memories and their registers -/

/-- The two memories and the registers that speak of them. -/
structure MemoryView where
  inMem : Memory
  inLen : Word
  hcrcCheck : BitVec 1
  outMem : Memory
  outCap : BitVec 64
  outEpoch : Nat
  outPos : BitVec 64
  crc : Word

/-- The part of the state that only the host and `emit` write. -/
def memoryView (s : State) : MemoryView where
  inMem := s.inMem
  inLen := s.inLen
  hcrcCheck := s.hcrcCheck
  outMem := s.outMem
  outCap := s.outCap
  outEpoch := s.outEpoch
  outPos := s.outPos
  crc := s.crc

/-- From a state to one with the same memories and registers of them. -/
def SameMemory (s t : State) : Prop := memoryView t = memoryView s

/-- From a state to one in which one byte more is stored, for which there is room. -/
def OneStore (s t : State) : Prop :=
  s.outPos.toNat < s.outCap.toNat ∧ ∃ b, SameMemory (emitted b s) t

/-- From a state to one in which at most one byte more is stored. -/
def AtMostOneStore (s t : State) : Prop := SameMemory s t ∨ OneStore s t

section views
variable {s t u : State}

theorem SameMemory.refl (s : State) : SameMemory s s := rfl

theorem SameMemory.trans (s t u : State) (h1 : SameMemory s t) (h2 : SameMemory t u) : SameMemory s u := Eq.trans h2 h1

/-- Every part of the view is the same. -/
theorem sameMemory_iff : SameMemory s t ↔
    t.inMem = s.inMem ∧ t.inLen = s.inLen ∧ t.hcrcCheck = s.hcrcCheck ∧ t.outMem = s.outMem ∧ t.outCap = s.outCap ∧
      t.outEpoch = s.outEpoch ∧ t.outPos = s.outPos ∧ t.crc = s.crc := by
  simp only [SameMemory, memoryView, MemoryView.mk.injEq]

theorem sameMemory_of_same (h : SameData s t) : SameMemory s t :=
  sameMemory_iff.2 ⟨h.inMem, h.inLen, h.hcrcCheck, h.outMem, h.outCap, h.outEpoch, h.outPos, h.crc⟩

theorem sameMemory_takeTrap (e : Trap) (s : State) : SameMemory s (takeTrap e s) := rfl

/-- What `emit` stores depends on the view alone. -/
theorem sameMemory_emitted (b : Byte) (h : SameMemory s t) : SameMemory (emitted b s) (emitted b t) := by
  obtain ⟨hin, hlen, hcfg, hout, hcap, hepoch, hpos, hcrc⟩ := sameMemory_iff.1 h
  exact sameMemory_iff.2 ⟨hin, hlen, hcfg, by simp [hout, hpos], hcap, hepoch, by simp [hpos], by simp [hcrc]⟩

theorem AtMostOneStore.after (h1 : SameMemory s t) (h2 : AtMostOneStore t u) : AtMostOneStore s u := by
  rcases h2 with hsame | ⟨hroom, b, hb⟩
  · exact .inl (.trans _ _ _ h1 hsame)
  · obtain ⟨-, -, -, -, hcap, -, hpos, -⟩ := sameMemory_iff.1 h1
    exact .inr ⟨by rwa [hcap, hpos] at hroom, b, .trans _ _ _ (sameMemory_emitted b h1) hb⟩

theorem AtMostOneStore.before (h1 : AtMostOneStore s t) (h2 : SameMemory t u) : AtMostOneStore s u :=
  h1.imp (.trans _ _ _ · h2) fun ⟨hroom, b, hb⟩ => ⟨hroom, b, .trans _ _ _ hb h2⟩

end views

/-! ### Operations -/

/-- However the operation ends, it leaves the memories and their registers. -/
def LeavesMemory {α : Type} (op : Op α) : Prop := Keeps SameMemory op

/-- However the operation ends, it has stored at most one byte. -/
def StoresOnce {α : Type} (op : Op α) : Prop := Keeps AtMostOneStore op

section operations
variable {α β : Type}

protected theorem LeavesMemory.bind {x : Op α} {f : α → Op β} (hx : LeavesMemory x) (hf : ∀ a, LeavesMemory (f a)) :
    LeavesMemory (x >>= f) := keeps_bind SameMemory.trans hx hf

protected theorem LeavesMemory.ite {c : Prop} [Decidable c] {x y : Op α} (hx : LeavesMemory x) (hy : LeavesMemory y) :
    LeavesMemory (if c then x else y) := keeps_ite hx hy

protected theorem LeavesMemory.pure (a : α) : LeavesMemory (pure a) := keeps_pure SameMemory.refl a

protected theorem LeavesMemory.getState : LeavesMemory getState := keeps_getState SameMemory.refl

protected theorem LeavesMemory.raise (e : Trap) : LeavesMemory (raise e : Op α) := keeps_raise SameMemory.refl e

protected theorem LeavesMemory.require (c : Bool) (e : Trap) : LeavesMemory (require c e) :=
  keeps_require SameMemory.refl c e

/-- A write of registers or arrays that are not in the view. -/
protected theorem LeavesMemory.update {f : State → State} (h : ∀ s, SameMemory s (f s) := by exact fun _ => rfl) :
    LeavesMemory (update f) := keeps_update h

protected theorem LeavesMemory.readBits (n : Nat) : LeavesMemory (readBits n) :=
  keeps_readBits SameMemory.refl n fun _ _ => rfl

protected theorem LeavesMemory.readBytesLe (k : Nat) : LeavesMemory (readBytesLe k) :=
  keeps_readBytesLe SameMemory.refl k fun _ _ => rfl

protected theorem LeavesMemory.alignToByte : LeavesMemory alignToByte := fun s => by
  simp only [Machine.alignToByte, endState]
  split <;> rfl

protected theorem LeavesMemory.readWindow : LeavesMemory readWindow := keeps_readWindow SameMemory.refl

protected theorem LeavesMemory.skipString (n : Nat) : LeavesMemory (skipString n) :=
  keeps_skipString SameMemory.refl SameMemory.trans (fun _ _ => rfl) n

protected theorem LeavesMemory.readClLens (l : List Nat) : LeavesMemory (readClLens l) :=
  keeps_readClLens SameMemory.refl SameMemory.trans (fun _ _ => rfl) (fun _ _ _ => rfl) l

protected theorem LeavesMemory.blockEnd : LeavesMemory blockEnd := .update

theorem StoresOnce.of_leaves {op : Op α} (h : LeavesMemory op) : StoresOnce op := fun s => .inl (h s)

protected theorem StoresOnce.ite {c : Prop} [Decidable c] {x y : Op α} (hx : StoresOnce x) (hy : StoresOnce y) :
    StoresOnce (if c then x else y) := keeps_ite hx hy

protected theorem StoresOnce.emit (b : Byte) : StoresOnce (emit b) :=
  keeps_emit (fun s => .inl (.refl s)) b fun _ hroom => .inr ⟨hroom, b, rfl⟩

/-- An operation of two parts, the second of which is another kind of write. -/
theorem keeps_seq {R R' Q : State → State → Prop} (hfirst : ∀ s t, R s t → Q s t)
    (hboth : ∀ s t u, R s t → R' t u → Q s u) {x : Op α} {f : α → Op β} (hx : Keeps R x) (hf : ∀ a, Keeps R' (f a)) :
    Keeps Q (x >>= f) := fun s => by
  rw [bind_apply]
  cases hend : x s with
  | ok a u => exact hboth _ _ _ (hx.ok hend) (hf a u)
  | error e u => exact hfirst _ _ (hx.error hend)

/-- What comes before the store leaves the memories. -/
theorem StoresOnce.after {x : Op α} {f : α → Op β} (hx : LeavesMemory x) (hf : ∀ a, StoresOnce (f a)) :
    StoresOnce (x >>= f) := keeps_seq (fun _ _ => .inl) (fun _ _ _ => .after) hx hf

/-- What comes after the store leaves the memories. -/
theorem StoresOnce.before {x : Op α} {f : α → Op β} (hx : StoresOnce x) (hf : ∀ a, LeavesMemory (f a)) :
    StoresOnce (x >>= f) := keeps_seq (fun _ _ => id) (fun _ _ _ => .before) hx hf

end operations

/-! ### The instructions -/

/-- The instructions that store a byte (R183). -/
def storesByte : Instr → Bool
  | .lit _ | .storedByte | .copy => true
  | _ => false

section instructions
variable {i : Instr} {s t : State}

/-- A step made of an operation that leaves the memories: taking a trap leaves them too (R251). -/
theorem sameMemory_of_finish {op : Op Unit} (hop : LeavesMemory op) (h : finish op s = .next t) : SameMemory s t :=
  finish_keeps SameMemory.trans sameMemory_takeTrap hop h

theorem atMostOneStore_of_finish {op : Op Unit} (hop : StoresOnce op) (h : finish op s = .next t) :
    AtMostOneStore s t := by
  rcases finish_next h with hok | ⟨e, u, herr, rfl⟩
  · exact hop.ok hok
  · exact .before (hop.error herr) (sameMemory_takeTrap e u)

/-- An optional header field and the passing on to the next phase (R181, R200). -/
protected theorem LeavesMemory.optional {field : Op Unit} {p : Phase} {present : Bool} (h : LeavesMemory field) :
    LeavesMemory (do
      if present then field else pure ()
      update (setPhase p)) :=
  .ite (.bind h fun _ => .update) .update

/-- The header, field by field (R201 to R206). -/
theorem header_sameMemory (hi : i ∈ [.gzHdr, .gzFextra, .gzFname, .gzFcomment, .gzFhcrc]) (h : exec i s = .next t) :
    SameMemory s t := by
  simp only [List.mem_cons, List.not_mem_nil, or_false] at hi
  rcases hi with rfl | rfl | rfl | rfl | rfl <;> refine sameMemory_of_finish (op := _) ?_ h
  · exact .bind (.readBytesLe 2) fun _ => .bind (.require _ _) fun _ => .bind (.readBytesLe 1) fun _ =>
      .bind (.require _ _) fun _ => .bind (.readBytesLe 1) fun _ => .bind .update fun _ =>
      .bind (.readBytesLe 4) fun _ => .bind .update fun _ => .bind (.readBytesLe 1) fun _ => .bind .update fun _ =>
      .bind (.readBytesLe 1) fun _ => .bind .update fun _ => .update
  · exact .optional <| .bind (.readBytesLe 2) fun _ => .bind .getState fun _ => .bind (.require _ _) fun _ =>
      .bind .update fun _ => .bind .update fun _ => .update
  · exact .optional <| .bind .update fun _ => .bind .getState fun _ => .bind (.skipString _) fun _ => .update
  · exact .optional <| .bind .update fun _ => .bind .getState fun _ => .bind (.skipString _) fun _ => .update
  · exact .optional <| .bind .getState fun _ => .bind (.readBytesLe 2) fun _ => .bind .update fun _ =>
      .bind .getState fun _ => .ite (.require _ _) (.pure _)

/-- The dynamic table reader's own operations (R141, R142, R145, R148). -/
theorem table_sameMemory (hi : i ∈ [.dynCounts, .dynCllen, .clRep16, .dynBuild]) (h : exec i s = .next t) :
    SameMemory s t := by
  simp only [List.mem_cons, List.not_mem_nil, or_false] at hi
  rcases hi with rfl | rfl | rfl | rfl <;> refine sameMemory_of_finish (op := _) ?_ h
  · exact .bind (.readBits 5) fun _ => .bind .update fun _ => .bind (.readBits 5) fun _ => .bind .update fun _ =>
      .bind (.readBits 4) fun _ => .bind .update fun _ => .bind .getState fun _ => .bind (.require _ _) fun _ =>
      .bind (.require _ _) fun _ => .update
  · exact .bind .update fun _ => .bind (.readClLens _) fun _ => .bind .getState fun _ => .bind (.require _ _) fun _ =>
      .bind .update fun _ => .update
  · exact .bind (.readBits 2) fun _ => .bind .getState fun _ => .bind (.require _ _) fun _ =>
      .bind (.require _ _) fun _ => .update
  · exact .bind .update fun _ => .bind .update fun _ => .bind .getState fun _ => .bind (.require _ _) fun _ =>
      .bind (.require _ _) fun _ => .update

/-- The four block types (R161 to R165). -/
theorem block_sameMemory {bfinal : BitVec 1}
    (hi : i ∈ [.blkStored bfinal, .blkFixed bfinal, .blkDynamic bfinal, .blkReserved bfinal]) (h : exec i s = .next t) :
    SameMemory s t := by
  simp only [List.mem_cons, List.not_mem_nil, or_false] at hi
  rcases hi with rfl | rfl | rfl | rfl
  · exact sameMemory_of_finish (op := blockHeader bfinal 0 .storedLen) .update h
  · exact sameMemory_of_finish (op := blockHeader bfinal 1 .sym) .update h
  · exact sameMemory_of_finish (op := blockHeader bfinal 2 .dynCounts) .update h
  · have hop : LeavesMemory (update (fun u => { u with bfinal := bfinal, btype := 3 }) >>= fun _ =>
        (raise .reservedBlockType : Op Unit)) := .bind .update fun _ => .raise _
    exact sameMemory_of_finish hop h

/-- Every other instruction of the stream leaves the memories. -/
theorem exec_sameMemory (hi : i ≠ .start) (hs : storesByte i = false) (h : exec i s = .next t) : SameMemory s t := by
  have hreg : ∀ s t, SameData s t → SameMemory s t := fun _ _ => sameMemory_of_same
  have hbits : ∀ s n, linPos s + n ≤ 8 * s.inLen.toNat → SameMemory s (cursorTo (linPos s + n) s) := fun _ _ _ => rfl
  cases hb : readsBytes i with
  | true =>
    have hkind : i ∈ [.gzHdr, .gzFextra, .gzFname, .gzFcomment, .gzFhcrc] ∨ (i = .gzTrailer ∨ i = .storedLen) := by
      cases i <;> simp [readsBytes, storesByte] at hb hs ⊢
    rcases hkind with hheader | haligned
    · exact header_sameMemory hheader h
    · obtain ⟨u, hu, hsame⟩ := exec_aligned_keeps SameMemory.trans hreg (fun _ _ _ => rfl) haligned h
      exact .trans _ _ _ (LeavesMemory.alignToByte.ok hu) hsame
  | false =>
    rcases exec_shape hb hi with hlen | hdist | hcl | hzero | hreserved | ⟨b, hblock⟩ | htable | rfl | ⟨v, rfl⟩
    · obtain ⟨k, he⟩ := exec_of_lengthRow hlen s
      exact sameMemory_of_finish (keeps_matchLength SameMemory.trans hreg hbits k) (he ▸ h)
    · obtain ⟨k, he⟩ := exec_of_distanceRow hdist s
      exact sameMemory_of_finish (keeps_matchDistance SameMemory.trans hreg hbits k) (he ▸ h)
    · obtain ⟨v, he⟩ := exec_of_codeLengthRow hcl s
      exact sameMemory_of_finish .update (he ▸ h)
    · simp only [List.mem_cons, List.not_mem_nil, or_false] at hzero
      rcases hzero with rfl | rfl <;> exact sameMemory_of_finish (keeps_zeroRun SameMemory.trans hreg hbits _ _) h
    · simp only [List.mem_cons, List.not_mem_nil, or_false] at hreserved
      rcases hreserved with rfl | rfl | rfl | rfl <;> exact sameMemory_of_finish (.raise _) h
    · exact block_sameMemory hblock h
    · refine table_sameMemory ?_ h
      simp only [List.mem_cons, List.not_mem_nil, or_false] at htable ⊢
      rcases htable with rfl | rfl | rfl | rfl | rfl <;> simp [storesByte] at hs ⊢
    · exact sameMemory_of_finish .blockEnd h
    · cases hs

/-- The three that store run `emit` once. -/
theorem exec_atMostOneStore (hi : storesByte i = true) (h : exec i s = .next t) : AtMostOneStore s t := by
  have hkind : i = .storedByte ∨ i = .copy ∨ ∃ v, i = .lit v := by cases i <;> simp [storesByte] at hi ⊢
  rcases hkind with rfl | rfl | ⟨v, rfl⟩ <;> refine atMostOneStore_of_finish (op := _) ?_ h
  · exact .ite (.of_leaves .blockEnd) <| .after (.readBytesLe 1) fun _ => .before (.emit _) fun _ => .update
  · exact .ite (.of_leaves .update) <| .after .readWindow fun _ => .before (.emit _) fun _ => .update
  · exact .emit v

end instructions

/-! ### The step -/

section step
variable {s t u : State} {i : Instr}

/-- The selector of a fetched instruction: its phase, or what the stream holds in the four phases that read one (R99). -/
theorem selector_of_fetch (h : fetch s = .ok (some i) u) : ∃ sel, decode sel = .ok i ∧
    (sel = .byPhase s.phase ∨ (s.phase = .blkHdr ∧ ∃ bfinal w, sel = .btype bfinal w) ∨
      (s.phase = .dynLens ∧ ∃ sym, sel = .cl sym) ∨ (s.phase = .sym ∧ ∃ sym, sel = .ll sym) ∨
      (s.phase = .symDist ∧ ∃ sym, sel = .dist sym)) := by
  have hdec : ∀ {sel : Selector} {v : State}, decoded sel v = .ok (some i) u → decode sel = .ok i := by
    intro sel v hd
    obtain ⟨j, hj, hdecode⟩ := decoded_ok hd
    cases hj
    exact hdecode
  cases hp : s.phase <;> simp only [fetch, bind_apply, getState_apply, hp] at h
  case blkHdr =>
    obtain ⟨_, _, -, h⟩ := bind_ok h
    obtain ⟨_, _, -, h⟩ := bind_ok h
    obtain ⟨_, _, -, h⟩ := bind_ok h
    exact ⟨_, hdec h, by simp⟩
  case dynLens =>
    obtain ⟨_, _, -, h⟩ := bind_ok h
    rw [ite_apply_op] at h
    split at h
    · cases h
    · obtain ⟨_, _, -, h⟩ := bind_ok h
      exact ⟨_, hdec h, by simp⟩
  case sym | symDist =>
    obtain ⟨_, _, -, h⟩ := bind_ok h
    rw [ite_apply_op] at h
    split at h
    · obtain ⟨_, _, -, h⟩ := bind_ok h
      exact ⟨_, hdec h, by simp⟩
    · cases h
  case idle | done | error => cases h
  all_goals exact ⟨_, hdec h, .inl rfl⟩

/-- A block type, a code-length symbol or a distance symbol stores nothing. -/
theorem storesByte_of_decode {sel : Selector} (h : decode sel = .ok i)
    (hsel : (∃ bfinal w, sel = .btype bfinal w) ∨ (∃ sym, sel = .cl sym) ∨ ∃ sym, sel = .dist sym) :
    storesByte i = false := by
  rcases hsel with ⟨bfinal, w, rfl⟩ | ⟨sym, rfl⟩ | ⟨sym, rfl⟩
  · simp only [decode, decodeBtype, Except.ok.injEq] at h
    subst h
    split
    · rfl
    · split
      · rfl
      · split <;> rfl
  · simp only [decode] at h
    unfold decodeCL at h
    split at h <;> cases h <;> rfl
  · simp only [decode] at h
    unfold decodeDist at h
    split at h <;> cases h <;> rfl

/-- A storing instruction is fetched only in the three phases that store. -/
theorem phase_of_storesByte (h : fetch s = .ok (some i) u) (hi : storesByte i = true) :
    s.phase = .sym ∨ s.phase = .storedCopy ∨ s.phase = .copy := by
  obtain ⟨sel, hdec, rfl | ⟨-, hsel⟩ | ⟨-, hsel⟩ | ⟨hphase, -⟩ | ⟨-, hsel⟩⟩ := selector_of_fetch h
  · cases hp : s.phase <;> rw [hp] at hdec <;> cases hdec <;> cases hi
    · exact .inr (.inl rfl)
    · exact .inr (.inr rfl)
  · exact absurd hi (Bool.eq_false_iff.1 (storesByte_of_decode hdec (.inl hsel)))
  · exact absurd hi (Bool.eq_false_iff.1 (storesByte_of_decode hdec (.inr (.inl hsel))))
  · exact .inl hphase
  · exact absurd hi (Bool.eq_false_iff.1 (storesByte_of_decode hdec (.inr (.inr hsel))))

theorem fetch_leavesMemory : LeavesMemory fetch :=
  fetch_keeps SameMemory.trans (fun _ _ => sameMemory_of_same) fun _ _ _ => rfl

/-- A core step leaves the memories, or stores one byte in one of the three phases (R183). -/
theorem coreStep_memory (h : coreStep s = .next t) : SameMemory s t ∨
    (s.phase = .sym ∨ s.phase = .storedCopy ∨ s.phase = .copy) ∧ OneStore s t := by
  unfold coreStep at h
  split at h
  case h_1 i u hf =>
    have hu := fetch_leavesMemory.ok hf
    cases hi : storesByte i with
    | false => exact .inl (.trans _ _ _ hu (exec_sameMemory (fetch_ne_start hf) hi h))
    | true =>
      exact (AtMostOneStore.after hu (exec_atMostOneStore hi h)).imp_right fun hone => ⟨phase_of_storesByte hf hi, hone⟩
  case h_2 u hf =>
    cases h
    exact .inl (.trans _ _ _ (fetch_leavesMemory.ok hf) rfl)
  case h_3 e u hf =>
    cases h
    exact .inl (.trans _ _ _ (fetch_leavesMemory.error hf) (sameMemory_takeTrap e u))
  case h_4 => cases h
  case h_5 => cases h

end step

/-- Settles O41: a core step leaves the memories and their registers, or they are those that one `emit` leaves. -/
theorem onlyEmitWritesMemory : Obligations.OnlyEmitWritesMemory := by
  unfold Obligations.OnlyEmitWritesMemory
  intro s t hp ht
  rw [step_of_pending_nil hp] at ht
  rcases coreStep_memory ht with hsame | ⟨hphase, hroom, b, hone⟩
  · obtain ⟨hin, hlen, hcfg, hout, hcap, hepoch, hpos, hcrc⟩ := sameMemory_iff.1 hsame
    exact ⟨⟨hin, hlen, hcfg, inByte_congr hin⟩, ⟨hcap, hepoch, fun a _ => outByte_congr hout hepoch a⟩,
      .inl ⟨hout, hpos, hcrc⟩⟩
  · obtain ⟨hin, hlen, hcfg, hout, hcap, hepoch, hpos, hcrc⟩ := sameMemory_iff.1 hone
    refine ⟨⟨hin, hlen, hcfg, inByte_congr hin⟩, ⟨hcap, hepoch, fun a ha => ?_⟩,
      .inr ⟨hphase, hroom, b, hout, hpos, hcrc⟩⟩
    exact (outByte_congr hout hepoch a).trans ((outByte_emitted b s a).trans (if_neg ha))

end Sys2Proof.Machine
end

section
/-! PROOFS. The opcode map and the selectors (spec/30_encoding.md R99): the selector that names an instruction decodes to
it, and what decodes to it is that selector or another name of GZ.HDR or START. -/

namespace Sys2Proof.Machine

/-- The opcode map undoes the encoder's selector (R99). -/
theorem decode_selectorOf (i : Instr) : decode (selectorOf i) = .ok i := by
  cases i with
  | lit value => exact Laws.SelectorRoundTrip.lit value
  | _ => rfl

/-- The encoder names GZ.HDR by its phase (log 9), so no instruction by the first three bytes. -/
theorem selectorOf_ne_magic (i : Instr) (w : BitVec 24) : selectorOf i ≠ .magic w := by
  cases i <;> nofun

/-- Only the bytes 0x1F, 0x8B, 8 pass the tests of GZ.HDR's selector (R99, R201). -/
theorem decodeMagic_ok {w : BitVec 24} {i : Instr} (h : decodeMagic w = .ok i) : w = 0x088B1F ∧ i = .gzHdr := by
  unfold decodeMagic at h
  split at h
  · cases h
  · split at h
    · cases h
    · rename_i hlow hhigh
      cases h
      have hl := congrArg BitVec.toNat (not_not.1 hlow)
      have hh := congrArg BitVec.toNat (not_not.1 hhigh)
      simp [Nat.shiftRight_eq_div_pow] at hl hh
      exact ⟨BitVec.eq_of_toNat_eq (by simp; omega), rfl⟩

theorem selectorOf_decodeBtype (bfinal : BitVec 1) (w : BitVec 2) :
    selectorOf (decodeBtype bfinal w) = .btype bfinal w := by
  have hw : ∀ w : BitVec 2, w = 0 ∨ w = 1 ∨ w = 2 ∨ w = 3 := by decide
  rcases hw w with rfl | rfl | rfl | rfl <;> rfl

theorem selectorOf_of_decodePhase {p : Phase} {i : Instr} (h : decodePhase p = .ok i) : selectorOf i = .byPhase p := by
  cases p <;> cases h <;> rfl

theorem selectorOf_of_decodeCL {sym : Nat} {i : Instr} (h : decodeCL sym = .ok i) : selectorOf i = .cl sym := by
  unfold decodeCL at h
  split at h <;> cases h <;> rfl

theorem selectorOf_of_decodeLL {sym : Nat} {i : Instr} (h : decodeLL sym = .ok i) : selectorOf i = .ll sym := by
  unfold decodeLL at h
  split at h
  · cases h
    rw [selectorOf, BitVec.toNat_ofNat, Nat.mod_eq_of_lt ‹_›]
  · unfold decodeLLHigh at h
    split at h <;> cases h <;> rfl

theorem selectorOf_of_decodeDist {sym : Nat} {i : Instr} (h : decodeDist sym = .ok i) : selectorOf i = .dist sym := by
  unfold decodeDist at h
  split at h <;> cases h <;> rfl

/-- Settles O2: kind by kind, what decodes is the selector that names the answer, but for GZ.HDR's bytes and CTRL. -/
theorem decodedSelectorIsTheMatchValue : Obligations.DecodedSelectorIsTheMatchValue := by
  unfold Obligations.DecodedSelectorIsTheMatchValue
  intro sel i h
  cases sel with
  | byPhase p => exact .inl (selectorOf_of_decodePhase h).symm
  | magic w =>
    obtain ⟨rfl, rfl⟩ := decodeMagic_ok h
    exact .inr (.inl ⟨rfl, rfl⟩)
  | btype bfinal w =>
    cases h
    exact .inl (selectorOf_decodeBtype bfinal w).symm
  | cl sym => exact .inl (selectorOf_of_decodeCL h).symm
  | ll sym => exact .inl (selectorOf_of_decodeLL h).symm
  | dist sym => exact .inl (selectorOf_of_decodeDist h).symm
  | ctrl data =>
    rw [decode] at h
    split at h
    · cases h
      exact .inr (.inr ⟨data, rfl, ‹_›, rfl⟩)
    · cases h

end Sys2Proof.Machine
end

section
/-! PROOFS. The fixed codes (spec/30_encoding.md R96, R97) and the codes the spec writes out. -/

namespace Sys2Proof.Machine

/-- `FIX_LL_LEN` entry by entry (R96). -/
theorem getD_fixLL (v : Nat) :
    fixLL.getD v 0 =
      if v < 144 then 8 else if v < 256 then 9 else if v < 280 then 7 else if v < 288 then 8 else 0 := by
  simp only [fixLL, List.getD_eq_getElem?_getD, List.getElem?_append, List.getElem?_replicate, List.length_replicate]
  split_ifs <;> first | rfl | omega

theorem length_fixLL : fixLL.length = 288 := by
  simp only [fixLL, List.length_append, List.length_replicate]

/-- How many of the first `v` symbols of the fixed literal/length array have a length: the two runs of length 8
together, then those of 9 and 7. -/
theorem count_take_fixLL (v len : Nat) :
    (fixLL.take v).count len =
      (if 8 = len then min v 144 + min (v - 280) 8 else 0) + (if 9 = len then min (v - 144) 112 else 0) +
        (if 7 = len then min (v - 256) 24 else 0) := by
  simp only [fixLL, List.take_append, List.take_replicate, List.count_append, List.count_replicate, List.length_replicate,
    beq_iff_eq, Nat.sub_sub]
  split_ifs <;> omega

theorem countLen_fixLL (len : Nat) :
    countLen fixLL len = (if 8 = len then 152 else 0) + (if 9 = len then 112 else 0) + (if 7 = len then 24 else 0) := by
  have h := count_take_fixLL 288 len
  rwa [List.take_of_length_le (Nat.le_of_eq length_fixLL)] at h

/-! The first codes of the fixed literal/length array (R121, step 2). -/

theorem firstCode_fixLL_seven : firstCode fixLL 7 = 0 := by simp [firstCode, countLen_fixLL]

theorem firstCode_fixLL_eight : firstCode fixLL 8 = 0b00110000 := by simp [firstCode, countLen_fixLL]

theorem firstCode_fixLL_nine : firstCode fixLL 9 = 0b110010000 := by simp [firstCode, countLen_fixLL]

theorem kraftCheck_fixLL : kraftCheck fixLL Config.maxBitsLL = .ok := by
  simp [kraftCheck, kraftLoop, countLen_fixLL]

/-- `FIX_D_LEN` entry by entry (R97). -/
theorem getD_fixD (v : Nat) : fixD.getD v 0 = if v < 32 then 5 else 0 := by
  simp only [fixD, List.getD_eq_getElem?_getD, List.getElem?_replicate]
  split_ifs <;> rfl

theorem countLen_fixD (len : Nat) : countLen fixD len = if 5 = len then 32 else 0 := by
  simp only [countLen, fixD, List.count_replicate, beq_iff_eq]

theorem kraftCheck_fixD : kraftCheck fixD Config.maxBitsD = .ok := by
  simp [kraftCheck, kraftLoop, countLen_fixD]

section runs
variable {v : Nat}

/-- The code of a symbol of a known length (R121, step 3). -/
theorem codeOf_eq {lens : List Nat} {len : Nat} (h : lens.getD v 0 = len) :
    codeOf lens v = firstCode lens len + (lens.take v).count len := by
  rw [codeOf, h]

/-! The four runs of the fixed literal/length code (R96). -/

theorem fixLL_first (h : v < 144) : fixLL.getD v 0 = 8 ∧ codeOf fixLL v = 0b00110000 + v := by
  have hlen : fixLL.getD v 0 = 8 := by rw [getD_fixLL, if_pos h]
  refine ⟨hlen, ?_⟩
  rw [codeOf_eq hlen, count_take_fixLL, firstCode_fixLL_eight]
  simp
  omega

theorem fixLL_second (h : 144 ≤ v) (h' : v < 256) :
    fixLL.getD v 0 = 9 ∧ codeOf fixLL v = 0b110010000 + (v - 144) := by
  have hlen : fixLL.getD v 0 = 9 := by rw [getD_fixLL, if_neg (by omega), if_pos h']
  refine ⟨hlen, ?_⟩
  rw [codeOf_eq hlen, count_take_fixLL, firstCode_fixLL_nine]
  simp
  omega

theorem fixLL_third (h : 256 ≤ v) (h' : v < 280) : fixLL.getD v 0 = 7 ∧ codeOf fixLL v = v - 256 := by
  have hlen : fixLL.getD v 0 = 7 := by rw [getD_fixLL, if_neg (by omega), if_neg (by omega), if_pos h']
  refine ⟨hlen, ?_⟩
  rw [codeOf_eq hlen, count_take_fixLL, firstCode_fixLL_seven]
  simp
  omega

theorem fixLL_fourth (h : 280 ≤ v) (h' : v < 288) :
    fixLL.getD v 0 = 8 ∧ codeOf fixLL v = 0b11000000 + (v - 280) := by
  have hlen : fixLL.getD v 0 = 8 := by
    rw [getD_fixLL, if_neg (by omega), if_neg (by omega), if_neg (by omega), if_pos h']
  refine ⟨hlen, ?_⟩
  rw [codeOf_eq hlen, count_take_fixLL, firstCode_fixLL_eight]
  simp
  omega

/-- The fixed distance codes are the symbols themselves (R97). -/
theorem codeOf_fixD (h : v < 32) : fixD.getD v 0 = 5 ∧ codeOf fixD v = v := by
  have hlen : fixD.getD v 0 = 5 := by rw [getD_fixD, if_pos h]
  have hcount : (fixD.take v).count 5 = v := by
    simp only [fixD, List.take_replicate, List.count_replicate_self]
    omega
  refine ⟨hlen, ?_⟩
  rw [codeOf_eq hlen, hcount]
  simp [firstCode, countLen_fixD]

end runs

/-- Settles O4: the runs of the fixed codes, and the worked example run. -/
theorem fixedAndExampleCodes : Obligations.FixedAndExampleCodes :=
  ⟨⟨length_fixLL, kraftCheck_fixLL, fun _ => fixLL_first, fun _ => fixLL_second, fun _ => fixLL_third,
    fun _ => fixLL_fourth⟩, ⟨List.length_replicate, kraftCheck_fixD, fun _ => codeOf_fixD⟩, by decide⟩

end Sys2Proof.Machine
end

section
/-! PROOFS. The symbol decoder reads back a code (spec/41_huffman_tables.md R126), and the fetch an encoded instruction
(spec/30_encoding.md R99, R102). -/

namespace Sys2Proof.Machine

/-! ### The symbol decoder -/

section decoder
variable {lens : List Nat} {m sym : Nat} {s : State}

theorem getElem?_of_hasCode (h : hasCode lens sym = true) : lens[sym]? = some (lens.getD sym 0) := by
  rw [hasCode, decide_eq_true_eq, List.getD_eq_getElem?_getD] at h
  rw [List.getD_eq_getElem?_getD]
  cases hl : lens[sym]? with
  | none => rw [hl] at h; exact absurd rfl h
  | some l => rfl

theorem getD_pos_of_hasCode (h : hasCode lens sym = true) : 0 < lens.getD sym 0 :=
  Nat.pos_of_ne_zero (of_decide_eq_true h)

theorem ne_over_of_kraft_ok (h : kraftCheck lens m = .ok) : kraftCheck lens m ≠ .over := by
  rw [h]
  nofun

/-- Cut short, the code of a longer symbol is past every code of the shorter length (R121, R130). -/
theorem findSym_cut_eq_none {j : Nat} (hsym : hasCode lens sym = true) (h1 : 1 ≤ j) (hj : j < lens.getD sym 0) :
    findSym lens j (codeOf lens sym / 2 ^ (lens.getD sym 0 - j)) = none := by
  have hrange := (codeOf_range (getElem?_of_hasCode hsym)).1
  rw [findSym_eq_none]
  right
  rw [Nat.le_div_iff_mul_le (Nat.two_pow_pos _)]
  exact (firstCode_ge lens h1 hj).trans hrange

/-- On a stream that holds a symbol's code no shorter length matches, and its own length does. -/
theorem firstMatch_of_streamHolds (hk : kraftCheck lens m ≠ .over) (hsym : hasCode lens sym = true)
    (hm : lens.getD sym 0 ≤ m) (hs : StreamHolds s (codeBits lens sym)) :
    (∀ j, 0 < j → j < lens.getD sym 0 → NoMatch lens s (linPos s) j) ∧
      findSym lens (lens.getD sym 0) (msbField s (linPos s) (lens.getD sym 0)) = some sym := by
  have hlen := getElem?_of_hasCode hsym
  have hpos : 0 < lens.getD sym 0 := getD_pos_of_hasCode hsym
  have hfit : codeOf lens sym < 2 ^ lens.getD sym 0 := (codeOf_range hlen).2.trans_le (kraft_fits hk hpos hm)
  have hfield : ∀ j, j ≤ lens.getD sym 0 → msbField s (linPos s) j = codeOf lens sym / 2 ^ (lens.getD sym 0 - j) :=
    fun j hj => msbField_of_streamHolds hs hj hfit
  refine ⟨fun j h0 hj => ?_, ?_⟩
  · rw [NoMatch, hfield j hj.le]
    exact findSym_cut_eq_none hsym h0 hj
  · rw [hfield _ le_rfl, Nat.sub_self, Nat.pow_zero, Nat.div_one]
    exact findSym_eq_some.2 ⟨hlen, rfl⟩

/-- `huff_decode` reads back the code of a symbol of an array that is not over-subscribed (R126). -/
theorem huffDecode_of_streamHolds (hk : kraftCheck lens m ≠ .over) (hsym : hasCode lens sym = true)
    (hm : lens.getD sym 0 ≤ m) (hs : StreamHolds s (codeBits lens sym)) :
    huffDecode lens m s = .ok sym (cursorTo (linPos s + lens.getD sym 0) s) := by
  obtain ⟨hshort, hmatch⟩ := firstMatch_of_streamHolds hk hsym hm hs
  have hpos : 0 < lens.getD sym 0 := getD_pos_of_hasCode hsym
  have hleft := streamHolds_le hs
  rw [length_codeBits] at hleft
  have habsurd : ¬NoMatch lens s (linPos s) (lens.getD sym 0) := fun h => by
    rw [NoMatch, hmatch] at h
    cases h
  rcases huffDecode_cases lens m (Nat.le_of_add_right_le hleft) with
    ⟨L, v, h0, -, -, hno, hv, hd⟩ | ⟨L, -, hend, hno, -⟩ | ⟨-, hno, -⟩
  · obtain hlt | rfl | hgt := Nat.lt_trichotomy L (lens.getD sym 0)
    · have hnone : findSym lens L _ = none := hshort L h0 hlt
      rw [hnone] at hv
      cases hv
    · rw [hmatch] at hv
      cases hv
      exact hd
    · exact absurd (hno _ hpos hgt) habsurd
  · exact absurd (hno _ hpos (by omega)) habsurd
  · exact absurd (hno _ hpos hm) habsurd

end decoder

/-! ### The arrays of the state -/

/-- The entries of an array of `w`-bit lengths are below `2^w`, the missing ones too. -/
theorem getD_lensOf_lt {w : Nat} (l : List (BitVec w)) (sym : Nat) : (lensOf l).getD sym 0 < 2 ^ w := by
  rw [lensOf, List.getD_eq_getElem?_getD, List.getElem?_map]
  cases l[sym]? with
  | none => exact Nat.two_pow_pos w
  | some v => exact v.isLt

/-- The arrays a symbol is decoded with are not over-subscribed, and no code is longer than the decoder reads (R168). -/
theorem activeLL_decodes {s : State} (h : TablesOk s) :
    kraftCheck (activeLL s) Config.maxBitsLL ≠ .over ∧ ∀ sym, (activeLL s).getD sym 0 ≤ Config.maxBitsLL := by
  unfold activeLL
  split
  · refine ⟨ne_over_of_kraft_ok kraftCheck_fixLL, fun sym => ?_⟩
    rw [getD_fixLL]
    split_ifs <;> decide
  · rename_i hfixed
    obtain h | ⟨-, hll, -⟩ := h
    · exact absurd h hfixed
    · exact ⟨ne_over_of_kraft_ok hll, fun sym => Nat.le_of_lt_succ (getD_lensOf_lt s.llLen sym)⟩

theorem activeDist_decodes {s : State} (h : TablesOk s) :
    kraftCheck (activeDist s) Config.maxBitsD ≠ .over ∧ ∀ sym, (activeDist s).getD sym 0 ≤ Config.maxBitsD := by
  unfold activeDist
  split
  · refine ⟨ne_over_of_kraft_ok kraftCheck_fixD, fun sym => ?_⟩
    rw [getD_fixD]
    split_ifs <;> decide
  · rename_i hfixed
    obtain h | ⟨-, -, hd⟩ := h
    · exact absurd h hfixed
    · exact ⟨ne_over_of_kraft_ok hd, fun sym => Nat.le_of_lt_succ (getD_lensOf_lt s.dLen sym)⟩

/-! ### The fetch -/

section fetch
variable {s : State} {i : Instr}

theorem decoded_apply {sel : Selector} (h : decode sel = .ok i) (s : State) : decoded sel s = .ok (some i) s := by
  rw [decoded, h]
  rfl

/-- The fetch of an instruction reached by position reads nothing (R99). -/
theorem fetch_byPhase (h : decodePhase s.phase = .ok i) : fetch s = .ok (some i) s := by
  have hdec : decoded (.byPhase s.phase) s = .ok (some i) s := decoded_apply (sel := .byPhase s.phase) h s
  cases hp : s.phase <;> rw [hp] at h hdec <;> simp only [fetch, bind_apply, getState_apply, hp]
  case idle | blkHdr | dynLens | sym | symDist | done | error => cases h
  all_goals exact hdec

/-- The three bits of a block header (R161). -/
theorem fetchBlockHeader_of_streamHolds {bfinal : BitVec 1} {w : BitVec 2} (hdec : decode (.btype bfinal w) = .ok i)
    (hs : StreamHolds s (bitsLsb bfinal.toNat 1 ++ bitsLsb w.toNat 2)) :
    fetchBlockHeader s = .ok (some i) { cursorTo (linPos s + 3) s with bfinal := bfinal } := by
  have hfirst := readBits_of_streamHolds (streamHolds_left hs) bfinal.isLt
  have hsecond := readBits_at (t := { cursorTo (linPos s + 1) s with bfinal := bfinal }) (m := 1) rfl rfl rfl
    (length_bitsLsb _ _) hs w.isLt
  simp only [fetchBlockHeader, bind_apply, hfirst, update_apply, BitVec.ofNat_toNat, BitVec.setWidth_eq, hsecond]
  exact decoded_apply hdec _

/-- The code-length symbol of a DYN_LENS step, while the flat array is not full (R143). -/
theorem fetchClSymbol_of_streamHolds {sym : Nat} (hroom : s.idx.toNat < flatTotal s) (hdec : decode (.cl sym) = .ok i)
    (hk : kraftCheck (lensOf s.clLen) Config.maxBitsCL = .ok) (hsym : hasCode (lensOf s.clLen) sym = true)
    (hs : StreamHolds s (codeBits (lensOf s.clLen) sym)) :
    fetchClSymbol s = .ok (some i) (cursorTo (linPos s + (lensOf s.clLen).getD sym 0) s) := by
  have hm : (lensOf s.clLen).getD sym 0 ≤ Config.maxBitsCL := Nat.le_of_lt_succ (getD_lensOf_lt s.clLen sym)
  have hread := huffDecode_of_streamHolds (ne_over_of_kraft_ok hk) hsym hm hs
  simp only [fetchClSymbol, bind_apply, getState_apply, ite_apply_op, Nat.ne_of_lt hroom, if_false, hread]
  exact decoded_apply hdec _

theorem fetchLLSymbol_of_streamHolds {sym : Nat} (htab : TablesOk s) (hdec : decode (.ll sym) = .ok i)
    (hsym : hasCode (activeLL s) sym = true) (hs : StreamHolds s (codeBits (activeLL s) sym)) :
    fetchLLSymbol s = .ok (some i) (cursorTo (linPos s + (activeLL s).getD sym 0) s) := by
  obtain ⟨hk, hm⟩ := activeLL_decodes htab
  simp only [fetchLLSymbol, bind_apply, getState_apply, ite_apply_op, hasActiveTables_of_tablesOk htab, if_true,
    huffDecode_of_streamHolds hk hsym (hm sym) hs]
  exact decoded_apply hdec _

theorem fetchDistSymbol_of_streamHolds {sym : Nat} (htab : TablesOk s) (hdec : decode (.dist sym) = .ok i)
    (hsym : hasCode (activeDist s) sym = true) (hs : StreamHolds s (codeBits (activeDist s) sym)) :
    fetchDistSymbol s = .ok (some i) (cursorTo (linPos s + (activeDist s).getD sym 0) s) := by
  obtain ⟨hk, hm⟩ := activeDist_decodes htab
  simp only [fetchDistSymbol, bind_apply, getState_apply, ite_apply_op, hasActiveTables_of_tablesOk htab, if_true,
    huffDecode_of_streamHolds hk hsym (hm sym) hs]
  exact decoded_apply hdec _

theorem fetch_of_blkHdr (h : s.phase = .blkHdr) : fetch s = fetchBlockHeader s := by
  simp only [fetch, bind_apply, getState_apply, h]

theorem fetch_of_dynLens (h : s.phase = .dynLens) : fetch s = fetchClSymbol s := by
  simp only [fetch, bind_apply, getState_apply, h]

theorem fetch_of_sym (h : s.phase = .sym) : fetch s = fetchLLSymbol s := by
  simp only [fetch, bind_apply, getState_apply, h]

theorem fetch_of_symDist (h : s.phase = .symDist) : fetch s = fetchDistSymbol s := by
  simp only [fetch, bind_apply, getState_apply, h]

/-- Where an instruction is well-formed its phase performs it, and its symbol has a code. -/
theorem wellFormed_parts {c : Context} (h : wellFormed c i = true) : inPhase c i = true ∧ coded c i = true := by
  simp only [wellFormed, Bool.and_eq_true] at h
  exact ⟨h.1.1, h.2⟩

end fetch

/-- Settles O3: the kind of the instruction's selector fixes the phase, and the fetch of that phase reads its bits. -/
theorem fetchReadsTheEncodedInstruction : Obligations.FetchReadsTheEncodedInstruction := by
  unfold Obligations.FetchReadsTheEncodedInstruction
  intro s i hinv hbusy hwf hroom hs
  have hphase := (hinv.run hbusy).phase
  have hdec := decode_selectorOf i
  obtain ⟨hin, hcode⟩ := wellFormed_parts hwf
  unfold encode at hs ⊢
  unfold inPhase at hin
  unfold coded at hcode
  cases hsel : selectorOf i with
  | byPhase p =>
    rw [hsel] at hin hdec
    have hp : s.phase = p := of_decide_eq_true hin
    simp only [List.length_nil, Nat.add_zero, cursorTo_linPos]
    exact fetch_byPhase (hp ▸ hdec)
  | magic w => exact absurd hsel (selectorOf_ne_magic i w)
  | btype bfinal w =>
    rw [hsel] at hin hdec hs
    have hp : s.phase = .blkHdr := of_decide_eq_true hin
    rw [fetch_of_blkHdr hp]
    exact fetchBlockHeader_of_streamHolds hdec hs
  | cl sym =>
    rw [hsel] at hin hdec hs hcode
    have hp : s.phase = .dynLens := of_decide_eq_true hin
    rw [PhaseOk, hp] at hphase
    obtain ⟨-, -, -, hk⟩ := hphase
    simp only [length_codeBits, fetch_of_dynLens hp]
    exact fetchClSymbol_of_streamHolds (hroom hp) hdec hk hcode hs
  | ll sym =>
    rw [hsel] at hin hdec hs hcode
    have hp : s.phase = .sym := of_decide_eq_true hin
    rw [PhaseOk, hp] at hphase
    simp only [length_codeBits, fetch_of_sym hp]
    exact fetchLLSymbol_of_streamHolds hphase hdec hcode hs
  | dist sym =>
    rw [hsel] at hin hdec hs hcode
    have hp : s.phase = .symDist := of_decide_eq_true hin
    rw [PhaseOk, hp] at hphase
    obtain ⟨htab, -⟩ := hphase
    simp only [length_codeBits, fetch_of_symDist hp]
    exact fetchDistSymbol_of_streamHolds htab hdec hcode hs
  | ctrl data =>
    rw [hsel] at hin
    have hidle : (!s.busy) = true := hin
    rw [hbusy] at hidle
    cases hidle

theorem coreStep_of_fetch {s t : State} {i : Instr} (h : fetch s = .ok (some i) t) : coreStep s = exec i t := by
  rw [coreStep, h]

/-- Settles O44: with no host move pending the step is the core's, which runs what the fetch reads. -/
theorem stepRunsTheEncodedInstruction : Obligations.StepRunsTheEncodedInstruction := by
  unfold Obligations.StepRunsTheEncodedInstruction
  intro s i hinv hbusy hp hwf hroom hs
  rw [step_of_pending_nil hp]
  exact coreStep_of_fetch (fetchReadsTheEncodedInstruction s i hinv hbusy hwf hroom hs)

end Sys2Proof.Machine
end

section
/-! PROOFS. LEN and DIST row by row (spec/30_encoding.md R94, R95; spec/43_block_decoder.md R172, R173), and the selectors
and codes written out (R99). -/

namespace Sys2Proof.Machine

/-- Each row of the length table is the model's body with the row's numbers (R94). -/
theorem lengthRow_numbers {i : Instr} {base extra : Nat} (h : (i, base, extra) ∈ lengthRows) :
    ∃ k, lbase.getD k 0 = base ∧ lext.getD k 0 = extra ∧ ∀ s, exec i s = finish (matchLength k) s := by
  obtain ⟨k, hk, hrow⟩ := List.mem_iff_getElem.1 h
  rw [show lengthRows.length = 29 from rfl] at hk
  refine ⟨k, ?_⟩
  interval_cases k <;> cases hrow <;> exact ⟨rfl, rfl, fun _ => rfl⟩

/-- Each row of the distance table is the model's body with the row's numbers (R95). -/
theorem distanceRow_numbers {i : Instr} {base extra : Nat} (h : (i, base, extra) ∈ distanceRows) :
    ∃ k, dbase.getD k 0 = base ∧ dext.getD k 0 = extra ∧ ∀ s, exec i s = finish (matchDistance k) s := by
  obtain ⟨k, hk, hrow⟩ := List.mem_iff_getElem.1 h
  rw [show distanceRows.length = 30 from rfl] at hk
  refine ⟨k, ?_⟩
  interval_cases k <;> cases hrow <;> exact ⟨rfl, rfl, fun _ => rfl⟩

section bodies
variable {s : State} {k e : Nat}

/-- LEN with its extra bits in the stream (R172). -/
theorem matchLength_of_streamHolds (he : e < 2 ^ lext.getD k 0) (hs : StreamHolds s (bitsLsb e (lext.getD k 0))) :
    matchLength k s = .ok ()
      { cursorTo (linPos s + lext.getD k 0) s with mLen := BitVec.ofNat 9 (lbase.getD k 0 + e), phase := .symDist } := by
  simp only [matchLength, bind_apply, readBits_of_streamHolds hs he, update_apply]

theorem matchLength_of_lt (h : 8 * s.inLen.toNat < linPos s + lext.getD k 0) :
    matchLength k s = .error (.trap .unexpectedEof) s := by
  simp only [matchLength, bind_apply, readBits_of_lt h]

/-- DIST with its extra bits in the stream (R173): the test on the distance comes after them. -/
theorem matchDistance_of_streamHolds (he : e < 2 ^ dext.getD k 0) (hs : StreamHolds s (bitsLsb e (dext.getD k 0))) :
    matchDistance k s =
      if dbase.getD k 0 + e ≤ s.outPos.toNat then .ok ()
        { cursorTo (linPos s + dext.getD k 0) s with mDist := BitVec.ofNat 16 (dbase.getD k 0 + e), phase := .copy }
      else .error (.trap .invalidDistance) (cursorTo (linPos s + dext.getD k 0) s) := by
  simp only [matchDistance, bind_apply, readBits_of_streamHolds hs he, getState_apply, cursorTo_outPos]
  by_cases h : dbase.getD k 0 + e ≤ s.outPos.toNat
  · simp only [h, decide_true, require_true, update_apply, cursorTo_outPos, if_true]
  · simp only [h, decide_false, require_false, if_false]

theorem matchDistance_of_lt (h : 8 * s.inLen.toNat < linPos s + dext.getD k 0) :
    matchDistance k s = .error (.trap .unexpectedEof) s := by
  simp only [matchDistance, bind_apply, readBits_of_lt h]

end bodies

/-- Settles O27: row by row LEN is one body, and its one read succeeds or raises. -/
theorem matchLengthResult : Obligations.MatchLengthResult := by
  unfold Obligations.MatchLengthResult
  intro i base extra hrow s
  obtain ⟨k, rfl, rfl, hexec⟩ := lengthRow_numbers hrow
  rw [hexec]
  exact ⟨fun h => finish_trap (matchLength_of_lt h), fun e he hs => finish_ok (matchLength_of_streamHolds he hs)⟩

/-- Settles O28: row by row DIST is one body, whose read raises or is followed by the test on the distance. -/
theorem matchDistanceResult : Obligations.MatchDistanceResult := by
  unfold Obligations.MatchDistanceResult
  intro i base extra hrow s
  obtain ⟨k, rfl, rfl, hexec⟩ := distanceRow_numbers hrow
  rw [hexec]
  refine ⟨fun h => finish_trap (matchDistance_of_lt h), fun e he hs => ⟨fun hle => ?_, fun hlt => ?_⟩⟩
  · exact finish_ok ((matchDistance_of_streamHolds he hs).trans (if_pos hle))
  · exact finish_trap ((matchDistance_of_streamHolds he hs).trans (if_neg (Nat.not_le.2 hlt)))

/-- Settles O1: the selectors by the opcode map, the code words by the runs of the fixed codes. -/
theorem tableSelectorsDecode : Obligations.TableSelectorsDecode := by
  unfold Obligations.TableSelectorsDecode
  refine ⟨rfl, rfl, rfl, rfl, rfl, rfl, rfl, rfl, rfl, rfl, rfl, rfl, rfl, ?_, ?_, ?_⟩
  · obtain ⟨hlen, hcode⟩ := fixLL_first (v := 0x61) (by decide)
    rw [codeBits, hlen, hcode]
    decide
  · obtain ⟨hlen, hcode⟩ := fixLL_third (v := 256) (by decide) (by decide)
    rw [codeBits, hlen, hcode]
    decide
  · obtain ⟨hlen, hcode⟩ := codeOf_fixD (v := 15) (by decide)
    rw [codeBits, hlen, hcode]
    decide

end Sys2Proof.Machine
end

section
/-! PROOFS. The reader primitives (spec/40_bitstream_reader.md R111 to R114): `read_bits` is its loop, a read of whole
bytes is a read of their bits, and what the alignment and the end test answer. -/

namespace Sys2Proof.Machine

/-! The cursor and its linear position (R22). -/

theorem linPos_div (s : State) : linPos s / 8 = s.bytePos.toNat := by
  have := s.bitOff.isLt
  rw [linPos]
  omega

theorem linPos_mod (s : State) : linPos s % 8 = s.bitOff.toNat := by
  have := s.bitOff.isLt
  rw [linPos]
  omega

theorem linPos_of_aligned {s : State} (h : s.bitOff = 0) : linPos s = 8 * s.bytePos.toNat := by simp [linPos, h]

/-- The bit at the cursor is bit BIT_OFF of the byte at BYTE_POS (R111). -/
theorem inBit_linPos (s : State) : inBit s (linPos s) = (inByte s s.bytePos.toNat).getLsbD s.bitOff.toNat := by
  rw [inBit, linPos_div, linPos_mod]

theorem cursorTo_of_aligned {s : State} (a : Nat) (h : s.bitOff = 0) :
    cursorTo (8 * a) s = { s with bytePos := BitVec.ofNat 32 a } := by
  simp [cursorTo, h]

/-- One bit past the cursor, as the loop of R111 moves it. -/
theorem cursorTo_linPos_succ (s : State) :
    cursorTo (linPos s + 1) s =
      if s.bitOff = 7 then { s with bitOff := 0, bytePos := s.bytePos + 1 } else { s with bitOff := s.bitOff + 1 } := by
  have hb := s.bitOff.isLt
  have h7 : s.bitOff = 7 ↔ s.bitOff.toNat = 7 := by rw [← BitVec.toNat_inj]; rfl
  by_cases h : s.bitOff.toNat = 7
  · have hpos : linPos s + 1 = 8 * (s.bytePos.toNat + 1) := by rw [linPos]; omega
    rw [if_pos (h7.2 h), cursorTo, hpos, Nat.mul_div_cancel_left _ (by decide), Nat.mul_mod_right, ofNat_toNat_add]
    rfl
  · have hdiv : (linPos s + 1) / 8 = s.bytePos.toNat := by rw [linPos]; omega
    have hmod : (linPos s + 1) % 8 = s.bitOff.toNat + 1 := by rw [linPos]; omega
    rw [if_neg (mt h7.1 h), cursorTo, hdiv, hmod, ofNat_toNat_add, BitVec.ofNat_toNat, BitVec.setWidth_eq]
    rfl

/-! `read_bits` (R111). -/

theorem or_shiftLeft_bit {v i : Nat} (b : Bool) (h : v < 2 ^ i) : v ||| b.toNat <<< i = v + 2 ^ i * b.toNat := by
  rw [Nat.or_comm, Nat.shiftLeft_eq, Nat.mul_comm, ← Nat.two_pow_add_eq_or_of_lt h, Nat.add_comm]

/-- The loop of R111 after `i` bits: it adds the next `n` bits above the value so far and moves the cursor past them. -/
theorem bitLoop_eq {s : State} {n i v : Nat} (hv : v < 2 ^ i) (h : linPos s + n ≤ 8 * s.inLen.toNat) :
    bitLoop n i v s = (v + 2 ^ i * inField s (linPos s) n, cursorTo (linPos s + n) s) := by
  induction n generalizing i v s with
  | zero => simp [bitLoop, inField]
  | succ n ih =>
    have hbit := Bool.toNat_le (inBit s (linPos s))
    have hlin : linPos (cursorTo (linPos s + 1) s) = linPos s + 1 := linPos_cursorTo s _ (by omega)
    have hv' : v + 2 ^ i * (inBit s (linPos s)).toNat < 2 ^ (i + 1) := by
      have := Nat.mul_le_mul_left (2 ^ i) hbit
      rw [Nat.pow_succ]
      omega
    rw [bitLoop, ← cursorTo_linPos_succ, ← inBit_linPos, or_shiftLeft_bit _ hv,
      ih hv' (by rw [hlin, cursorTo_inLen]; omega), hlin, inField_cursorTo, cursorTo_cursorTo, inField,
      Nat.add_right_comm (linPos s)]
    congr 1
    ring

/-- The test of R111 on the bits that are left, as a sum of natural numbers. -/
theorem lt_avail_iff (n : Nat) (s : State) :
    (n : Int) > 8 * ((s.inLen.toNat : Int) - s.bytePos.toNat) - s.bitOff.toNat ↔ 8 * s.inLen.toNat < linPos s + n := by
  rw [linPos]
  omega

/-- Settles O11: the loop's value and cursor, from no bits read. -/
theorem readBitsFollowsItsLoop : Obligations.ReadBitsFollowsItsLoop := by
  unfold Obligations.ReadBitsFollowsItsLoop
  intro n s _
  by_cases h : 8 * s.inLen.toNat < linPos s + n
  · rw [if_pos ((lt_avail_iff n s).2 h), readBits_of_lt h]
  · rw [if_neg (mt (lt_avail_iff n s).1 h), readBits_of_le (Nat.not_lt.1 h),
      bitLoop_eq (by decide : 0 < 2 ^ 0) (Nat.not_lt.1 h)]
    simp

/-! Whole bytes (R64, R113). -/

/-- The eight bits of a byte, first one least significant, are the byte (R63). -/
theorem inField_byte (s : State) (a : Nat) : inField s (8 * a) 8 = (inByte s a).toNat := by
  apply Nat.eq_of_testBit_eq
  intro i
  rw [testBit_inField, BitVec.testBit_toNat]
  by_cases hi : i < 8
  · have hdiv : (8 * a + i) / 8 = a := by omega
    have hmod : (8 * a + i) % 8 = i := by omega
    simp [hi, inBit, hdiv, hmod]
  · simp [hi, BitVec.getLsbD_of_ge _ i (Nat.not_lt.1 hi)]

/-- The little-endian number of some bytes is the number of their bits, first one least significant (R64). -/
theorem inLe_eq_inField (s : State) (a k : Nat) : inLe s a k = inField s (8 * a) (8 * k) := by
  induction k generalizing a with
  | zero => rfl
  | succ k ih =>
    rw [inLe, ih, Nat.mul_succ 8 k, Nat.add_comm (8 * k) 8, inField_add, inField_byte, Nat.mul_succ 8 a]
    rfl

/-- Digit `j` of a little-endian number, to base 256, is the byte `j` further on (R64). -/
theorem inLe_digit (s : State) (a : Nat) {k j : Nat} (h : j < k) :
    inLe s a k / 256 ^ j % 256 = (inByte s (a + j)).toNat := by
  induction k generalizing a j with
  | zero => omega
  | succ k ih =>
    have hb := (inByte s a).isLt
    cases j with
    | zero =>
      rw [inLe, Nat.pow_zero, Nat.div_one, Nat.add_zero a]
      omega
    | succ j =>
      have hdiv : ((inByte s a).toNat + 256 * inLe s (a + 1) k) / 256 = inLe s (a + 1) k := by omega
      rw [inLe, Nat.pow_succ', ← Nat.div_div_eq_div_mul, hdiv, ih (a + 1) (by omega), Nat.add_assoc, Nat.add_comm 1 j]

/-- At a byte boundary a read of whole bytes is a read of their bits, in every outcome (R113). -/
theorem readBytesLe_eq_readBits {s : State} (k : Nat) (h0 : s.bitOff = 0) : readBytesLe k s = readBits (8 * k) s := by
  have hlin := linPos_of_aligned h0
  by_cases h : s.inLen.toNat < s.bytePos.toNat + k
  · rw [readBytesLe_of_lt h, readBits_of_lt (by omega)]
  · rw [readBytesLe_of_le (Nat.not_lt.1 h), readBits_of_le (by omega), hlin, ← inLe_eq_inField, ← Nat.mul_add,
      cursorTo_of_aligned _ h0]

/-- Settles O12: the bits of the bytes are the bits read, and the digits of the value are the bytes. -/
theorem readBytesIsReadBits : Obligations.ReadBytesIsReadBits := by
  unfold Obligations.ReadBytesIsReadBits
  intro k s _ h0
  refine ⟨readBytesLe_eq_readBits k h0, readBytesLe_of_lt, fun h => ?_⟩
  refine ⟨inLe s s.bytePos.toNat k, inLe_lt s _ k, fun j hj => inLe_digit s _ hj, ?_⟩
  rw [readBytesLe_of_le h, ofNat_toNat_add]

/-! `align_to_byte` and `at_end` (R112, R114). -/

theorem alignToByte_of_aligned {s : State} (h : s.bitOff = 0) : alignToByte s = .ok () s := by
  rw [alignToByte, if_pos h]

theorem alignedPos_of_aligned {s : State} (h : s.bitOff = 0) : alignedPos s = s.bytePos.toNat := by
  rw [alignedPos, linPos_of_aligned h]
  omega

/-- Inside a byte the next boundary is the next byte's (R112). -/
theorem alignedPos_of_inside {s : State} (h : s.bitOff ≠ 0) : alignedPos s = s.bytePos.toNat + 1 := by
  have hb := s.bitOff.isLt
  have h0 : s.bitOff.toNat ≠ 0 := fun h' => h (BitVec.eq_of_toNat_eq h')
  rw [alignedPos, linPos]
  omega

/-- `align_to_byte()` ends at `alignedPos`, from every cursor (R112). -/
theorem alignToByte_eq (s : State) :
    alignToByte s = .ok () { s with bitOff := 0, bytePos := BitVec.ofNat 32 (alignedPos s) } := by
  by_cases h : s.bitOff = 0
  · rw [alignToByte_of_aligned h, alignedPos_of_aligned h, BitVec.ofNat_toNat, BitVec.setWidth_eq, ← h]
  · rw [alignToByte, if_neg h, alignedPos_of_inside h, ofNat_toNat_add]
    rfl

theorem alignedPos_le {s : State} (h : CursorOk s) : alignedPos s ≤ s.inLen.toNat := by
  have := cursorOk_iff.1 h
  rw [alignedPos]
  omega

/-- Every input bit is consumed just when BYTE_POS is IN_LEN, in normal form (R22, R114). -/
theorem atEnd_iff {s : State} (h : CursorOk s) : atEnd s = true ↔ linPos s = 8 * s.inLen.toNat := by
  obtain ⟨hle, hend⟩ := h
  rw [atEnd, decide_eq_true_iff, ← BitVec.toNat_inj]
  constructor
  · intro he
    rw [linPos_of_aligned (hend he), he]
  · intro hl
    have hb := s.bitOff.isLt
    rw [linPos] at hl
    omega

/-- Settles O13: the byte boundary reached from every cursor, and the bounds that normal form gives. -/
theorem alignmentAndEndTest : Obligations.AlignmentAndEndTest := by
  unfold Obligations.AlignmentAndEndTest
  exact fun s hc => ⟨alignToByte_eq s, alignedPos_le hc, alignToByte_of_aligned, atEnd_iff hc⟩

end Sys2Proof.Machine
end

section
/-! PROOFS. The canonical codes (spec/41_huffman_tables.md R121, R130) and the two symbol decoders (R126, R127). -/

namespace Sys2Proof.Machine

/-! ### The walk over the symbols (R121) -/

section assignment
variable {lens : List Nat} {m sym : Nat}

/-- The walk gives a symbol its length's counter, moved on once for each earlier symbol of that length. -/
theorem getElem?_assignCodes (next : Nat → Nat) (h : sym < lens.length) :
    (assignCodes next lens)[sym]? =
      some (if lens.getD sym 0 = 0 then none
        else some (next (lens.getD sym 0) + (lens.take sym).count (lens.getD sym 0))) := by
  induction lens generalizing next sym with
  | nil => exact absurd h (Nat.not_lt_zero _)
  | cons l rest ih =>
    cases sym with
    | zero => by_cases hl : l = 0 <;> simp [assignCodes, hl]
    | succ sym =>
      have hsym : sym < rest.length := Nat.lt_of_succ_lt_succ h
      rw [List.getD_cons_succ, List.take_succ_cons, List.count_cons]
      by_cases hl : l = 0
      · rw [assignCodes, if_pos hl, List.getElem?_cons_succ, ih next hsym]
        generalize rest.getD sym 0 = len
        by_cases hlen : len = 0
        · simp [hlen]
        · simp [hl, hlen, Ne.symm hlen]
      · rw [assignCodes, if_neg hl, List.getElem?_cons_succ, ih _ hsym]
        generalize rest.getD sym 0 = len
        by_cases hlen : len = l
        · simp [hlen, Nat.add_assoc, Nat.add_comm 1]
        · simp [hlen, Ne.symm hlen]

/-- When the array is not over-subscribed a code fits its length (R121, R123). -/
theorem codeOf_lt_two_pow (hk : kraftCheck lens m ≠ .over) (hsym : hasCode lens sym = true)
    (hm : lens.getD sym 0 ≤ m) : codeOf lens sym < 2 ^ lens.getD sym 0 :=
  (codeOf_range (getElem?_of_hasCode hsym)).2.trans_le (kraft_fits hk (getD_pos_of_hasCode hsym) hm)

/-- Settles O6: the counts and first codes are R121's by definition, the walk by induction over the symbols. -/
theorem canonicalCodesFollowAssignment : Obligations.CanonicalCodesFollowAssignment := by
  unfold Obligations.CanonicalCodesFollowAssignment
  intro lens
  refine ⟨fun len => ?_, rfl, fun len hlen => ?_, fun sym => getElem?_assignCodes _,
    fun sym => ⟨length_codeBits lens sym, fun j => getD_bitsMsb _⟩, fun m hk sym hpos => ?_⟩
  · rw [countLen, List.count_eq_length_filter]
    rfl
  · obtain ⟨n, rfl⟩ := Nat.exists_eq_add_of_le' hlen
    rfl
  · exact codeOf_lt_two_pow hk (decide_eq_true (Nat.ne_of_gt hpos))

end assignment

/-! ### Codes as strings of bits (R130) -/

section strings
variable {lens : List Nat} {m a b : Nat}

/-- The first bits of a number, most significant first, are those of the number cut short. -/
theorem bitsMsb_add (v j d : Nat) : bitsMsb v (j + d) = bitsMsb (v / 2 ^ d) j ++ bitsMsb v d := by
  induction j with
  | zero => rw [Nat.zero_add]; rfl
  | succ j ih => rw [Nat.succ_add, bitsMsb, bitsMsb, ih, Nat.testBit_div_two_pow, List.cons_append]

/-- A number that fits its string of bits is fixed by it. -/
theorem bitsMsb_inj {v w n : Nat} (hv : v < 2 ^ n) (hw : w < 2 ^ n) (h : bitsMsb v n = bitsMsb w n) : v = w := by
  apply Nat.eq_of_testBit_eq
  intro i
  by_cases hi : i < n
  · have hlt : n - 1 - i < n := by omega
    have hbit := getD_bitsMsb v hlt
    rw [h, getD_bitsMsb w hlt, show n - 1 - (n - 1 - i) = i by omega] at hbit
    exact hbit.symm
  · have hpow : 2 ^ n ≤ 2 ^ i := Nat.pow_le_pow_right (by decide) (Nat.not_lt.1 hi)
    rw [Nat.testBit_lt_two_pow (hv.trans_le hpow), Nat.testBit_lt_two_pow (hw.trans_le hpow)]

/-- A code that is a prefix of another is the other cut short. -/
theorem codeOf_eq_of_prefix (ha : codeOf lens a < 2 ^ lens.getD a 0) (hb : codeOf lens b < 2 ^ lens.getD b 0)
    (h : codeBits lens a <+: codeBits lens b) :
    lens.getD a 0 ≤ lens.getD b 0 ∧ codeOf lens a = codeOf lens b / 2 ^ (lens.getD b 0 - lens.getD a 0) := by
  have hle : lens.getD a 0 ≤ lens.getD b 0 := by simpa only [length_codeBits] using h.length_le
  refine ⟨hle, ?_⟩
  obtain ⟨d, hd⟩ := Nat.exists_eq_add_of_le hle
  rw [codeBits, codeBits, hd, bitsMsb_add] at h
  rw [hd, Nat.add_comm, Nat.pow_add] at hb
  rw [hd, Nat.add_sub_cancel_left]
  obtain ⟨rest, hrest⟩ := h
  exact bitsMsb_inj ha (Nat.div_lt_of_lt_mul hb) (List.append_inj_left hrest (by simp))

/-- Settles O7: of a longer code no part cut short is a code, and codes of one length differ. -/
theorem assignedCodesArePrefixFree : Obligations.AssignedCodesArePrefixFree := by
  unfold Obligations.AssignedCodesArePrefixFree
  intro lens m hk a b hne ha hb ham hbm hprefix
  have hla := getElem?_of_hasCode ha
  have hlb := getElem?_of_hasCode hb
  obtain ⟨hle, hcut⟩ := codeOf_eq_of_prefix (codeOf_lt_two_pow hk ha ham) (codeOf_lt_two_pow hk hb hbm) hprefix
  obtain hlt | heq := Nat.lt_or_eq_of_le hle
  · have hnone := findSym_cut_eq_none hb (getD_pos_of_hasCode ha) hlt
    rw [← hcut, findSym_eq_some.2 ⟨hla, rfl⟩] at hnone
    cases hnone
  · rw [← heq, Nat.sub_self, Nat.pow_zero, Nat.div_one] at hcut
    exact hne (codeOf_inj hla (heq ▸ hlb) hcut)

end strings

/-! ### The symbol decoder (R126) -/

section decoder
variable {lens : List Nat} {s : State} {k n sym : Nat}

/-- Settles O8: `huff_decode` on a stream that holds a code, as the fetch uses it. -/
theorem symbolDecoderReadsItsCode : Obligations.SymbolDecoderReadsItsCode := by
  unfold Obligations.SymbolDecoderReadsItsCode
  exact fun _ _ _ _ => huffDecode_of_streamHolds

/-- Bit `j` in stream order of the number formed by `n` input bits is the input's (R65). -/
theorem testBit_msbField {j : Nat} (h : j < n) : (msbField s k n).testBit (n - 1 - j) = inBit s (k + j) := by
  have hcut := msbField_shift s k (j + 1) (n - 1 - j)
  rw [show j + 1 + (n - 1 - j) = n by omega] at hcut
  rw [← Nat.zero_add (n - 1 - j), ← Nat.testBit_div_two_pow, hcut, msbField]
  cases inBit s (k + j) <;> simp [Nat.add_mod]

/-- The stream holds the bits of the number they form. -/
theorem streamHolds_msbField (h : linPos s + n ≤ 8 * s.inLen.toNat) :
    StreamHolds s (bitsMsb (msbField s (linPos s) n) n) := by
  refine ⟨by rwa [length_bitsMsb], fun j hj => ?_⟩
  rw [length_bitsMsb] at hj
  rw [getD_bitsMsb _ hj, testBit_msbField hj]

/-- A symbol that the next `n` bits match has the length `n`, and its code stands in the stream. -/
theorem streamHolds_of_findSym (h : linPos s + n ≤ 8 * s.inLen.toNat)
    (hf : findSym lens n (msbField s (linPos s) n) = some sym) :
    lens.getD sym 0 = n ∧ StreamHolds s (codeBits lens sym) := by
  obtain ⟨hlen, hcode⟩ := findSym_eq_some.1 hf
  have hlen' : lens.getD sym 0 = n := by rw [List.getD_eq_getElem?_getD, hlen]; rfl
  rw [codeBits, hlen', hcode]
  exact ⟨rfl, streamHolds_msbField h⟩

/-- Settles O9: of the three ends of `huff_decode`, a complete array leaves the match and the end of the input. -/
theorem completeArrayDecodesOrEndsInput : Obligations.CompleteArrayDecodesOrEndsInput := by
  unfold Obligations.CompleteArrayDecodesOrEndsInput
  intro lens m s hk hm hs
  rcases huffDecode_cases lens m hs with
    ⟨L, sym, hpos, -, hleft, -, hmatch, hd⟩ | ⟨L, -, hend, -, hd⟩ | ⟨-, hno, -⟩
  · obtain ⟨rfl, hholds⟩ := streamHolds_of_findSym hleft hmatch
    exact .inl ⟨sym, decide_eq_true (Nat.ne_of_gt hpos), hholds, hd⟩
  · exact .inr (hend ▸ hd)
  · exact absurd hno (not_all_noMatch hk hm _)

end decoder

/-! ### The count-based decoder (R127) -/

section count
variable {lens sorted : List Nat} {len code : Nat}

theorem length_symbolsOfLen (len s : Nat) (lens : List Nat) : (symbolsOfLen len s lens).length = countLen lens len := by
  induction lens generalizing s with
  | nil => rfl
  | cons l rest ih =>
    rw [symbolsOfLen, countLen, List.count_cons]
    by_cases hl : l = len <;> simp [hl, ih, countLen]

/-- The symbols of one length stand in the order of their codes (R121). -/
theorem findFrom_eq_getElem? {next s : Nat} (h : next ≤ code) :
    findFrom len code next s lens = (symbolsOfLen len s lens)[code - next]? := by
  induction lens generalizing next s with
  | nil => rfl
  | cons l rest ih =>
    rw [findFrom, symbolsOfLen]
    by_cases hl : l = len
    · rw [if_pos hl, if_pos hl]
      by_cases hn : next = code
      · simp [hn]
      · rw [if_neg hn, ih (by omega), show code - next = code - (next + 1) + 1 by omega, List.getElem?_cons_succ]
    · rw [if_neg hl, if_neg hl, ih h]

/-- The search of R126 finds what R127 looks up: the symbol as far into those of its length as its code is past their
first. -/
theorem findSym_eq_getElem? (h : firstCode lens len ≤ code) :
    findSym lens len code = (symbolsOfLen len 0 lens)[code - firstCode lens len]? :=
  findFrom_eq_getElem? h

/-- The two loops agree (R127): `code` is never before the first code of its length, and `sorted` from `index` on holds
the symbols of the lengths that are left. -/
theorem countLoop_eq_huffLoop {index n : Nat} (hfirst : firstCode lens (len + 1) ≤ code <<< 1)
    (hsorted : sorted.drop index = sortedSymbols lens (len + 1) n) :
    countLoop lens sorted (len + 1) (code <<< 1) (firstCode lens (len + 1)) index n =
      huffLoop lens (len + 1) code n := by
  induction n generalizing len code index with
  | zero => rfl
  | succ n ih =>
    rw [countLoop, huffLoop]
    congr 1
    funext b
    have hge : firstCode lens (len + 1) ≤ code <<< 1 ||| b := hfirst.trans Nat.left_le_or
    rw [findSym_eq_getElem? hge]
    rw [sortedSymbols] at hsorted
    have hcount := length_symbolsOfLen (len + 1) 0 lens
    generalize code <<< 1 ||| b = next at hge
    by_cases hlt : next < firstCode lens (len + 1) + countLen lens (len + 1)
    · have hi : next - firstCode lens (len + 1) < (symbolsOfLen (len + 1) 0 lens).length := by omega
      rw [if_pos hlt, List.getD_eq_getElem?_getD, ← List.getElem?_drop, hsorted, List.getElem?_append_left hi,
        List.getElem?_eq_getElem hi]
      rfl
    · rw [if_neg hlt, List.getElem?_eq_none (by omega)]
      refine ih (len := len + 1) ?_ ?_
      · rw [firstCode, Nat.shiftLeft_eq, Nat.shiftLeft_eq]
        exact Nat.mul_le_mul_right _ (Nat.not_lt.1 hlt)
      · rw [← List.drop_drop, hsorted, List.drop_left' hcount]

/-- Settles O10: the loops agree from the start on, where no bit is read and `sorted` is whole. -/
theorem countDecoderAgrees : Obligations.CountDecoderAgrees := by
  unfold Obligations.CountDecoderAgrees
  intro lens m s _
  exact congrFun (countLoop_eq_huffLoop (code := 0) (Nat.zero_le _) rfl) s

end count

end Sys2Proof.Machine
end

section
/-! PROOFS. The code-length symbols: what CL.LEN, CL.REP16 and the zero runs write to `FLAT`
(spec/42_dynamic_tables.md R144 to R147). -/

namespace Sys2Proof.Machine

/-- Entry by entry: `n` entries from `i` on hold `v`, the others are kept. -/
theorem getD_fillFlat (v : BitVec 4) {i n j : Nat} {l : List (BitVec 4)} (hj : j < l.length) :
    (fillFlat v i n l).getD j 0 = if i ≤ j ∧ j < i + n then v else l.getD j 0 := by
  induction n generalizing i l with
  | zero => rw [fillFlat, if_neg (by omega)]
  | succ n ih =>
    have hset : (l.set i v).getD j 0 = if i = j then v else l.getD j 0 := by
      rw [List.getD_eq_getElem?_getD, List.getElem?_set, List.getD_eq_getElem?_getD]
      by_cases hij : i = j
      · rw [if_pos hij, if_pos (hij ▸ hj), if_pos hij, Option.getD_some]
      · rw [if_neg hij, if_neg hij]
    rw [fillFlat, ih (by rwa [List.length_set]), hset]
    by_cases hij : i = j
    · simp [hij]
    · have hrange : (i + 1 ≤ j ∧ j < i + 1 + n) ↔ (i ≤ j ∧ j < i + (n + 1)) := by omega
      simp only [hij, hrange, if_false]

/-- Each CL.LEN row appends its own value. -/
theorem codeLengthRow_value {i : Instr} {v : BitVec 4} (h : (i, v) ∈ codeLengthRows) (s : State) :
    exec i s = .next (appendFlat v 1 s) := by
  simp only [codeLengthRows, List.mem_cons, Prod.mk.injEq, List.not_mem_nil, or_false] at h
  rcases h with ⟨rfl, rfl⟩ | ⟨rfl, rfl⟩ | ⟨rfl, rfl⟩ | ⟨rfl, rfl⟩ | ⟨rfl, rfl⟩ | ⟨rfl, rfl⟩ | ⟨rfl, rfl⟩ | ⟨rfl, rfl⟩ |
    ⟨rfl, rfl⟩ | ⟨rfl, rfl⟩ | ⟨rfl, rfl⟩ | ⟨rfl, rfl⟩ | ⟨rfl, rfl⟩ | ⟨rfl, rfl⟩ | ⟨rfl, rfl⟩ | ⟨rfl, rfl⟩ <;> rfl

/-- Settles O33: each row appends its value once, and `IDX` moves on by one. -/
theorem codeLengthSymbolResult : Obligations.CodeLengthSymbolResult := by
  unfold Obligations.CodeLengthSymbolResult
  intro i v hrow s
  rw [codeLengthRow_value hrow, appendFlat, ofNat_toNat_add]
  rfl

/-- Each zero-run row is the model's body with the row's numbers (R91). -/
theorem zeroRunRow_numbers {i : Instr} {base extra : Nat} (h : (i, base, extra) ∈ zeroRunRows) (s : State) :
    exec i s = finish (zeroRun base extra) s := by
  simp only [zeroRunRows, List.mem_cons, Prod.mk.injEq, List.not_mem_nil, or_false] at h
  rcases h with ⟨rfl, rfl, rfl⟩ | ⟨rfl, rfl, rfl⟩ <;> rfl

@[simp] theorem flatTotal_cursorTo (k : Nat) (s : State) : flatTotal (cursorTo k s) = flatTotal s := rfl

section runs
variable {s : State} {base n e : Nat}

/-- A zero run with its extra bits in the stream (R146, R147): the test on the run comes after them. -/
theorem zeroRun_of_streamHolds (he : e < 2 ^ n) (hs : StreamHolds s (bitsLsb e n)) :
    zeroRun base n s =
      if s.idx.toNat + (base + e) ≤ flatTotal s then .ok () (appendFlat 0 (base + e) (cursorTo (linPos s + n) s))
      else .error (.trap .malformedTable) (cursorTo (linPos s + n) s) := by
  simp only [zeroRun, bind_apply, readBits_of_streamHolds hs he, getState_apply, cursorTo_idx, flatTotal_cursorTo]
  by_cases hfit : s.idx.toNat + (base + e) ≤ flatTotal s
  · simp only [hfit, decide_true, require_true, update_apply, if_true]
  · simp only [hfit, decide_false, require_false, if_false]

theorem zeroRun_of_lt (h : 8 * s.inLen.toNat < linPos s + n) : zeroRun base n s = .error (.trap .unexpectedEof) s := by
  simp only [zeroRun, bind_apply, readBits_of_lt h]

/-- CL.REP16 with its extra bits in the stream (R145): both tests come after them. -/
theorem exec_clRep16_of_streamHolds (he : e < 4) (hs : StreamHolds s (bitsLsb e 2)) :
    exec .clRep16 s = .next
      (if s.idx ≠ 0 ∧ s.idx.toNat + (3 + e) ≤ flatTotal s then
        appendFlat (s.flat.getD (s.idx.toNat - 1) 0) (3 + e) (cursorTo (linPos s + 2) s)
      else takeTrap .malformedTable (cursorTo (linPos s + 2) s)) := by
  by_cases hidx : s.idx = 0
  · refine (finish_trap (op := _) ?_).trans (congrArg _ (if_neg fun h => h.1 hidx).symm)
    simp only [bind_apply, readBits_of_streamHolds hs he, getState_apply, cursorTo_idx, hidx, ne_eq, not_true_eq_false,
      decide_false, require_false]
  by_cases hfit : s.idx.toNat + (3 + e) ≤ flatTotal s
  · refine (finish_ok (op := _) ?_).trans (congrArg _ (if_pos ⟨hidx, hfit⟩).symm)
    simp only [bind_apply, readBits_of_streamHolds hs he, getState_apply, cursorTo_idx, cursorTo_flat,
      flatTotal_cursorTo, hidx, ne_eq, not_false_eq_true, hfit, decide_true, require_true, update_apply]
  · refine (finish_trap (op := _) ?_).trans (congrArg _ (if_neg fun h => hfit h.2).symm)
    simp only [bind_apply, readBits_of_streamHolds hs he, getState_apply, cursorTo_idx, flatTotal_cursorTo, hidx, ne_eq,
      not_false_eq_true, hfit, decide_true, decide_false, require_true, require_false]

theorem exec_clRep16_of_lt (h : 8 * s.inLen.toNat < linPos s + 2) :
    exec .clRep16 s = .next (takeTrap .unexpectedEof s) := by
  refine finish_trap (op := _) ?_
  simp only [bind_apply, readBits_of_lt h]

end runs

/-- Settles O34: the one read succeeds or raises, and both tests follow it. -/
theorem repeatPreviousResult : Obligations.RepeatPreviousResult := by
  unfold Obligations.RepeatPreviousResult
  intro s
  refine ⟨exec_clRep16_of_lt, fun e he hs => ⟨fun hbad => ?_, fun hidx hfit => ?_⟩⟩
  · have hrun : ¬ (s.idx ≠ 0 ∧ s.idx.toNat + (3 + e) ≤ flatTotal s) := fun ⟨hidx, hfit⟩ =>
      hbad.elim hidx (Nat.not_lt.2 hfit)
    rw [exec_clRep16_of_streamHolds he hs, if_neg hrun]
    rfl
  · exact ⟨_, (exec_clRep16_of_streamHolds he hs).trans (congrArg _ (if_pos ⟨hidx, hfit⟩)), length_fillFlat _ _ _ _,
      fun j hj => getD_fillFlat _ (length_fillFlat _ _ _ _ ▸ hj)⟩

/-- Settles O35: both rows are one body, whose read raises or is followed by the test on the run. -/
theorem zeroRunResult : Obligations.ZeroRunResult := by
  unfold Obligations.ZeroRunResult
  intro i base extra hrow s
  rw [zeroRunRow_numbers hrow]
  refine ⟨fun h => finish_trap (zeroRun_of_lt h), fun e he hs => ⟨fun hlt => ?_, fun hfit => ?_⟩⟩
  · exact finish_trap ((zeroRun_of_streamHolds he hs).trans (if_neg (Nat.not_le.2 hlt)))
  · exact ⟨_, finish_ok ((zeroRun_of_streamHolds he hs).trans (if_pos hfit)), length_fillFlat _ _ _ _,
      fun j hj => getD_fillFlat _ (length_fillFlat _ _ _ _ ▸ hj)⟩

end Sys2Proof.Machine
end

section
/-! PROOFS. The counts of a dynamic block: DYN.COUNTS (spec/42_dynamic_tables.md R141). -/

namespace Sys2Proof.Machine

/-! ### DYN.COUNTS from each of its reads on -/

/-- The two range tests and the passing on. -/
def testCounts : Op Unit := do
  let s ← getState
  require (decide (s.hlit.toNat ≤ 286)) .malformedTable
  require (decide (s.hdist.toNat ≤ 32 ∧ s.hclen.toNat ≤ 19)) .malformedTable
  update (setPhase .dynCllen)

/-- From the third read on. -/
def readHclen : Op Unit := do
  let hclenf ← readBits 4
  update fun s => { s with hclen := BitVec.ofNat 5 (hclenf + 4) }
  testCounts

/-- From the second read on. -/
def readHdist : Op Unit := do
  let hdistf ← readBits 5
  update fun s => { s with hdist := BitVec.ofNat 6 (hdistf + 1) }
  readHclen

/-- All three reads. -/
def readHlit : Op Unit := do
  let hlitf ← readBits 5
  update fun s => { s with hlit := BitVec.ofNat 9 (hlitf + 257) }
  readHdist

/-- `s` after the first read, which answered `a`. -/
def withHlit (a : Nat) (s : State) : State := { cursorTo (linPos s + 5) s with hlit := BitVec.ofNat 9 (a + 257) }

/-- `s` after two reads, which answered `a` and `b`. -/
def withHdist (a b : Nat) (s : State) : State :=
  { cursorTo (linPos s + 10) s with hlit := BitVec.ofNat 9 (a + 257), hdist := BitVec.ofNat 6 (b + 1) }

/-- `s` after three reads, which answered `a`, `b` and `c`. -/
def withHclen (a b c : Nat) (s : State) : State :=
  { cursorTo (linPos s + 14) s with
    hlit := BitVec.ofNat 9 (a + 257), hdist := BitVec.ofNat 6 (b + 1), hclen := BitVec.ofNat 5 (c + 4) }

theorem exec_dynCounts (s : State) : exec .dynCounts s = finish readHlit s := rfl

section reads
variable {s : State} {a b c : Nat}

theorem readHlit_of_lt (h : 8 * s.inLen.toNat < linPos s + 5) : readHlit s = .error (.trap .unexpectedEof) s := by
  simp only [readHlit, bind_apply, readBits_of_lt h]

theorem readHlit_of_streamHolds (ha : a < 32) (hs : StreamHolds s (bitsLsb a 5)) :
    readHlit s = readHdist (withHlit a s) := by
  simp only [readHlit, bind_apply, readBits_of_streamHolds hs ha, update_apply]
  rfl

theorem readHdist_of_lt (hs : StreamHolds s (bitsLsb a 5)) (h : 8 * s.inLen.toNat < linPos s + 10) :
    readHdist (withHlit a s) = .error (.trap .unexpectedEof) (withHlit a s) := by
  have hread : readBits 5 (withHlit a s) = .error (.trap .unexpectedEof) (withHlit a s) :=
    readBits_at_end (m := 5) rfl rfl (by simpa using streamHolds_le hs) (by omega)
  simp only [readHdist, bind_apply, hread]

theorem readHdist_of_streamHolds (hb : b < 32) (hs : StreamHolds s (bitsLsb a 5 ++ bitsLsb b 5)) :
    readHdist (withHlit a s) = readHclen (withHdist a b s) := by
  have hread := readBits_at (t := withHlit a s) rfl rfl rfl (length_bitsLsb a 5) hs hb
  simp only [readHdist, bind_apply, hread, update_apply]
  rfl

theorem readHclen_of_lt (hs : StreamHolds s (bitsLsb a 5 ++ bitsLsb b 5)) (h : 8 * s.inLen.toNat < linPos s + 14) :
    readHclen (withHdist a b s) = .error (.trap .unexpectedEof) (withHdist a b s) := by
  have hread : readBits 4 (withHdist a b s) = .error (.trap .unexpectedEof) (withHdist a b s) :=
    readBits_at_end (m := 10) rfl rfl (by simpa using streamHolds_le hs) (by omega)
  simp only [readHclen, bind_apply, hread]

theorem readHclen_of_streamHolds (hc : c < 16) (hs : StreamHolds s (bitsLsb a 5 ++ bitsLsb b 5 ++ bitsLsb c 4)) :
    readHclen (withHdist a b s) = testCounts (withHclen a b c s) := by
  have hread := readBits_at (m := 10) (t := withHdist a b s) rfl rfl rfl (by simp) hs hc
  simp only [readHclen, bind_apply, hread, update_apply]
  rfl

/-- Only the first test can fail: the other two fields are too narrow (90_conflicts.md C2). -/
theorem testCounts_withHclen (ha : a < 32) (hb : b < 32) (hc : c < 16) :
    testCounts (withHclen a b c s) =
      if a ≤ 29 then .ok () (setPhase .dynCllen (withHclen a b c s))
      else .error (.trap .malformedTable) (withHclen a b c s) := by
  have hlit : (withHclen a b c s).hlit.toNat = a + 257 := Nat.mod_eq_of_lt (by omega)
  have hdist : (withHclen a b c s).hdist.toNat = b + 1 := Nat.mod_eq_of_lt (by omega)
  have hclen : (withHclen a b c s).hclen.toNat = c + 4 := Nat.mod_eq_of_lt (by omega)
  have hnarrow : b + 1 ≤ 32 ∧ c + 4 ≤ 19 := by omega
  have hrange : a + 257 ≤ 286 ↔ a ≤ 29 := by omega
  simp only [testCounts, bind_apply, getState_apply, hlit, hdist, hclen, hnarrow, hrange]
  by_cases hle : a ≤ 29
  · simp only [hle, decide_true, require_true, and_self, update_apply, if_true]
  · simp only [hle, decide_false, require_false, if_false]

end reads

/-- Settles O31: the three reads one after another, each of which can raise, and then the tests. -/
theorem dynCountsResult : Obligations.DynCountsResult := by
  unfold Obligations.DynCountsResult
  intro s
  simp only [exec_dynCounts]
  refine ⟨fun h => finish_trap (readHlit_of_lt h), fun a ha hsa => ?_⟩
  have hfirst := readHlit_of_streamHolds ha hsa
  refine ⟨fun h => finish_trap (hfirst.trans (readHdist_of_lt hsa h)), fun b hb hsb => ?_⟩
  have hsecond := hfirst.trans (readHdist_of_streamHolds hb hsb)
  refine ⟨fun h => finish_trap (hsecond.trans (readHclen_of_lt hsb h)), fun c hc hsc => ?_⟩
  have hthird := (hsecond.trans (readHclen_of_streamHolds hc hsc)).trans (testCounts_withHclen ha hb hc)
  exact ⟨fun hle => finish_ok (hthird.trans (if_pos hle)),
    fun hlt => finish_trap (hthird.trans (if_neg (Nat.not_le.2 hlt)))⟩

end Sys2Proof.Machine
end

section
/-! PROOFS. The code-length code and the two arrays of a dynamic block: DYN.CLLEN and DYN.BUILD
(spec/42_dynamic_tables.md R142, R148; spec/41_huffman_tables.md R124). -/

namespace Sys2Proof.Machine

/-! ### The test on a transmitted array -/

section kraft
variable {lens : List Nat} {m : Nat}

/-- A complete array is accepted (R124). -/
theorem requireKraft_of_ok (h : kraftCheck lens m = .ok) (s : State) : requireKraft lens m s = .ok () s := by
  rw [requireKraft, h]
  rfl

/-- Any other array is rejected (R124, with `P_STRICT_KRAFT` true). -/
theorem requireKraft_of_ne_ok (h : kraftCheck lens m ≠ .ok) (s : State) :
    requireKraft lens m s = .error (.trap .malformedTable) s := by
  rw [requireKraft]
  cases hk : kraftCheck lens m
  case ok => exact absurd hk h
  all_goals rfl

end kraft

/-! ### DYN.CLLEN -/

/-- `CL_LEN` after the values were written to the given symbols, in order, as long as both last. -/
def setClLens : (syms values : List Nat) → List (BitVec 3) → List (BitVec 3)
  | sym :: syms, v :: values, l => setClLens syms values (l.set sym (BitVec.ofNat 3 v))
  | _, _, l => l

section setClLens
variable {syms values : List Nat} {l : List (BitVec 3)}

theorem length_setClLens : (setClLens syms values l).length = l.length := by
  induction syms generalizing values l with
  | nil => rfl
  | cons sym syms ih =>
    cases values with
    | nil => rfl
    | cons v values => rw [setClLens, ih, List.length_set]

/-- Symbols past the last value are not written. -/
theorem setClLens_take {n : Nat} (h : values.length ≤ n) :
    setClLens (syms.take n) values l = setClLens syms values l := by
  induction syms generalizing values l n with
  | nil => simp
  | cons sym syms ih =>
    cases values with
    | nil => cases n <;> rfl
    | cons v values =>
      cases n with
      | zero => exact absurd h (Nat.not_succ_le_zero _)
      | succ n => exact ih (Nat.le_of_succ_le_succ h)

/-- Entry by entry: a symbol holds the value at its place in the order, if there is one. -/
theorem getD_setClLens (hnodup : syms.Nodup) (hlen : values.length ≤ syms.length) {x : Nat} (hx : x < l.length) :
    (setClLens syms values l).getD x 0 =
      if syms.idxOf x < values.length then BitVec.ofNat 3 (values.getD (syms.idxOf x) 0) else l.getD x 0 := by
  induction syms generalizing values l with
  | nil => simp_all [setClLens]
  | cons sym syms ih =>
    cases values with
    | nil => simp [setClLens]
    | cons v values =>
      obtain ⟨hsym, hrest⟩ := List.nodup_cons.1 hnodup
      have hlen' : values.length ≤ syms.length := Nat.le_of_succ_le_succ hlen
      rw [setClLens, ih hrest hlen' (by rwa [List.length_set])]
      by_cases heq : sym = x
      · subst heq
        have hnot : ¬ syms.idxOf sym < values.length := by
          rw [List.idxOf_eq_length hsym]
          omega
        simp [hnot, hx]
      · simp [List.idxOf_cons_ne _ heq, heq]

/-- With the other entries 0, these are the entries of R142. -/
theorem setClLens_clOrder (h : values.length ≤ 19) :
    setClLens clOrder values (List.replicate Config.nCL 0) = clArray values := by
  refine List.ext_getElem (by simp [length_setClLens, clArray]) fun x hx _ => ?_
  rw [length_setClLens] at hx
  have hentry := getD_setClLens (syms := clOrder) (values := values) (by decide) h hx
  rw [List.getD_eq_getElem _ _ (by rwa [length_setClLens])] at hentry
  rw [hentry]
  simp only [clArray, List.getElem_map, List.getElem_range]
  split
  · rfl
  · next hnot =>
    rw [List.getD_eq_default _ _ (Nat.not_lt.1 hnot)]
    simp

end setClLens

/-- `s` with the cursor moved on and `CL_LEN` written. -/
def withClLens (k : Nat) (cl : List (BitVec 3)) (s : State) : State := { cursorTo k s with clLen := cl }

/-- The reads of DYN.CLLEN, as far as the stream holds values for them; then the rest of them (R142). -/
theorem readClLens_of_streamHolds {syms values : List Nat} {s : State} (hlen : values.length ≤ syms.length)
    (hv : ∀ v ∈ values, v < 8) (hs : StreamHolds s (values.flatMap fun v => bitsLsb v 3)) :
    readClLens syms s = readClLens (syms.drop values.length)
      (withClLens (linPos s + 3 * values.length) (setClLens syms values s.clLen) s) := by
  induction values generalizing syms s with
  | nil =>
    have hself : setClLens syms [] s.clLen = s.clLen := by cases syms <;> rfl
    rw [withClLens, hself, List.length_nil, List.drop_zero, Nat.mul_zero, Nat.add_zero, cursorTo_linPos]
  | cons v values ih =>
    obtain ⟨sym, syms, rfl⟩ := List.exists_cons_of_length_pos (Nat.lt_of_lt_of_le (Nat.succ_pos _) hlen)
    obtain ⟨hfirst, hrest⟩ := List.forall_mem_cons.1 hv
    rw [List.flatMap_cons] at hs
    have hread := readBits_of_streamHolds (streamHolds_left hs) hfirst
    have hle := streamHolds_le (streamHolds_left hs)
    have hnext := streamHolds_right hs
    rw [length_bitsLsb] at hle hnext
    calc readClLens (sym :: syms) s
        = readClLens syms (withClLens (linPos s + 3) (s.clLen.set sym (BitVec.ofNat 3 v)) s) := by
          simp only [readClLens, bind_apply, hread, update_apply]
          rfl
      _ = _ := ih (Nat.le_of_succ_le_succ hlen) hrest ((streamHolds_congr rfl rfl rfl rfl).2 hnext)
      _ = _ := by
          have hpos : linPos (withClLens (linPos s + 3) (s.clLen.set sym (BitVec.ofNat 3 v)) s) = linPos s + 3 :=
            linPos_cursorTo s _ hle
          rw [hpos, List.length_cons, Nat.mul_succ, Nat.add_assoc, Nat.add_comm 3]
          rfl

/-- DYN.CLLEN from the reads on. -/
def readClCode (syms : List Nat) : Op Unit := do
  readClLens syms
  let t ← getState
  requireKraft (lensOf t.clLen) Config.maxBitsCL
  update fun s => { s with idx := 0 }
  update (setPhase .dynLens)

theorem exec_dynCllen (s : State) : exec .dynCllen s =
    finish (readClCode (clOrder.take s.hclen.toNat)) { s with clLen := List.replicate Config.nCL 0 } := rfl

section cllen
variable {s : State} {values : List Nat}

/-- DYN.CLLEN after the reads that the stream holds values for. -/
theorem readClCode_of_streamHolds (hmax : s.hclen.toNat ≤ 19) (hlen : values.length ≤ s.hclen.toNat)
    (hv : ∀ v ∈ values, v < 8) (hs : StreamHolds s (values.flatMap fun v => bitsLsb v 3)) :
    readClCode (clOrder.take s.hclen.toNat) { s with clLen := List.replicate Config.nCL 0 } =
      readClCode ((clOrder.take s.hclen.toNat).drop values.length)
        (withClLens (linPos s + 3 * values.length) (clArray values) s) := by
  have hcount : values.length ≤ (clOrder.take s.hclen.toNat).length := by
    rw [List.length_take]
    exact Nat.le_min.2 ⟨hlen, hlen.trans hmax⟩
  have hread := readClLens_of_streamHolds (s := { s with clLen := List.replicate Config.nCL 0 }) hcount hv hs
  rw [setClLens_take hlen, setClLens_clOrder (hlen.trans hmax)] at hread
  simp only [readClCode, bind_apply, hread]
  rfl

/-- The next read raises when too little is left. -/
theorem readClCode_of_lt {syms : List Nat} (hsyms : syms ≠ []) (h : 8 * s.inLen.toNat < linPos s + 3) :
    readClCode syms s = .error (.trap .unexpectedEof) s := by
  cases syms with
  | nil => exact absurd rfl hsyms
  | cons sym syms => simp only [readClCode, readClLens, bind_apply, readBits_of_lt h]

/-- When all is read a complete array is accepted and any other rejected. -/
theorem readClCode_nil (s : State) :
    readClCode [] s = if kraftCheck (lensOf s.clLen) Config.maxBitsCL = .ok then
      .ok () { s with idx := 0, phase := .dynLens } else .error (.trap .malformedTable) s := by
  split
  · next hok =>
    simp only [readClCode, readClLens, bind_apply, pure_apply, getState_apply, requireKraft_of_ok hok, update_apply]
    rfl
  · next hbad =>
    simp only [readClCode, readClLens, bind_apply, pure_apply, getState_apply, requireKraft_of_ne_ok hbad]

end cllen

/-- Settles O32: the reads one after another, the next of which raises when too little is left, and then the test. -/
theorem dynCllenResult : Obligations.DynCllenResult := by
  unfold Obligations.DynCllenResult
  intro s hmax values hv hs
  rw [exec_dynCllen]
  refine ⟨fun hlt hend => finish_trap ((readClCode_of_streamHolds hmax hlt.le hv hs).trans (readClCode_of_lt ?_ ?_)),
    fun heq => ?_⟩
  · rw [Ne, List.drop_eq_nil_iff, List.length_take, Nat.not_le]
    exact Nat.lt_min.2 ⟨hlt, hlt.trans_le hmax⟩
  · have hpos : linPos (withClLens (linPos s + 3 * values.length) (clArray values) s) = linPos s + 3 * values.length :=
      linPos_cursorTo s _ (by simpa [Nat.mul_comm] using streamHolds_le hs)
    rwa [hpos]
  · have hread := readClCode_of_streamHolds hmax heq.le hv hs
    have hdone : (clOrder.take s.hclen.toNat).drop values.length = [] :=
      List.drop_eq_nil_of_le (heq ▸ List.length_take_le _ _)
    rw [hdone, readClCode_nil, heq] at hread
    exact ⟨fun hok => finish_ok (hread.trans (if_pos hok)), fun hbad => finish_trap (hread.trans (if_neg hbad))⟩

/-! ### DYN.BUILD -/

/-- DYN.BUILD when both arrays are written: the literal/length array is tested first. -/
def testBuilt : Op Unit := do
  let t ← getState
  requireKraft (lensOf t.llLen) Config.maxBitsLL
  requireKraft (lensOf t.dLen) Config.maxBitsD
  update (setPhase .sym)

theorem exec_dynBuild (s : State) :
    exec .dynBuild s = finish testBuilt { s with llLen := builtLL s, dLen := builtDist s } := rfl

theorem testBuilt_apply (s : State) :
    testBuilt s =
      if kraftCheck (lensOf s.llLen) Config.maxBitsLL = .ok ∧ kraftCheck (lensOf s.dLen) Config.maxBitsD = .ok then
        .ok () (setPhase .sym s)
      else .error (.trap .malformedTable) s := by
  by_cases hll : kraftCheck (lensOf s.llLen) Config.maxBitsLL = .ok
  · by_cases hdist : kraftCheck (lensOf s.dLen) Config.maxBitsD = .ok
    · rw [if_pos ⟨hll, hdist⟩]
      simp only [testBuilt, bind_apply, getState_apply, requireKraft_of_ok hll, requireKraft_of_ok hdist, update_apply]
    · rw [if_neg fun h => hdist h.2]
      simp only [testBuilt, bind_apply, getState_apply, requireKraft_of_ok hll, requireKraft_of_ne_ok hdist]
  · rw [if_neg fun h => hll h.1]
    simp only [testBuilt, bind_apply, getState_apply, requireKraft_of_ne_ok hll]

/-- Settles O36: the model's own two arrays, and the test on both. -/
theorem dynBuildResult : Obligations.DynBuildResult := by
  unfold Obligations.DynBuildResult
  intro s
  rw [exec_dynBuild]
  refine ⟨builtLL s, builtDist s, ⟨by simp [builtLL], fun sym hsym => by simp [builtLL, hsym]⟩,
    ⟨by simp [builtDist], fun sym hsym => by simp [builtDist, hsym]⟩, fun hll hdist => ?_, fun hbad => ?_⟩
  · exact finish_ok ((testBuilt_apply _).trans (if_pos ⟨hll, hdist⟩))
  · exact finish_trap ((testBuilt_apply _).trans (if_neg fun ⟨hll, hdist⟩ => hbad.elim (· hll) (· hdist)))

end Sys2Proof.Machine
end

section
/-! PROOFS. What the dynamic table reader leaves unchanged (spec/42_dynamic_tables.md R140 to R148): an instruction
keeps the state in which the fields it may write are erased. -/

namespace Sys2Proof.Machine

/-! ### States that agree but for some fields -/

/-- The two states are the same once the fields that `erase` overwrites are erased. -/
def SameBut (erase : State → State) (s t : State) : Prop := erase t = erase s

/-- However the operation ends, it has written no other field. -/
def WritesOnly {α : Type} (erase : State → State) (op : Op α) : Prop := Keeps (SameBut erase) op

section writes
variable {α β : Type} {erase : State → State} {s t : State}

theorem SameBut.refl (s : State) : SameBut erase s s := rfl

theorem SameBut.trans (s t u : State) (h1 : SameBut erase s t) (h2 : SameBut erase t u) : SameBut erase s u :=
  Eq.trans h2 h1

protected theorem WritesOnly.bind {x : Op α} {f : α → Op β} (hx : WritesOnly erase x)
    (hf : ∀ a, WritesOnly erase (f a)) : WritesOnly erase (x >>= f) := keeps_bind SameBut.trans hx hf

protected theorem WritesOnly.getState : WritesOnly erase getState := keeps_getState SameBut.refl

protected theorem WritesOnly.require (c : Bool) (e : Trap) : WritesOnly erase (require c e) :=
  keeps_require SameBut.refl c e

protected theorem WritesOnly.update {f : State → State} (h : ∀ s, SameBut erase s (f s) := by exact fun _ => rfl) :
    WritesOnly erase (update f) := keeps_update h

protected theorem WritesOnly.readBits (n : Nat) (h : ∀ k s, SameBut erase s (cursorTo k s) := by exact fun _ _ => rfl) :
    WritesOnly erase (readBits n) := keeps_readBits SameBut.refl n fun s _ => h _ s

/-- A step made of such an operation; a trap writes `PHASE` and `ERR` (R251). -/
theorem sameBut_of_finish {op : Op Unit} (hop : WritesOnly erase op) (h : finish op s = .next t)
    (htrap : ∀ e s, SameBut erase s (takeTrap e s) := by exact fun _ _ => rfl) : SameBut erase s t :=
  finish_keeps SameBut.trans htrap hop h

/-- Where the erased fields are none of the memories', every byte reads as before. -/
theorem bytes_of_sameBut (h : SameBut erase s t)
    (hview : ∀ s, memoryView (erase s) = memoryView s := by exact fun _ => rfl) :
    (∀ a, inByte t a = inByte s a) ∧ ∀ a, outByte t a = outByte s a := by
  have hsame : SameMemory s t := by rw [SameMemory, ← hview t, h, hview s]
  obtain ⟨hin, -, -, hout, -, hepoch, -⟩ := sameMemory_iff.1 hsame
  exact ⟨inByte_congr hin, outByte_congr hout hepoch⟩

end writes

/-! ### The fields each instruction may write -/

/-- Without `PHASE` and `ERR`. -/
def eraseStatus (s : State) : State := { s with phase := .idle, err := 0 }

/-- Without these and the cursor. -/
def eraseCursor (s : State) : State := { eraseStatus s with bytePos := 0, bitOff := 0 }

/-- Without what DYN.COUNTS may write (R141). -/
def eraseCounts (s : State) : State := { eraseCursor s with hlit := 0, hdist := 0, hclen := 0 }

/-- Without what DYN.CLLEN may write (R142). -/
def eraseClLens (s : State) : State := { eraseCursor s with clLen := [], idx := 0 }

/-- Without what the runs may write (R145 to R147). -/
def eraseFlat (s : State) : State := { eraseCursor s with flat := [], idx := 0 }

/-- Without what DYN.BUILD may write (R148). -/
def eraseBuilt (s : State) : State := { eraseStatus s with llLen := [], dLen := [] }

theorem writesOnly_zeroRun (base n : Nat) : WritesOnly eraseFlat (zeroRun base n) :=
  .bind (.readBits n) fun _ => .bind .getState fun _ => .bind (.require _ _) fun _ => .update

section instructions
variable {s t : State}

theorem dynCounts_sameBut (h : exec .dynCounts s = .next t) : SameBut eraseCounts s t := by
  refine sameBut_of_finish (op := _) ?_ h
  exact .bind (.readBits 5) fun _ => .bind .update fun _ => .bind (.readBits 5) fun _ => .bind .update fun _ =>
    .bind (.readBits 4) fun _ => .bind .update fun _ => .bind .getState fun _ => .bind (.require _ _) fun _ =>
    .bind (.require _ _) fun _ => .update

theorem dynCllen_sameBut (h : exec .dynCllen s = .next t) : SameBut eraseClLens s t := by
  have hreads : ∀ l, WritesOnly eraseClLens (readClLens l) :=
    keeps_readClLens SameBut.refl SameBut.trans (fun _ _ => rfl) fun _ _ _ => rfl
  refine sameBut_of_finish (op := _) ?_ h
  exact .bind .update fun _ => .bind (hreads _) fun _ => .bind .getState fun _ => .bind (.require _ _) fun _ =>
    .bind .update fun _ => .update

theorem run_sameBut {i : Instr} (hi : i ∈ [.clRep16, .clZrep17, .clZrep18]) (h : exec i s = .next t) :
    SameBut eraseFlat s t := by
  simp only [List.mem_cons, List.not_mem_nil, or_false] at hi
  rcases hi with rfl | rfl | rfl <;> refine sameBut_of_finish (op := _) ?_ h
  · exact .bind (.readBits 2) fun _ => .bind .getState fun _ => .bind (.require _ _) fun _ =>
      .bind (.require _ _) fun _ => .update
  · exact writesOnly_zeroRun 3 3
  · exact writesOnly_zeroRun 11 7

theorem dynBuild_sameBut (h : exec .dynBuild s = .next t) : SameBut eraseBuilt s t := by
  refine sameBut_of_finish (op := _) ?_ h
  exact .bind .update fun _ => .bind .update fun _ => .bind .getState fun _ => .bind (.require _ _) fun _ =>
    .bind (.require _ _) fun _ => .update

end instructions

/-- Settles O37: what is left after erasing the written fields is the same, and the memories are part of it. -/
theorem dynamicTableFrame : Obligations.DynamicTableFrame := by
  unfold Obligations.DynamicTableFrame
  intro i s t h
  refine ⟨?_, ?_, fun hi => ?_, fun hi => ?_, ?_⟩
  · rintro rfl
    have hsame := dynCounts_sameBut h
    exact ⟨congrArg (fun u => { u with
      phase := t.phase, err := t.err, bytePos := t.bytePos, bitOff := t.bitOff, hlit := t.hlit,
      hdist := t.hdist, hclen := t.hclen })
      hsame, bytes_of_sameBut hsame⟩
  · rintro rfl
    have hsame := dynCllen_sameBut h
    exact ⟨congrArg (fun u => { u with
      phase := t.phase, err := t.err, bytePos := t.bytePos, bitOff := t.bitOff, clLen := t.clLen, idx := t.idx })
      hsame, bytes_of_sameBut hsame⟩
  · obtain ⟨v, hv⟩ := exec_of_codeLengthRow hi s
    obtain rfl : appendFlat v 1 s = t := Host.Outcome.next.inj (hv.symm.trans h)
    exact ⟨rfl, fun _ => rfl, fun _ => rfl⟩
  · have hsame := run_sameBut hi h
    exact ⟨congrArg (fun u => { u with
      phase := t.phase, err := t.err, bytePos := t.bytePos, bitOff := t.bitOff, flat := t.flat, idx := t.idx })
      hsame, bytes_of_sameBut hsame⟩
  · rintro rfl
    have hsame := dynBuild_sameBut h
    exact ⟨congrArg (fun u => { u with
      phase := t.phase, err := t.err, llLen := t.llLen, dLen := t.dLen })
      hsame, bytes_of_sameBut hsame⟩

end Sys2Proof.Machine
end

section
/-! PROOFS. A step runs the fetched instruction (spec/44_inflate_engine.md R189, R143). -/

namespace Sys2Proof.Machine

section step
variable {s t : State}

/-- A fetch that raises is a trap (R251). -/
theorem coreStep_of_fetch_trap {e : Trap} (h : fetch s = .error (.trap e) t) : coreStep s = .next (takeTrap e t) := by
  rw [coreStep, h]

/-- With the flat array full the fetch of DYN_LENS reads nothing and answers no instruction (R143). -/
theorem fetch_of_flat_full (hp : s.phase = .dynLens) (hfull : s.idx.toNat = flatTotal s) : fetch s = .ok none s := by
  rw [fetch_of_dynLens hp]
  simp only [fetchClSymbol, bind_apply, getState_apply, hfull, if_true, pure_apply]

theorem coreStep_of_fetch_none (h : fetch s = .ok none t) : coreStep s = .next (setPhase .dynBuild t) := by
  rw [coreStep, h]

/-- A `wait` of the host while BUSY lets the core step (log 2). -/
theorem step_of_wait {rest : List HostMove} (hp : s.pending = .wait :: rest) (hb : s.busy = true) :
    step s = coreStep { s with pending := rest } := by
  simp [step, systemStep, hp, hostActs, hb]

end step

/-- Settles O43: with nothing pending the step is the core's, by what its fetch answers. -/
theorem stepRunsTheFetchedInstruction : Obligations.StepRunsTheFetchedInstruction := by
  unfold Obligations.StepRunsTheFetchedInstruction
  intro s
  refine ⟨fun hp => ?_, fun rest => step_of_wait⟩
  rw [step_of_pending_nil hp]
  exact ⟨fun i t => coreStep_of_fetch, fun e t => coreStep_of_fetch_trap,
    fun hphase hfull => coreStep_of_fetch_none (fetch_of_flat_full hphase hfull)⟩

end Sys2Proof.Machine
end

section
/-! PROOFS. The block types, the stored block and the symbols that write no match (spec/43_block_decoder.md R161 to
R176): every outcome of each instruction. -/

namespace Sys2Proof.Machine

/-! ### Block headers -/

/-- Settles O21: each of the four is one write of registers, the last followed by its trap. -/
theorem blockTypesDispatch : Obligations.BlockTypesDispatch := by
  unfold Obligations.BlockTypesDispatch
  exact fun bfinal s => ⟨rfl, rfl, rfl, rfl⟩

section header
variable {s : State} {bfinal : BitVec 1}

/-- No bit left for `BFINAL` (R161). -/
theorem fetchBlockHeader_of_lt (h : 8 * s.inLen.toNat < linPos s + 1) :
    fetchBlockHeader s = .error (.trap .unexpectedEof) s := by
  simp only [fetchBlockHeader, bind_apply, readBits_of_lt h]

/-- `BFINAL` is there, and stands written, but `BTYPE` is not (R161). -/
theorem fetchBlockHeader_of_bfinal_only (hs : StreamHolds s (bitsLsb bfinal.toNat 1))
    (h : 8 * s.inLen.toNat < linPos s + 3) :
    fetchBlockHeader s = .error (.trap .unexpectedEof) { cursorTo (linPos s + 1) s with bfinal := bfinal } := by
  have hsecond : readBits 2 { cursorTo (linPos s + 1) s with bfinal := bfinal } =
      .error (.trap .unexpectedEof) { cursorTo (linPos s + 1) s with bfinal := bfinal } :=
    readBits_at_end (m := 1) rfl rfl (streamHolds_le hs) h
  simp only [fetchBlockHeader, bind_apply, readBits_of_streamHolds hs bfinal.isLt, update_apply, BitVec.ofNat_toNat,
    BitVec.setWidth_eq, hsecond]

variable (hp : s.pending = []) (hphase : s.phase = .blkHdr)
include hp hphase

theorem step_of_fetchBlockHeader_trap {e : Trap} {t : State} (h : fetchBlockHeader s = .error (.trap e) t) :
    step s = .next (takeTrap e t) := by
  rw [step_of_pending_nil hp]
  exact coreStep_of_fetch_trap ((fetch_of_blkHdr hphase).trans h)

/-- With its three bits in the stream the step is the block type's instruction (R161). -/
theorem step_of_blockHeader {btype : BitVec 2} (hs : StreamHolds s (bitsLsb bfinal.toNat 1 ++ bitsLsb btype.toNat 2)) :
    step s = exec (decodeBtype bfinal btype) { cursorTo (linPos s + 3) s with bfinal := bfinal } := by
  rw [step_of_pending_nil hp]
  exact coreStep_of_fetch ((fetch_of_blkHdr hphase).trans (fetchBlockHeader_of_streamHolds rfl hs))

end header

/-- Settles O22: the fetch raises at its first or its second read, or the type's instruction runs. -/
theorem blockHeaderStep : Obligations.BlockHeaderStep := by
  unfold Obligations.BlockHeaderStep
  intro s hp hphase
  refine ⟨fun h => step_of_fetchBlockHeader_trap hp hphase (fetchBlockHeader_of_lt h), fun bfinal hfirst =>
    ⟨fun h => step_of_fetchBlockHeader_trap hp hphase (fetchBlockHeader_of_bfinal_only hfirst h), fun btype hs => ?_⟩⟩
  have hstep := step_of_blockHeader hp hphase hs
  obtain ⟨hstored, hfixed, hdynamic, hreserved⟩ :=
    blockTypesDispatch bfinal { cursorTo (linPos s + 3) s with bfinal := bfinal }
  refine ⟨?_, ?_, ?_, ?_⟩ <;> rintro rfl
  · exact hstep.trans hstored
  · exact hstep.trans hfixed
  · exact hstep.trans hdynamic
  · exact hstep.trans hreserved

/-! ### STORED.LEN -/

/-- The state with the cursor at a byte boundary. -/
def atByte (a : Nat) (s : State) : State := { s with bitOff := 0, bytePos := BitVec.ofNat 32 a }

section atByte
variable {s : State} {a k : Nat}

theorem bytePos_atByte (h : a ≤ s.inLen.toNat) : (atByte a s).bytePos.toNat = a :=
  Nat.mod_eq_of_lt (h.trans_lt s.inLen.isLt)

theorem readBytesLe_atByte (h : a + k ≤ s.inLen.toNat) :
    readBytesLe k (atByte a s) = .ok (inLe s a k) (atByte (a + k) s) := by
  have hpos := bytePos_atByte (Nat.le_of_add_right_le h)
  rw [readBytesLe_of_le (by rw [hpos]; exact h), hpos, inLe_congr (s := s) (t := atByte a s) rfl]
  rfl

theorem readBytesLe_atByte_end (ha : a ≤ s.inLen.toNat) (h : s.inLen.toNat < a + k) :
    readBytesLe k (atByte a s) = .error (.trap .unexpectedEof) (atByte a s) :=
  readBytesLe_of_lt (by rw [bytePos_atByte ha]; exact h)

theorem alignToByte_eq_atByte (s : State) : alignToByte s = .ok () (atByte (alignedPos s) s) := alignToByte_eq s

end atByte

/-- The complement test of R18, as naturals. -/
theorem toNat_eq_xor_iff (v w : BitVec 16) : v.toNat = w.toNat ^^^ 0xFFFF ↔ v = ~~~w := by
  rw [← BitVec.xor_allOnes, ← BitVec.toNat_inj, BitVec.toNat_xor]
  rfl

section storedLen
variable {s : State}

/-- `LEN` is not there (R166). -/
theorem exec_storedLen_of_lt (hc : CursorOk s) (h : s.inLen.toNat < alignedPos s + 2) :
    exec .storedLen s = .next (takeTrap .unexpectedEof (atByte (alignedPos s) s)) := by
  refine finish_trap ?_
  simp only [bind_apply, alignToByte_eq_atByte, readBytesLe_atByte_end (alignedPos_le hc) h]

/-- `LEN` is there, but `NLEN` is not (R166). -/
theorem exec_storedLen_of_len_only (hle : alignedPos s + 2 ≤ s.inLen.toNat) (h : s.inLen.toNat < alignedPos s + 4) :
    exec .storedLen s = .next (takeTrap .unexpectedEof (atByte (alignedPos s + 2) s)) := by
  have hnlen : readBytesLe 2 (atByte (alignedPos s + 2) s) = .error _ _ := readBytesLe_atByte_end hle h
  refine finish_trap ?_
  simp only [bind_apply, alignToByte_eq_atByte, readBytesLe_atByte hle, hnlen]

/-- Both fields are there: `NLEN` decides (R166). -/
theorem exec_storedLen_of_le (h : alignedPos s + 4 ≤ s.inLen.toNat) :
    exec .storedLen s = .next
      (if le16 s (alignedPos s + 2) = ~~~le16 s (alignedPos s) then
        { atByte (alignedPos s + 4) s with sRem := le16 s (alignedPos s), phase := .storedCopy }
      else takeTrap .lengthMismatch (atByte (alignedPos s + 4) s)) := by
  have hlen : readBytesLe 2 (atByte (alignedPos s) s) = .ok _ (atByte (alignedPos s + 2) s) :=
    readBytesLe_atByte (by omega)
  have hnlen : readBytesLe 2 (atByte (alignedPos s + 2) s) = .ok _ (atByte (alignedPos s + 4) s) :=
    readBytesLe_atByte h
  split_ifs with heq
  · refine finish_ok ?_
    simp only [bind_apply, alignToByte_eq_atByte, hlen, hnlen, inLe_two, toNat_eq_xor_iff, heq, decide_true,
      require_true, update_apply, BitVec.ofNat_toNat, BitVec.setWidth_eq]
    rfl
  · refine finish_trap ?_
    simp only [bind_apply, alignToByte_eq_atByte, hlen, hnlen, inLe_two, toNat_eq_xor_iff, heq, decide_false,
      require_false]

end storedLen

/-- Settles O23: by how many bytes are left after the alignment, and then by the complement test. -/
theorem storedLenResult : Obligations.StoredLenResult := by
  unfold Obligations.StoredLenResult
  intro s hc
  refine ⟨exec_storedLen_of_lt hc, exec_storedLen_of_len_only, fun h => ⟨fun hne => ?_, fun heq => ?_⟩⟩
  · rw [exec_storedLen_of_le h, if_neg hne]
    rfl
  · rw [exec_storedLen_of_le h, if_pos heq]
    rfl

/-! ### STORED.BYTE -/

/-- The state after STORED.BYTE has copied a byte (R167). -/
def storedByteCopied (s : State) : State :=
  { s with
    bytePos := s.bytePos + 1, sRem := s.sRem - 1, outPos := s.outPos + 1,
    outMem := memWrite s.outMem s.outPos.toNat (inByte s s.bytePos.toNat),
    crc := crcUpdate s.crc (inByte s s.bytePos.toNat) }

section storedByte
variable {s : State}

theorem readBytesLe_one (h : s.bytePos.toNat + 1 ≤ s.inLen.toNat) :
    readBytesLe 1 s = .ok (inByte s s.bytePos.toNat).toNat { s with bytePos := s.bytePos + 1 } := by
  rw [readBytesLe_of_le h, inLe_one, ofNat_toNat_add]
  rfl

theorem exec_storedByte_of_done (h : s.sRem = 0) : exec .storedByte s = .next (setPhase (blockEndPhase s) s) :=
  finish_ok (by rw [if_pos h]; rfl)

theorem exec_storedByte_of_lt (hr : s.sRem ≠ 0) (h : s.inLen.toNat < s.bytePos.toNat + 1) :
    exec .storedByte s = .next (takeTrap .unexpectedEof s) := by
  refine finish_trap ?_
  rw [if_neg hr, bind_apply, readBytesLe_of_lt h]

/-- A full output is found after the input byte was consumed (R167). -/
theorem exec_storedByte_of_full (hr : s.sRem ≠ 0) (h : s.bytePos.toNat + 1 ≤ s.inLen.toNat) (ho : s.outPos = s.outCap) :
    exec .storedByte s = .next (takeTrap .outputOverflow { s with bytePos := s.bytePos + 1 }) := by
  have hemit : ∀ b, emit b { s with bytePos := s.bytePos + 1 } = .error _ _ := fun _ => emit_of_full ho
  refine finish_trap ?_
  rw [if_neg hr]
  simp only [bind_apply, readBytesLe_one h, hemit]

theorem exec_storedByte_of_room (hr : s.sRem ≠ 0) (h : s.bytePos.toNat + 1 ≤ s.inLen.toNat)
    (ho : s.outPos.toNat < s.outCap.toNat) : exec .storedByte s = .next (storedByteCopied s) := by
  have hemit : emit (inByte s s.bytePos.toNat) { s with bytePos := s.bytePos + 1 } = .ok () _ := emit_of_lt ho
  refine finish_ok ?_
  rw [if_neg hr]
  simp only [bind_apply, readBytesLe_one h, BitVec.ofNat_toNat, BitVec.setWidth_eq, hemit]
  rfl

end storedByte

/-- Settles O24: the branches of the rule, in its order. -/
theorem storedByteResult : Obligations.StoredByteResult := by
  unfold Obligations.StoredByteResult
  exact fun s _ => ⟨exec_storedByte_of_done, fun hr => ⟨exec_storedByte_of_lt hr, fun h =>
    ⟨exec_storedByte_of_full hr h, exec_storedByte_of_room hr h⟩⟩⟩

/-! ### The whole stored block -/

/-- From `s` to `t` the next `n` input bytes are appended to the output, and the block ends (R160, R167). -/
structure BlockCopied (n : Nat) (s t : State) : Prop where
  phase : t.phase = blockEndPhase s
  sRem : t.sRem = 0
  bitOff : t.bitOff = 0
  bytePos : t.bytePos.toNat = s.bytePos.toNat + n
  outPos : t.outPos.toNat = s.outPos.toNat + n
  copied : outBytes t s.outPos.toNat n = inBytes s s.bytePos.toNat n
  kept : ∀ a, a < s.outPos.toNat ∨ s.outPos.toNat + n ≤ a → outByte t a = outByte s a

section block
variable {s t : State} {n : Nat}

theorem blockCopied_of_done (h0 : s.bitOff = 0) (h : s.sRem = 0) : BlockCopied 0 s (setPhase (blockEndPhase s) s) :=
  ⟨rfl, h, h0, rfl, rfl, rfl, fun _ _ => rfl⟩

/-- A byte is read at the place it was written to, and every other one as before (R69). -/
theorem outByte_storedByteCopied (s : State) (a : Nat) :
    outByte (storedByteCopied s) a = if a = s.outPos.toNat then inByte s s.bytePos.toNat else outByte s a :=
  outByte_emitted (inByte s s.bytePos.toNat) s a

/-- The counters after one byte, as numbers: none wraps (R17). -/
theorem counters_storedByteCopied (hr : s.sRem.toNat = n + 1) (hin : s.bytePos.toNat < s.inLen.toNat)
    (hout : s.outPos.toNat < s.outCap.toNat) :
    (storedByteCopied s).sRem.toNat = n ∧ (storedByteCopied s).bytePos.toNat = s.bytePos.toNat + 1 ∧
      (storedByteCopied s).outPos.toNat = s.outPos.toNat + 1 := by
  have := s.inLen.isLt
  have := s.outCap.isLt
  simp only [storedByteCopied]
  refine ⟨?_, ?_, ?_⟩ <;> bv_omega

/-- One byte and the rest of the block. -/
theorem blockCopied_succ (hin : (storedByteCopied s).bytePos.toNat = s.bytePos.toNat + 1)
    (hout : (storedByteCopied s).outPos.toNat = s.outPos.toNat + 1) (h : BlockCopied n (storedByteCopied s) t) :
    BlockCopied (n + 1) s t where
  phase := h.phase
  sRem := h.sRem
  bitOff := h.bitOff
  bytePos := by rw [h.bytePos, hin]; omega
  outPos := by rw [h.outPos, hout]; omega
  copied := by
    have hrest := h.copied
    rw [hin, hout, inBytes_congr (s := s) (t := storedByteCopied s) rfl] at hrest
    rw [outBytes, inBytes, hrest, h.kept _ (.inl (by omega)), outByte_storedByteCopied, if_pos rfl]
  kept a ha := by
    rw [h.kept a (by omega), outByte_storedByteCopied, if_neg (by omega)]

theorem step_of_storedCopy (hp : s.pending = []) (hphase : s.phase = .storedCopy) : step s = exec .storedByte s := by
  rw [step_of_pending_nil hp]
  exact coreStep_of_fetch (fetch_byPhase (by rw [hphase]; rfl))

/-- By induction on the bytes that are left. -/
theorem run_storedBlock (hp : s.pending = []) (hphase : s.phase = .storedCopy) (hr : s.sRem.toNat = n)
    (hleft : BytesLeft s n) (hroom : s.outPos.toNat + n ≤ s.outCap.toNat) :
    ∃ t, Host.Core.run core (n + 1) s = .next t ∧ BlockCopied n s t := by
  obtain ⟨h0, hin⟩ := hleft
  have hstep := step_of_storedCopy hp hphase
  induction n generalizing s with
  | zero =>
    have hr0 : s.sRem = 0 := BitVec.eq_of_toNat_eq hr
    exact ⟨_, run_succ (hstep.trans (exec_storedByte_of_done hr0)) 0, blockCopied_of_done h0 hr0⟩
  | succ n ih =>
    have hne : s.sRem ≠ 0 := fun h => by simp [h] at hr
    obtain ⟨hrem, hpos, hlen⟩ := counters_storedByteCopied hr (by omega) (by omega)
    obtain ⟨t, hrun, ht⟩ := ih (s := storedByteCopied s) hp hphase hrem
      (by rw [hlen]; change _ ≤ s.outCap.toNat; omega) h0 (by rw [hpos]; change _ ≤ s.inLen.toNat; omega)
      (step_of_storedCopy (s := storedByteCopied s) hp hphase)
    exact ⟨t, (run_succ (hstep.trans (exec_storedByte_of_room hne (by omega) (by omega))) _).trans hrun,
      blockCopied_succ hpos hlen ht⟩

end block

/-- Settles O25: the block's run, its outcome taken apart. -/
theorem storedBlockCopiesItsBytes : Obligations.StoredBlockCopiesItsBytes := by
  unfold Obligations.StoredBlockCopiesItsBytes
  intro s hp hphase hleft hroom
  obtain ⟨t, hrun, ht⟩ := run_storedBlock hp hphase rfl hleft hroom
  exact ⟨t, hrun, ht.phase, ht.sRem, ht.bitOff, ht.bytePos, ht.outPos, ht.copied, ht.kept⟩

/-! ### LIT, EOB and the reserved symbols -/

/-- Settles O26: LIT is `emit`, and EOB is `block_end()`. -/
theorem literalAndEndOfBlockResult : Obligations.LiteralAndEndOfBlockResult := by
  unfold Obligations.LiteralAndEndOfBlockResult
  refine ⟨fun value s => ⟨fun h => finish_trap (emit_of_full h), fun h => finish_ok (emit_of_lt h)⟩, fun s => ?_⟩
  have heob : exec .eob s = .next { s with phase := if s.bfinal = 1 then .trailer else .blkHdr } := rfl
  refine ⟨fun h => ?_, fun h => ?_⟩
  · rw [heob, if_pos h]
  · rw [heob, if_neg (by rw [h]; decide)]

/-- Settles O29: each of the four is one `raise`. -/
theorem reservedSymbolsFault : Obligations.ReservedSymbolsFault := by
  unfold Obligations.ReservedSymbolsFault
  intro i s hi
  simp only [List.mem_cons, List.not_mem_nil, or_false] at hi
  rcases hi with rfl | rfl | rfl | rfl <;> rfl

end Sys2Proof.Machine
end

section
/-! PROOFS. What blocks and symbols leave unchanged (spec/43_block_decoder.md R161 to R176; spec/44_inflate_engine.md
R183, R185). -/

namespace Sys2Proof.Machine

/-! ### The operations -/

section writes
variable {α : Type} {erase : State → State}

protected theorem WritesOnly.ite {c : Prop} [Decidable c] {x y : Op α} (hx : WritesOnly erase x)
    (hy : WritesOnly erase y) : WritesOnly erase (if c then x else y) := keeps_ite hx hy

protected theorem WritesOnly.readBytesLe (k : Nat)
    (h : ∀ b s, SameBut erase s { s with bytePos := b } := by exact fun _ _ => rfl) :
    WritesOnly erase (readBytesLe k) := keeps_readBytesLe SameBut.refl k fun s _ => h _ s

protected theorem WritesOnly.alignToByte (h : ∀ a s, SameBut erase s (atByte a s) := by exact fun _ _ => rfl) :
    WritesOnly erase alignToByte := fun s => by
  rw [alignToByte_eq_atByte]
  exact h _ s

protected theorem WritesOnly.emit (b : Byte) (h : ∀ s, SameBut erase s (emitted b s) := by exact fun _ => rfl) :
    WritesOnly erase (emit b) := keeps_emit SameBut.refl b fun s _ => h s

protected theorem WritesOnly.readWindow : WritesOnly erase readWindow := keeps_readWindow SameBut.refl

end writes

/-! ### The fields each instruction may write -/

/-- Without what a block header may write (R161). -/
def eraseBlockHeader (s : State) : State := { eraseStatus s with bfinal := 0, btype := 0 }

/-- Without what STORED.LEN may write (R166). -/
def eraseStoredLen (s : State) : State := { eraseCursor s with sRem := 0 }

/-- Without what LEN may write (R172). -/
def eraseLength (s : State) : State := { eraseCursor s with mLen := 0 }

/-- Without what DIST may write (R173). -/
def eraseDistance (s : State) : State := { eraseCursor s with mDist := 0 }

/-- Without what LIT may write (R170, R183). -/
def eraseOutput (s : State) : State := { eraseStatus s with outMem := [], outPos := 0, crc := 0 }

/-- Without what STORED.BYTE may write (R167, R183). -/
def eraseStoredByte (s : State) : State := { eraseOutput s with bytePos := 0, sRem := 0 }

/-- Without what COPY may write (R185, R183). -/
def eraseCopy (s : State) : State := { eraseOutput s with mLen := 0 }

section instructions
variable {i : Instr} {s t : State}

theorem blockHeader_sameBut {b : BitVec 1}
    (hi : i = .blkStored b ∨ i = .blkFixed b ∨ i = .blkDynamic b ∨ i = .blkReserved b) (h : exec i s = .next t) :
    SameBut eraseBlockHeader s t := by
  obtain ⟨hstored, hfixed, hdynamic, hreserved⟩ := blockTypesDispatch b s
  rcases hi with rfl | rfl | rfl | rfl
  · cases hstored.symm.trans h; rfl
  · cases hfixed.symm.trans h; rfl
  · cases hdynamic.symm.trans h; rfl
  · cases hreserved.symm.trans h; rfl

theorem storedLen_sameBut (h : exec .storedLen s = .next t) : SameBut eraseStoredLen s t := by
  refine sameBut_of_finish (op := _) ?_ h
  exact .bind .alignToByte fun _ => .bind (.readBytesLe 2) fun _ => .bind (.readBytesLe 2) fun _ =>
    .bind (.require _ _) fun _ => .bind .update fun _ => .update

theorem lengthRow_sameBut (hi : i ∈ lengthRows.map (·.1)) (h : exec i s = .next t) : SameBut eraseLength s t := by
  obtain ⟨k, hexec⟩ := exec_of_lengthRow hi s
  rw [hexec] at h
  refine sameBut_of_finish ?_ h
  exact .bind (.readBits _) fun _ => .update

theorem distanceRow_sameBut (hi : i ∈ distanceRows.map (·.1)) (h : exec i s = .next t) :
    SameBut eraseDistance s t := by
  obtain ⟨k, hexec⟩ := exec_of_distanceRow hi s
  rw [hexec] at h
  refine sameBut_of_finish ?_ h
  exact .bind (.readBits _) fun _ => .bind .getState fun _ => .bind (.require _ _) fun _ => .update

theorem lit_sameBut {v : Byte} (h : exec (.lit v) s = .next t) : SameBut eraseOutput s t :=
  sameBut_of_finish (.emit v) h

theorem storedByte_sameBut (h : exec .storedByte s = .next t) : SameBut eraseStoredByte s t := by
  refine sameBut_of_finish (op := _) ?_ h
  exact .ite .update <| .bind (.readBytesLe 1) fun _ => .bind (.emit _) fun _ => .update

theorem copy_sameBut (h : exec .copy s = .next t) : SameBut eraseCopy s t := by
  refine sameBut_of_finish (op := _) ?_ h
  exact .ite .update <| .bind .readWindow fun _ => .bind (.emit _) fun _ => .update

/-- One store at most, at `OUT:OUT_POS`: every other byte reads as before (R69, R183). -/
theorem bytes_of_storesByte (hi : storesByte i = true) (h : exec i s = .next t) :
    (∀ a, inByte t a = inByte s a) ∧ ∀ a, a ≠ s.outPos.toNat → outByte t a = outByte s a := by
  obtain hsame | ⟨-, b, hone⟩ := exec_atMostOneStore hi h
  · obtain ⟨hin, -, -, hout, -, hepoch, -⟩ := sameMemory_iff.1 hsame
    exact ⟨inByte_congr hin, fun a _ => outByte_congr hout hepoch a⟩
  · obtain ⟨hin, -, -, hout, -, hepoch, -⟩ := sameMemory_iff.1 hone
    exact ⟨inByte_congr hin, fun a ha =>
      (outByte_congr hout hepoch a).trans ((outByte_emitted b s a).trans (if_neg ha))⟩

end instructions

/-- Settles O30: what is left after erasing the written fields is the same, and the memories are part of it. -/
theorem blockAndSymbolFrame : Obligations.BlockAndSymbolFrame := by
  unfold Obligations.BlockAndSymbolFrame
  intro i s t h
  refine ⟨?_, ?_, ?_, fun hi => ?_, fun hi => ?_⟩
  · rintro ⟨b, hi⟩
    have hsame := blockHeader_sameBut hi h
    exact ⟨congrArg (fun u => { u with phase := t.phase, err := t.err, bfinal := t.bfinal, btype := t.btype }) hsame,
      bytes_of_sameBut hsame⟩
  · rintro rfl
    have hsame := storedLen_sameBut h
    exact ⟨congrArg (fun u => { u with
      phase := t.phase, err := t.err, bytePos := t.bytePos, bitOff := t.bitOff, sRem := t.sRem }) hsame,
      bytes_of_sameBut hsame⟩
  · rintro rfl
    obtain rfl : setPhase (blockEndPhase s) s = t := Host.Outcome.next.inj h
    exact ⟨rfl, fun _ => rfl, fun _ => rfl⟩
  · have hsame := lengthRow_sameBut hi h
    exact ⟨congrArg (fun u => { u with
      phase := t.phase, err := t.err, bytePos := t.bytePos, bitOff := t.bitOff, mLen := t.mLen }) hsame,
      bytes_of_sameBut hsame⟩
  · have hsame := distanceRow_sameBut hi h
    exact ⟨congrArg (fun u => { u with
      phase := t.phase, err := t.err, bytePos := t.bytePos, bitOff := t.bitOff, mDist := t.mDist }) hsame,
      bytes_of_sameBut hsame⟩

/-- Settles O40: the same for the registers, and for the memories that each of the three stores once. -/
theorem storingFrame : Obligations.StoringFrame := by
  unfold Obligations.StoringFrame
  intro i s t h
  refine ⟨?_, ?_, ?_⟩
  · rintro ⟨v, rfl⟩
    exact ⟨congrArg (fun u => { u with
      phase := t.phase, err := t.err, outMem := t.outMem, outPos := t.outPos, crc := t.crc }) (lit_sameBut h),
      bytes_of_storesByte rfl h⟩
  · rintro rfl
    exact ⟨congrArg (fun u => { u with
      phase := t.phase, err := t.err, outMem := t.outMem, outPos := t.outPos, crc := t.crc, bytePos := t.bytePos,
      sRem := t.sRem }) (storedByte_sameBut h), bytes_of_storesByte rfl h⟩
  · rintro rfl
    exact ⟨congrArg (fun u => { u with
      phase := t.phase, err := t.err, outMem := t.outMem, outPos := t.outPos, crc := t.crc, mLen := t.mLen })
      (copy_sameBut h), bytes_of_storesByte rfl h⟩

end Sys2Proof.Machine
end

section
/-! PROOFS. COPY: every outcome of one step, and a whole match (spec/44_inflate_engine.md R185, R186). -/

namespace Sys2Proof.Machine

/-! ### COPY -/

/-- The byte `M_DIST` back in the window (R185). -/
def windowByte (s : State) : Byte := outByte s (s.outPos.toNat - s.mDist.toNat)

/-- The state after COPY has copied a byte (R185). -/
def copyCopied (s : State) : State := { emitted (windowByte s) s with mLen := s.mLen - 1 }

section copy
variable {s : State}

theorem exec_copy_of_done (h : s.mLen = 0) : exec .copy s = .next (setPhase .sym s) :=
  finish_ok (by rw [if_pos h]; rfl)

/-- A full output is found after the window byte was read, and nothing is written (R183). -/
theorem exec_copy_of_full (hm : s.mLen ≠ 0) (h1 : 1 ≤ s.mDist.toNat) (hd : s.mDist.toNat ≤ s.outPos.toNat)
    (ho : s.outPos = s.outCap) : exec .copy s = .next (takeTrap .outputOverflow s) := by
  refine finish_trap ?_
  rw [if_neg hm]
  simp only [bind_apply, readWindow_of_le hd (by rw [ho] at hd ⊢; omega), emit_of_full ho]

theorem exec_copy_of_room (hm : s.mLen ≠ 0) (hd : s.mDist.toNat ≤ s.outPos.toNat)
    (ho : s.outPos.toNat < s.outCap.toNat) : exec .copy s = .next (copyCopied s) := by
  refine finish_ok ?_
  rw [if_neg hm]
  simp only [bind_apply, readWindow_of_le hd (by omega), emit_of_lt ho]
  rfl

end copy

/-- Settles O38: the branches of the rule, in its order. -/
theorem copyResult : Obligations.CopyResult := by
  unfold Obligations.CopyResult
  exact fun s => ⟨exec_copy_of_done, fun hm h1 hd => ⟨exec_copy_of_full hm h1 hd, exec_copy_of_room hm hd⟩⟩

/-! ### The whole match -/

/-- From `s` to `t` a match of `n` bytes is appended to the output, and the next symbol follows (R186). -/
structure MatchCopied (n : Nat) (s t : State) : Prop where
  phase : t.phase = .sym
  mLen : t.mLen = 0
  mDist : t.mDist = s.mDist
  bytePos : t.bytePos = s.bytePos
  bitOff : t.bitOff = s.bitOff
  outPos : t.outPos.toNat = s.outPos.toNat + n
  copied : ∀ j, j < n →
    outByte t (s.outPos.toNat + j) = outByte s (s.outPos.toNat - s.mDist.toNat + j % s.mDist.toNat)
  kept : ∀ a, a < s.outPos.toNat ∨ s.outPos.toNat + n ≤ a → outByte t a = outByte s a

section wholeMatch
variable {s t : State} {n : Nat}

theorem matchCopied_of_done (h : s.mLen = 0) : MatchCopied 0 s (setPhase .sym s) :=
  ⟨rfl, h, rfl, rfl, rfl, rfl, fun _ hj => absurd hj (Nat.not_lt_zero _), fun _ _ => rfl⟩

theorem outByte_copyCopied (s : State) (a : Nat) :
    outByte (copyCopied s) a = if a = s.outPos.toNat then windowByte s else outByte s a :=
  outByte_emitted (windowByte s) s a

/-- The counters after one byte, as numbers: neither wraps (R17). -/
theorem counters_copyCopied (hm : s.mLen.toNat = n + 1) (ho : s.outPos.toNat < s.outCap.toNat) :
    (copyCopied s).mLen.toNat = n ∧ (copyCopied s).outPos.toNat = s.outPos.toNat + 1 := by
  refine ⟨?_, outPos_emitted (b := windowByte s) ho⟩
  simp only [copyCopied]
  bv_omega

/-- The key of R186: the last `M_DIST` bytes of the window go round. After one byte is copied they are the same bytes,
moved on by one, since the new last byte is the old first one. -/
theorem outByte_round (h1 : 1 ≤ s.mDist.toNat) (hd : s.mDist.toNat ≤ s.outPos.toNat) (j : Nat) :
    outByte (copyCopied s) (s.outPos.toNat + 1 - s.mDist.toNat + j % s.mDist.toNat) =
      outByte s (s.outPos.toNat - s.mDist.toNat + (j + 1) % s.mDist.toNat) := by
  have hj := Nat.mod_lt j h1
  rw [outByte_copyCopied, ← Nat.mod_add_mod]
  rcases Nat.lt_or_eq_of_le (Nat.succ_le_of_lt hj) with hlt | heq
  · rw [if_neg (by omega), Nat.mod_eq_of_lt hlt]
    congr 1
    omega
  · rw [if_pos (by omega), show j % s.mDist.toNat + 1 = s.mDist.toNat from heq, Nat.mod_self]
    rfl

/-- One byte and the rest of the match. -/
theorem matchCopied_succ (h1 : 1 ≤ s.mDist.toNat) (hd : s.mDist.toNat ≤ s.outPos.toNat)
    (hout : (copyCopied s).outPos.toNat = s.outPos.toNat + 1) (h : MatchCopied n (copyCopied s) t) :
    MatchCopied (n + 1) s t where
  phase := h.phase
  mLen := h.mLen
  mDist := h.mDist
  bytePos := h.bytePos
  bitOff := h.bitOff
  outPos := by rw [h.outPos, hout]; omega
  copied j hj := by
    cases j with
    | zero => rw [Nat.add_zero, h.kept _ (.inl (by omega)), outByte_copyCopied, if_pos rfl, Nat.zero_mod]; rfl
    | succ j =>
      have hrest := h.copied j (by omega)
      rw [hout] at hrest
      rw [Nat.add_comm j 1, ← Nat.add_assoc, hrest, Nat.add_comm 1 j]
      exact outByte_round h1 hd j
  kept a ha := by
    rw [h.kept a (by omega), outByte_copyCopied, if_neg (by omega)]

theorem step_of_copy (hp : s.pending = []) (hphase : s.phase = .copy) : step s = exec .copy s := by
  rw [step_of_pending_nil hp]
  exact coreStep_of_fetch (fetch_byPhase (by rw [hphase]; rfl))

/-- By induction on the bytes that are left. -/
theorem run_match (hp : s.pending = []) (hphase : s.phase = .copy) (hm : s.mLen.toNat = n)
    (h1 : 1 ≤ s.mDist.toNat) (hd : s.mDist.toNat ≤ s.outPos.toNat) (hroom : s.outPos.toNat + n ≤ s.outCap.toNat) :
    ∃ t, Host.Core.run core (n + 1) s = .next t ∧ MatchCopied n s t := by
  have hstep := step_of_copy hp hphase
  induction n generalizing s with
  | zero =>
    have hm0 : s.mLen = 0 := BitVec.eq_of_toNat_eq hm
    exact ⟨_, run_succ (hstep.trans (exec_copy_of_done hm0)) 0, matchCopied_of_done hm0⟩
  | succ n ih =>
    have hne : s.mLen ≠ 0 := fun h => by simp [h] at hm
    obtain ⟨hlen, hout⟩ := counters_copyCopied hm (by omega)
    obtain ⟨t, hrun, ht⟩ := ih (s := copyCopied s) hp hphase hlen h1 (hd.trans (by omega))
      (by rw [hout]; change _ ≤ s.outCap.toNat; omega) (step_of_copy (s := copyCopied s) hp hphase)
    exact ⟨t, (run_succ (hstep.trans (exec_copy_of_room hne hd (by omega))) _).trans hrun,
      matchCopied_succ h1 hd hout ht⟩

end wholeMatch

/-- Settles O39: the match's run, its outcome taken apart. -/
theorem matchCopiesCyclically : Obligations.MatchCopiesCyclically := by
  unfold Obligations.MatchCopiesCyclically
  intro s hp hphase h1 hd hroom
  obtain ⟨t, hrun, ht⟩ := run_match hp hphase rfl h1 hd hroom
  exact ⟨t, hrun, ht.phase, ht.mLen, ht.mDist, ht.bytePos, ht.bitOff, ht.outPos, ht.copied, ht.kept⟩

end Sys2Proof.Machine
end

section
/-! PROOFS. The control transfer table: where a core step passes on to (spec/44_inflate_engine.md R181). -/

namespace Sys2Proof.Machine

/-! ### Where an operation ends -/

/-- Without everything but the two registers that the table reads after the fetch: `PHASE` and `BFINAL`. -/
def eraseData (s : State) : State := { State.reset with phase := s.phase, bfinal := s.bfinal }

/-- Where the operation goes through, it has reached one of these phases. -/
def EndsIn {α : Type} (ps : List Phase) (op : Op α) (s : State) : Prop := ∀ a t, op s = .ok a t → t.phase ∈ ps

/-- A next state is in ERROR or in one of these phases. -/
def Passes (ps : List Phase) (o : Host.Outcome State Fault Refusal) : Prop :=
  ∀ t, o = .next t → t.phase = .error ∨ t.phase ∈ ps

section operations
variable {α β : Type} {ps : List Phase} {s t : State}

theorem sameBut_eraseData_iff : SameBut eraseData s t ↔ t.phase = s.phase ∧ t.bfinal = s.bfinal := by
  simp [SameBut, eraseData]

theorem passes_finish {op : Op Unit} (h : EndsIn ps op s) : Passes ps (finish op s) := fun t ht => by
  rcases finish_next ht with hok | ⟨e, u, -, rfl⟩
  · exact .inr (h () t hok)
  · exact .inl rfl

/-- The last part of a sequence decides. -/
protected theorem EndsIn.last {x : Op α} {f : α → Op β} (h : ∀ a u, EndsIn ps (f a) u) : EndsIn ps (x >>= f) s :=
  fun b t hend => by
    obtain ⟨a, u, -, hf⟩ := bind_ok hend
    exact h a u b t hf

protected theorem EndsIn.ite {c : Prop} [Decidable c] {x y : Op α} (hx : c → EndsIn ps x s) (hy : ¬c → EndsIn ps y s) :
    EndsIn ps (if c then x else y) s := by
  split
  · exact hx ‹_›
  · exact hy ‹_›

protected theorem EndsIn.update {f : State → State} (h : (f s).phase ∈ ps) : EndsIn ps (update f) s := fun _ t hend => by
  cases hend
  exact h

protected theorem EndsIn.raise (e : Trap) : EndsIn ps (raise e : Op α) s := fun _ _ hend => by cases hend

/-- An operation that leaves `PHASE` ends where it began. -/
theorem endsIn_of_writesOnly {op : Op α} (hop : WritesOnly eraseData op) (h : s.phase ∈ ps) : EndsIn ps op s :=
  fun _ _ hend => by
    rwa [(sameBut_eraseData_iff.1 (Keeps.ok hop hend)).1]

end operations

/-! ### The instructions -/

section instructions
variable {i : Instr} {s u : State}

/-- An optional header field and the passing on to the next phase (R181, R200). -/
theorem optional_passes {field : Op Unit} {present : Bool} (p : Phase) :
    Passes [p] (finish (do
      if present then field else pure ()
      update (setPhase p)) s) :=
  passes_finish <| .ite (fun _ => .last fun _ _ => .update (List.mem_singleton_self p)) fun _ =>
    .update (List.mem_singleton_self p)

theorem storedByte_passes (hp : s.phase = .storedCopy) : Passes (nextPhases s) (exec .storedByte s) := by
  refine passes_finish (.ite (fun h => ?_) fun h => endsIn_of_writesOnly ?_ ?_)
  · exact .update (by simp [nextPhases, hp, h, blockEndPhase])
  · exact .bind (.readBytesLe 1) fun _ => .bind (.emit _) fun _ => .update
  · simp only [nextPhases, hp, if_neg h, List.mem_singleton]

theorem copy_passes (hp : s.phase = .copy) : Passes (nextPhases s) (exec .copy s) := by
  refine passes_finish (.ite (fun h => ?_) fun h => endsIn_of_writesOnly ?_ ?_)
  · exact .update (by simp [nextPhases, hp, h])
  · exact .bind .readWindow fun _ => .bind (.emit _) fun _ => .update
  · simp only [nextPhases, hp, if_neg h, List.mem_singleton]

/-- The instructions reached by position. -/
theorem exec_byPhase_passes (h : decodePhase s.phase = .ok i) : Passes (nextPhases s) (exec i s) := by
  cases hp : s.phase <;> rw [hp] at h <;> cases h
  case storedCopy => exact storedByte_passes hp
  case copy => exact copy_passes hp
  all_goals simp only [nextPhases, hp]
  case hdrExtra | hdrName | hdrComment | hdrHcrc => exact optional_passes _
  all_goals
    refine passes_finish (op := _) ?_
    repeat refine .last fun _ _ => ?_
    exact .update (List.mem_singleton_self _)

/-- The block types (R161 to R165). -/
theorem decodeBtype_passes (bfinal : BitVec 1) (w : BitVec 2) :
    Passes [.storedLen, .sym, .dynCounts] (exec (decodeBtype bfinal w) u) := by
  obtain ⟨hstored, hfixed, hdynamic, hreserved⟩ := blockTypesDispatch bfinal u
  unfold decodeBtype
  split_ifs <;> intro t ht
  · cases hstored.symm.trans ht; simp
  · cases hfixed.symm.trans ht; simp
  · cases hdynamic.symm.trans ht; simp
  · cases hreserved.symm.trans ht; simp

theorem lt_of_decodeCL {sym : Nat} (h : decodeCL sym = .ok i) : sym < 19 := by
  unfold decodeCL at h
  split at h
  case h_20 => cases h
  all_goals decide

theorem lt_of_decodeLL {sym : Nat} (h : decodeLL sym = .ok i) : sym < 288 := by
  unfold decodeLL at h
  split at h
  · omega
  · unfold decodeLLHigh at h
    split at h
    case h_33 => cases h
    all_goals decide

theorem lt_of_decodeDist {sym : Nat} (h : decodeDist sym = .ok i) : sym < 32 := by
  unfold decodeDist at h
  split at h
  case h_33 => cases h
  all_goals decide

/-- The code-length symbols stay in DYN_LENS (R144 to R147). -/
theorem decodeCL_passes {sym : Nat} (h : decodeCL sym = .ok i) (hp : u.phase = .dynLens) :
    Passes [.dynLens] (exec i u) := by
  have hmem : u.phase ∈ [Phase.dynLens] := by simp [hp]
  obtain ⟨j, hj, hkind⟩ := decodeCL_lt (lt_of_decodeCL h)
  cases hj.symm.trans h
  rcases hkind with ⟨v, he⟩ | rfl | ⟨base, n, he⟩
  · rw [he]
    exact passes_finish (endsIn_of_writesOnly .update hmem)
  · refine passes_finish (endsIn_of_writesOnly (op := _) ?_ hmem)
    exact .bind (.readBits 2) fun _ => .bind .getState fun _ => .bind (.require _ _) fun _ =>
      .bind (.require _ _) fun _ => .update
  · rw [he]
    refine passes_finish (endsIn_of_writesOnly ?_ hmem)
    exact .bind (.readBits n) fun _ => .bind .getState fun _ => .bind (.require _ _) fun _ => .update

/-- A literal stays in SYM, EOB ends the block, a length wants its distance (R170 to R172, R174, R176). -/
theorem decodeLL_passes {sym : Nat} (h : decodeLL sym = .ok i) (hp : u.phase = .sym) :
    Passes [.sym, blockEndPhase u, .symDist] (exec i u) := by
  obtain ⟨j, hj, hkind⟩ := decodeLL_lt (lt_of_decodeLL h)
  cases hj.symm.trans h
  rcases hkind with ⟨v, rfl⟩ | rfl | ⟨k, -, he⟩ | he
  · exact passes_finish (endsIn_of_writesOnly (.emit v) (by simp [hp]))
  · exact passes_finish (.update (by simp))
  · rw [he]
    exact passes_finish (.last fun _ _ => .update (by simp))
  · rw [he]
    exact passes_finish (.raise _)

/-- A distance begins the copying (R173, R175). -/
theorem decodeDist_passes {sym : Nat} (h : decodeDist sym = .ok i) : Passes [.copy] (exec i u) := by
  obtain ⟨j, hj, hkind⟩ := decodeDist_lt (lt_of_decodeDist h)
  cases hj.symm.trans h
  rcases hkind with ⟨k, -, he⟩ | he <;> rw [he] <;> refine passes_finish ?_
  · exact .last fun _ _ => .last fun _ _ => .last fun _ _ => .update (by simp)
  · exact .raise _

end instructions

/-! ### The fetch and the step -/

/-- Where the core passes on to from what the fetch answered (R143, R189). -/
def FetchPasses (ps : List Phase) : Option Instr → State → Prop
  | some i, u => Passes ps (exec i u)
  | none, _ => .dynBuild ∈ ps

section step
variable {ps : List Phase} {o : Option Instr} {s u : State}

theorem passes_coreStep (h : ∀ o u, fetch s = .ok o u → FetchPasses ps o u) : Passes ps (coreStep s) := by
  intro t ht
  unfold coreStep at ht
  split at ht
  case h_1 i u hf => exact h _ _ hf t ht
  case h_2 u hf =>
    cases ht
    exact .inr (h _ _ hf)
  case h_3 =>
    cases ht
    exact .inl rfl
  case h_4 => cases ht
  case h_5 => cases ht

/-- A symbol that was fetched is one of its alphabet, and only the cursor has moved. -/
theorem symbol_ok {lens : List Nat} {m : Nat} {sel : Nat → Selector}
    (h : (huffDecode lens m >>= fun sym => decoded (sel sym)) s = .ok o u) :
    ∃ sym i, o = some i ∧ decode (sel sym) = .ok i ∧ u.phase = s.phase ∧ u.bfinal = s.bfinal := by
  obtain ⟨sym, v, hsym, hdec⟩ := bind_ok h
  obtain ⟨i, rfl, hi⟩ := decoded_ok hdec
  obtain rfl : v = u := by
    rw [decoded_apply hi] at hdec
    cases hdec
    rfl
  have hkeeps : WritesOnly eraseData (huffDecode lens m) :=
    keeps_huffDecode (R := SameBut eraseData) SameBut.refl SameBut.trans (fun _ _ => rfl) lens m
  exact ⟨sym, i, rfl, hi, sameBut_eraseData_iff.1 (Keeps.ok hkeeps hsym)⟩

theorem fetchBlockHeader_passes (h : fetchBlockHeader s = .ok o u) :
    FetchPasses [.storedLen, .sym, .dynCounts] o u := by
  obtain ⟨_, _, -, h⟩ := bind_ok h
  obtain ⟨_, _, -, h⟩ := bind_ok h
  obtain ⟨_, _, -, h⟩ := bind_ok h
  obtain ⟨i, rfl, hi⟩ := decoded_ok h
  cases hi
  exact decodeBtype_passes _ _

theorem fetchClSymbol_passes (hp : s.phase = .dynLens) (h : fetchClSymbol s = .ok o u) :
    FetchPasses (nextPhases s) o u := by
  obtain ⟨_, _, hs, h⟩ := bind_ok h
  cases hs
  rw [ite_apply_op] at h
  by_cases hfull : s.idx.toNat = flatTotal s
  · rw [if_pos hfull] at h
    cases h
    rw [flatTotal] at hfull
    simp [FetchPasses, nextPhases, hp, hfull]
  · rw [if_neg hfull] at h
    obtain ⟨sym, i, rfl, hi, hphase, -⟩ := symbol_ok h
    rw [flatTotal] at hfull
    simp only [nextPhases, hp, if_neg hfull]
    exact decodeCL_passes hi (hphase.trans hp)

theorem fetchLLSymbol_passes (hp : s.phase = .sym) (h : fetchLLSymbol s = .ok o u) :
    FetchPasses (nextPhases s) o u := by
  obtain ⟨_, _, hs, h⟩ := bind_ok h
  cases hs
  rw [ite_apply_op] at h
  split at h
  · obtain ⟨sym, i, rfl, hi, hphase, hfinal⟩ := symbol_ok h
    have hpass := decodeLL_passes hi (hphase.trans hp)
    rw [blockEndPhase, hfinal] at hpass
    simp only [nextPhases, hp]
    exact hpass
  · cases h

theorem fetchDistSymbol_passes (h : fetchDistSymbol s = .ok o u) : FetchPasses [.copy] o u := by
  obtain ⟨_, _, hs, h⟩ := bind_ok h
  cases hs
  rw [ite_apply_op] at h
  split at h
  · obtain ⟨sym, i, rfl, hi, -⟩ := symbol_ok h
    exact decodeDist_passes hi
  · cases h

/-- By the phase, and in it by what the fetch answers. -/
theorem coreStep_passes (s : State) : Passes (nextPhases s) (coreStep s) := by
  refine passes_coreStep fun o u h => ?_
  cases hp : s.phase
  case blkHdr =>
    simp only [nextPhases, hp]
    exact fetchBlockHeader_passes (fetch_of_blkHdr hp ▸ h)
  case dynLens => exact fetchClSymbol_passes hp (fetch_of_dynLens hp ▸ h)
  case sym => exact fetchLLSymbol_passes hp (fetch_of_sym hp ▸ h)
  case symDist =>
    simp only [nextPhases, hp]
    exact fetchDistSymbol_passes (fetch_of_symDist hp ▸ h)
  case idle | done | error =>
    simp only [fetch, bind_apply, getState_apply, hp] at h
    cases h
  all_goals
    have hfetch := fetch_byPhase (s := s) (by rw [hp]; rfl)
    cases hfetch.symm.trans h
    exact exec_byPhase_passes (by rw [hp]; rfl)

end step

/-- Settles O42: with nothing pending the step is the core's, and its phases are the table's. -/
theorem phaseTransfersFollowTable : Obligations.PhaseTransfersFollowTable := by
  unfold Obligations.PhaseTransfersFollowTable
  intro s t hp ht
  rw [step_of_pending_nil hp] at ht
  exact coreStep_passes s t ht

end Sys2Proof.Machine
end

section
/-! PROOFS. A run that reaches DONE has verified its output (spec/44_inflate_engine.md R189, spec/45_gzip_container.md
R211, R212). -/

namespace Sys2Proof.Machine

section done
variable {s t : State}

/-- Only the trailer passes on to DONE (R181). -/
theorem phase_of_done_mem_nextPhases (h : .done ∈ nextPhases s) : s.phase = .trailer := by
  cases hp : s.phase <;> simp only [nextPhases, hp] at h
  case trailer => rfl
  case storedCopy | dynLens | sym | copy =>
    split_ifs at h <;> simp at h
  all_goals simp at h

theorem step_of_trailer (hp : s.pending = []) (hphase : s.phase = .trailer) : step s = exec .gzTrailer s := by
  rw [step_of_pending_nil hp]
  exact coreStep_of_fetch (fetch_byPhase (by rw [hphase]; rfl))

/-- Just after the trailer, with `TRAILING` saying whether input is left (R211, R212). -/
structure TrailerRead (s t : State) : Prop where
  bytePos : t.bytePos.toNat = alignedPos s + 8
  trailing : t.trailing = 1 ↔ t.bytePos.toNat < t.inLen.toNat

/-- The test that `TRAILING` is set by (R114, R212). -/
theorem trailing_iff (h : s.bytePos.toNat ≤ s.inLen.toNat) :
    (if atEnd s then 0 else 1 : BitVec 1) = 1 ↔ s.bytePos.toNat < s.inLen.toNat := by
  have hend : atEnd s = true ↔ s.bytePos.toNat = s.inLen.toNat := by
    rw [atEnd, decide_eq_true_iff, ← BitVec.toNat_inj]
  split_ifs with hat
  · simp [hend.1 hat]
  · simpa using Nat.lt_of_le_of_ne h fun he => hat (hend.2 he)

theorem ensures_alignToByte_atByte {Q : Unit → State → Prop} (h : Q () (atByte (alignedPos s) s)) :
    Ensures alignToByte s Q := by
  rw [Ensures, alignToByte_eq_atByte]
  exact h

/-- Where GZ.TRAILER raises nothing, it has aligned the cursor and read two fields of four bytes (R210, R212). -/
theorem gzTrailer_reads (hc : CursorOk s) : Leads (exec .gzTrailer s) (TrailerRead s) := by
  refine leads_finish ?_
  simp only [ensures_bind, ensures_getState, ensures_require, ensures_update]
  refine ensures_alignToByte_atByte <| ensures_readBytesLe fun _ p hp _ => ensures_readBytesLe fun _ q hq hle _ _ => ?_
  have hpos : q.toNat = alignedPos s + 8 := by
    rw [bytePos_atByte (alignedPos_le hc)] at hp
    rw [hq]
    exact congrArg (· + 4) hp
  exact ⟨hpos, trailing_iff (hq.trans_le hle)⟩

end done

/-- Settles O51: only the trailer passes on to DONE, what it has verified is part of soundness, and the CRC register is
the output's. -/
theorem doneMeansVerified : Obligations.DoneMeansVerified := by
  unfold Obligations.DoneMeansVerified
  intro s t h hb hp ht hdone
  have hphase : s.phase = .trailer := by
    have hnext := phaseTransfersFollowTable s t hp ht
    rw [hdone] at hnext
    exact phase_of_done_mem_nextPhases (hnext.resolve_left nofun)
  have hinv := stepKeepsSoundness s t h ht
  obtain ⟨hcrc, hsize, hbit⟩ := hinv.done hdone
  have herr : t.err = 0 := not_not.1 fun he => by simpa [hdone] using hinv.err.1.1 he
  obtain ⟨hmem, -⟩ := inv_iff_parts.1 h
  have hrun := h.run hb
  have hout := (coreStep_outputOk (step_of_pending_nil hp ▸ ht) ⟨hmem, hrun.crc, hrun.window⟩).crc
  obtain ⟨u, hu, hend⟩ := gzTrailer_reads hrun.cursor
  obtain rfl : t = u := Host.Outcome.next.inj (ht.symm.trans ((step_of_trailer hp hphase).trans hu))
  have hread := hend.resolve_left (by rw [hdone]; nofun)
  exact ⟨hphase, herr, hout.symm.trans hcrc, hcrc, by rw [← hsize, BitVec.toNat_setWidth], hbit, hread.bytePos,
    hread.trailing⟩

end Sys2Proof.Machine
end

section
/-! PROOFS. The gzip container: every outcome of its operations (spec/45_gzip_container.md R201 to R212). An operation
is run as `finish` of what is left of it, from a state with the cursor at a byte boundary. -/

namespace Sys2Proof.Machine

/-! ### Running an operation that reads whole bytes -/

section running
variable {s : State} {k : Nat} {c : Prop} {e : Trap}

/-- At a byte boundary only the position moves. -/
theorem atByte_of_aligned (h0 : s.bitOff = 0) (a : Nat) : atByte a s = { s with bytePos := BitVec.ofNat 32 a } := by
  rw [atByte, ← h0]

theorem atByte_bytePos (h0 : s.bitOff = 0) : atByte s.bytePos.toNat s = s := by
  rw [atByte_of_aligned h0, BitVec.ofNat_toNat, BitVec.setWidth_eq]

/-- `m` bytes further on than a state at the same position, as the position's own sum. -/
theorem atByte_bytePos_add (u : State) (h0 : u.bitOff = 0) (m : Nat) :
    atByte (s.bytePos.toNat + m) u = { u with bytePos := s.bytePos + BitVec.ofNat 32 m } := by
  rw [atByte_of_aligned h0, ofNat_toNat_add]

theorem finish_readBytesLe_of_lt {f : Nat → Op Unit} (h : s.inLen.toNat < s.bytePos.toNat + k) :
    finish (readBytesLe k >>= f) s = .next (takeTrap .unexpectedEof s) :=
  finish_trap (by rw [bind_apply, readBytesLe_of_lt h])

theorem finish_readBytesLe_atByte {f : Nat → Op Unit} (s : State) (a k : Nat) (h : a + k ≤ s.inLen.toNat) :
    finish (readBytesLe k >>= f) (atByte a s) = finish (f (inLe s a k)) (atByte (a + k) s) := by
  rw [finish, finish, bind_apply, readBytesLe_atByte h]

theorem finish_readBytesLe_atByte_end {f : Nat → Op Unit} (s : State) (a k : Nat) (ha : a ≤ s.inLen.toNat)
    (h : s.inLen.toNat < a + k) :
    finish (readBytesLe k >>= f) (atByte a s) = .next (takeTrap .unexpectedEof (atByte a s)) :=
  finish_readBytesLe_of_lt (by rw [bytePos_atByte ha]; exact h)

theorem finish_require_of [Decidable c] {f : Unit → Op Unit} (h : c) :
    finish (require (decide c) e >>= f) s = finish (f ()) s := by
  rw [decide_eq_true h]
  rfl

theorem finish_require_of_not [Decidable c] {f : Unit → Op Unit} (h : ¬c) :
    finish (require (decide c) e >>= f) s = .next (takeTrap e s) := by
  rw [decide_eq_false h]
  rfl

/-- A two-byte field at the cursor (R64, R113). -/
theorem readBytesLe_two (h : s.bytePos.toNat + 2 ≤ s.inLen.toNat) :
    readBytesLe 2 s = .ok (le16 s s.bytePos.toNat).toNat { s with bytePos := s.bytePos + 2 } := by
  rw [readBytesLe_of_le h, inLe_two, ofNat_toNat_add]
  rfl

end running

/-! ### GZ.HDR (R201) -/

/-- GZ.HDR from the OS byte on. -/
def hdrFromOs : Op Unit := do
  let os ← readBytesLe 1
  update fun s => { s with hdr := { s.hdr with os := BitVec.ofNat 8 os } }
  update (setPhase .hdrExtra)

/-- GZ.HDR from the XFL byte on. -/
def hdrFromXfl : Op Unit := do
  let xfl ← readBytesLe 1
  update fun s => { s with hdr := { s.hdr with xfl := BitVec.ofNat 8 xfl } }
  hdrFromOs

/-- GZ.HDR from MTIME on. -/
def hdrFromMtime : Op Unit := do
  let mtime ← readBytesLe 4
  update fun s => { s with hdr := { s.hdr with mtime := BitVec.ofNat 32 mtime } }
  hdrFromXfl

/-- GZ.HDR from the FLG byte on. -/
def hdrFromFlg : Op Unit := do
  let flg ← readBytesLe 1
  update fun s => { s with hdr := { s.hdr with flg := BitVec.ofNat 8 flg } }
  hdrFromMtime

/-- GZ.HDR from the CM byte on. -/
def hdrFromCm : Op Unit := do
  let cm ← readBytesLe 1
  require (decide (cm = 8)) .unsupportedMethod
  hdrFromFlg

/-- GZ.HDR from the two magic bytes on. -/
def hdrFromMagic : Op Unit := do
  let magic ← readBytesLe 2
  require (decide (magic = 0x8B1F)) .invalidMagic
  hdrFromCm

/-- The state with FLG recorded, of the fixed header at the cursor. -/
def withFlg (s : State) : State := { s with hdr := { s.hdr with flg := inByte s (s.bytePos.toNat + 3) } }

/-- The state with FLG and MTIME recorded, of the fixed header at the cursor. -/
def withMtime (s : State) : State :=
  { s with hdr := { s.hdr with flg := inByte s (s.bytePos.toNat + 3), mtime := le32 s (s.bytePos.toNat + 4) } }

/-- The state with FLG, MTIME and XFL recorded, of the fixed header at the cursor. -/
def withXfl (s : State) : State :=
  { s with
    hdr := { s.hdr with
      flg := inByte s (s.bytePos.toNat + 3), mtime := le32 s (s.bytePos.toNat + 4),
      xfl := inByte s (s.bytePos.toNat + 8) } }

/-- The state with all four fields recorded, of the fixed header at the cursor. -/
def withOs (s : State) : State :=
  { s with
    hdr := { s.hdr with
      flg := inByte s (s.bytePos.toNat + 3), mtime := le32 s (s.bytePos.toNat + 4),
      xfl := inByte s (s.bytePos.toNat + 8), os := inByte s (s.bytePos.toNat + 9) } }

section header
variable {s : State} (h0 : s.bitOff = 0)
include h0

theorem exec_gzHdr : exec .gzHdr s = finish hdrFromMagic (atByte s.bytePos.toNat s) := by
  rw [atByte_bytePos h0]
  rfl

theorem exec_gzHdr_of_badMagic (h : s.bytePos.toNat + 2 ≤ s.inLen.toNat) (hmagic : le16 s s.bytePos.toNat ≠ 0x8B1F) :
    exec .gzHdr s = .next (takeTrap .invalidMagic (atByte (s.bytePos.toNat + 2) s)) := by
  have hne : (le16 s s.bytePos.toNat).toNat ≠ 0x8B1F := fun he => hmagic (BitVec.eq_of_toNat_eq he)
  rw [exec_gzHdr h0, hdrFromMagic, finish_readBytesLe_atByte s _ 2 h, inLe_two, finish_require_of_not hne]

variable (hmagic : le16 s s.bytePos.toNat = 0x8B1F)
include hmagic

theorem exec_gzHdr_of_magic (h : s.bytePos.toNat + 2 ≤ s.inLen.toNat) :
    exec .gzHdr s = finish hdrFromCm (atByte (s.bytePos.toNat + 2) s) := by
  have heq : (le16 s s.bytePos.toNat).toNat = 0x8B1F := congrArg BitVec.toNat hmagic
  rw [exec_gzHdr h0, hdrFromMagic, finish_readBytesLe_atByte s _ 2 h, inLe_two, finish_require_of heq]

theorem exec_gzHdr_of_badCm (h : s.bytePos.toNat + 3 ≤ s.inLen.toNat) (hcm : inByte s (s.bytePos.toNat + 2) ≠ 8) :
    exec .gzHdr s = .next (takeTrap .unsupportedMethod (atByte (s.bytePos.toNat + 3) s)) := by
  have hne : (inByte s (s.bytePos.toNat + 2)).toNat ≠ 8 := fun he => hcm (BitVec.eq_of_toNat_eq he)
  rw [exec_gzHdr_of_magic h0 hmagic (by omega), hdrFromCm,
    finish_readBytesLe_atByte s (s.bytePos.toNat + 2) 1 h, inLe_one, finish_require_of_not hne]

variable (hcm : inByte s (s.bytePos.toNat + 2) = 8)
include hcm

theorem exec_gzHdr_of_cm (h : s.bytePos.toNat + 3 ≤ s.inLen.toNat) :
    exec .gzHdr s = finish hdrFromFlg (atByte (s.bytePos.toNat + 3) s) := by
  have heq : (inByte s (s.bytePos.toNat + 2)).toNat = 8 := congrArg BitVec.toNat hcm
  rw [exec_gzHdr_of_magic h0 hmagic (by omega), hdrFromCm,
    finish_readBytesLe_atByte s (s.bytePos.toNat + 2) 1 h, inLe_one, finish_require_of heq]

theorem exec_gzHdr_of_flg (h : s.bytePos.toNat + 4 ≤ s.inLen.toNat) :
    exec .gzHdr s = finish hdrFromMtime (atByte (s.bytePos.toNat + 4) (withFlg s)) := by
  rw [exec_gzHdr_of_cm h0 hmagic hcm (by omega), hdrFromFlg,
    finish_readBytesLe_atByte s (s.bytePos.toNat + 3) 1 h]
  simp only [inLe_one, BitVec.ofNat_toNat, BitVec.setWidth_eq]
  rfl

theorem exec_gzHdr_of_mtime (h : s.bytePos.toNat + 8 ≤ s.inLen.toNat) :
    exec .gzHdr s = finish hdrFromXfl (atByte (s.bytePos.toNat + 8) (withMtime s)) := by
  rw [exec_gzHdr_of_flg h0 hmagic hcm (by omega), hdrFromMtime,
    finish_readBytesLe_atByte (withFlg s) (s.bytePos.toNat + 4) 4 h]
  simp only [inLe_four, BitVec.ofNat_toNat, BitVec.setWidth_eq]
  rfl

theorem exec_gzHdr_of_xfl (h : s.bytePos.toNat + 9 ≤ s.inLen.toNat) :
    exec .gzHdr s = finish hdrFromOs (atByte (s.bytePos.toNat + 9) (withXfl s)) := by
  rw [exec_gzHdr_of_mtime h0 hmagic hcm (by omega), hdrFromXfl,
    finish_readBytesLe_atByte (withMtime s) (s.bytePos.toNat + 8) 1 h]
  simp only [inLe_one, BitVec.ofNat_toNat, BitVec.setWidth_eq]
  rfl

theorem exec_gzHdr_of_os (h : s.bytePos.toNat + 10 ≤ s.inLen.toNat) :
    exec .gzHdr s = .next (setPhase .hdrExtra (atByte (s.bytePos.toNat + 10) (withOs s))) := by
  rw [exec_gzHdr_of_xfl h0 hmagic hcm (by omega), hdrFromOs,
    finish_readBytesLe_atByte (withXfl s) (s.bytePos.toNat + 9) 1 h]
  simp only [inLe_one, BitVec.ofNat_toNat, BitVec.setWidth_eq]
  rfl

end header

/-- Settles O14: by the first field that is missing or wrong. -/
theorem gzHdrResult : Obligations.GzHdrResult := by
  unfold Obligations.GzHdrResult
  intro s h0
  refine ⟨finish_readBytesLe_of_lt, fun h hmagic => ?_, fun hmagic => ⟨fun h => ?_, fun h hcm => ?_, fun hcm =>
    ⟨fun h => ?_, fun h hlt => ?_, fun h => ?_, fun h => ?_, fun h => ?_⟩⟩⟩
  · rw [exec_gzHdr_of_badMagic h0 h hmagic, atByte_bytePos_add s h0]
    rfl
  · rw [exec_gzHdr_of_magic h0 hmagic h.ge, hdrFromCm,
      finish_readBytesLe_atByte_end s (s.bytePos.toNat + 2) 1 h.ge (by omega), atByte_bytePos_add s h0]
    rfl
  · rw [exec_gzHdr_of_badCm h0 hmagic h hcm, atByte_bytePos_add s h0]
    rfl
  · rw [exec_gzHdr_of_cm h0 hmagic hcm h.ge, hdrFromFlg,
      finish_readBytesLe_atByte_end s (s.bytePos.toNat + 3) 1 h.ge (by omega), atByte_bytePos_add s h0]
    rfl
  · rw [exec_gzHdr_of_flg h0 hmagic hcm h, hdrFromMtime,
      finish_readBytesLe_atByte_end (withFlg s) (s.bytePos.toNat + 4) 4 h hlt, atByte_bytePos_add (withFlg s) h0]
    rfl
  · rw [exec_gzHdr_of_mtime h0 hmagic hcm h.ge, hdrFromXfl,
      finish_readBytesLe_atByte_end (withMtime s) (s.bytePos.toNat + 8) 1 h.ge (Nat.lt_succ_of_le h.le),
      atByte_bytePos_add (withMtime s) h0]
    rfl
  · rw [exec_gzHdr_of_xfl h0 hmagic hcm h.ge, hdrFromOs,
      finish_readBytesLe_atByte_end (withXfl s) (s.bytePos.toNat + 9) 1 h.ge (Nat.lt_succ_of_le h.le),
      atByte_bytePos_add (withXfl s) h0]
    rfl
  · rw [exec_gzHdr_of_os h0 hmagic hcm h, atByte_bytePos_add (withOs s) h0]
    rfl

/-! ### Optional fields (R200) -/

section optional
variable {field : Op Unit} {p : Phase} {present : Bool} {s t : State} {e : Trap}

theorem finish_optional_absent (h : present = false) :
    finish (do
      if present then field else pure ()
      update (setPhase p)) s = .next (setPhase p s) := by
  subst h
  rfl

theorem finish_optional_ok (h : present = true) (hfield : field s = .ok () t) :
    finish (do
      if present then field else pure ()
      update (setPhase p)) s = .next (setPhase p t) := by
  subst h
  exact finish_ok (by simp only [if_true, bind_apply, hfield, update_apply])

theorem finish_optional_trap (h : present = true) (hfield : field s = .error (.trap e) t) :
    finish (do
      if present then field else pure ()
      update (setPhase p)) s = .next (takeTrap e t) := by
  subst h
  exact finish_trap (by simp only [if_true, bind_apply, hfield])

end optional

/-! ### GZ.FEXTRA (R202) -/

section extra
variable {s : State}

theorem extraField_of_lt (h : s.inLen.toNat < s.bytePos.toNat + 2) :
    extraField s = .error (.trap .unexpectedEof) s := by
  rw [extraField, bind_apply, readBytesLe_of_lt h]

/-- The length is there: whether the payload is decides. -/
theorem extraField_of_le (h : s.bytePos.toNat + 2 ≤ s.inLen.toNat) :
    extraField s =
      if s.bytePos.toNat + 2 + (le16 s s.bytePos.toNat).toNat ≤ s.inLen.toNat then
        .ok ()
          { s with
            bytePos := s.bytePos + 2 + (le16 s s.bytePos.toNat).setWidth 32,
            hdr := { s.hdr with extraOff := s.bytePos + 2, extraLen := le16 s s.bytePos.toNat } }
      else .error (.trap .unexpectedEof) { s with bytePos := s.bytePos + 2 } := by
  have hpos : (s.bytePos + 2).toNat = s.bytePos.toNat + 2 := by
    rw [← bytePos_after h, ofNat_toNat_add]
    rfl
  rw [← hpos]
  split_ifs with hle
  · simp only [extraField, bind_apply, readBytesLe_two h, getState_apply, hle, decide_true, require_true, update_apply,
      ofNat_toNat_add, BitVec.ofNat_toNat, BitVec.setWidth_eq]
  · simp only [extraField, bind_apply, readBytesLe_two h, getState_apply, hle, decide_false, require_false]

end extra

/-- Settles O15: by whether the field, its length and its payload are there. -/
theorem gzFextraResult : Obligations.GzFextraResult := by
  unfold Obligations.GzFextraResult
  intro s _
  refine ⟨finish_optional_absent, fun hflag => ⟨fun h => ?_, fun h hlt => ?_, fun h => ?_⟩⟩
  · exact finish_optional_trap hflag (extraField_of_lt h)
  · exact finish_optional_trap hflag ((extraField_of_le h).trans (if_neg (Nat.not_le.2 hlt)))
  · exact finish_optional_ok hflag ((extraField_of_le (Nat.le_of_add_right_le h)).trans (if_pos h))

/-! ### GZ.FNAME and GZ.FCOMMENT (R203, R204) -/

section skipping
variable {s : State} {a : Nat}

/-- One round: a byte is consumed, and a zero byte ends the string. -/
theorem skipString_succ (h : a < s.inLen.toNat) (rounds : Nat) :
    skipString (rounds + 1) (atByte a s) =
      if inByte s a = 0 then .ok () (atByte (a + 1) s) else skipString rounds (atByte (a + 1) s) := by
  have hzero : (inByte s a).toNat = 0 ↔ inByte s a = 0 := BitVec.toNat_inj (y := 0)
  rw [skipString, bind_apply, readBytesLe_atByte h]
  simp only [inLe_one, hzero, ite_apply_op, pure_apply]

/-- A string of `n` bytes and its zero byte. -/
theorem skipString_atByte_of_zero {n rounds : Nat} (hr : n < rounds) (h : a + n < s.inLen.toNat)
    (hne : ∀ j, j < n → inByte s (a + j) ≠ 0) (hz : inByte s (a + n) = 0) :
    skipString rounds (atByte a s) = .ok () (atByte (a + n + 1) s) := by
  induction n generalizing a rounds with
  | zero =>
    cases rounds with
    | zero => omega
    | succ rounds => exact (skipString_succ h rounds).trans (if_pos hz)
  | succ n ih =>
    cases rounds with
    | zero => omega
    | succ rounds =>
      have hfirst : inByte s a ≠ 0 := hne 0 (Nat.succ_pos n)
      have hshift : ∀ j, a + (j + 1) = a + 1 + j := fun j => by omega
      have hlt : a < s.inLen.toNat := by omega
      rw [hshift] at h hz ⊢
      rw [skipString_succ hlt, if_neg hfirst]
      exact ih (Nat.lt_of_succ_lt_succ hr) h (fun j hj => hshift j ▸ hne (j + 1) (Nat.succ_lt_succ hj)) hz

/-- No zero byte is left: the input is consumed to its end (R116, R203). -/
theorem skipString_atByte_of_no_zero {rounds : Nat} (ha : a ≤ s.inLen.toNat) (h : s.inLen.toNat - a < rounds)
    (hne : ∀ b, a ≤ b → b < s.inLen.toNat → inByte s b ≠ 0) :
    skipString rounds (atByte a s) = .error (.trap .unexpectedEof) (atByte s.inLen.toNat s) := by
  induction rounds generalizing a with
  | zero => omega
  | succ rounds ih =>
    rcases Nat.lt_or_eq_of_le ha with hlt | rfl
    · rw [skipString_succ hlt, if_neg (hne a (Nat.le_refl a) hlt)]
      exact ih hlt (by omega) fun b hb => hne b (Nat.le_of_succ_le hb)
    · rw [skipString, bind_apply, readBytesLe_atByte_end (Nat.le_refl _) (Nat.lt_succ_self _)]

variable (h0 : s.bitOff = 0)
include h0

theorem skipString_of_zero {n : Nat} (h : s.bytePos.toNat + n < s.inLen.toNat)
    (hne : ∀ j, j < n → inByte s (s.bytePos.toNat + j) ≠ 0) (hz : inByte s (s.bytePos.toNat + n) = 0) :
    skipString (stringRounds s) s = .ok () { s with bytePos := BitVec.ofNat 32 (s.bytePos.toNat + n + 1) } := by
  have hr : n < stringRounds s := by rw [stringRounds]; omega
  have hskip := skipString_atByte_of_zero hr h hne hz
  rwa [atByte_bytePos h0, atByte_of_aligned h0] at hskip

theorem skipString_of_no_zero (hle : s.bytePos.toNat ≤ s.inLen.toNat)
    (hne : ∀ a, s.bytePos.toNat ≤ a → a < s.inLen.toNat → inByte s a ≠ 0) :
    skipString (stringRounds s) s = .error (.trap .unexpectedEof) { s with bytePos := s.inLen } := by
  have hskip := skipString_atByte_of_no_zero (rounds := stringRounds s) hle (Nat.lt_succ_self _) hne
  rwa [atByte_bytePos h0, atByte_of_aligned h0, BitVec.ofNat_toNat, BitVec.setWidth_eq] at hskip

end skipping

/-- The body that FNAME and FCOMMENT share: the offset is recorded before the string is read, the length after. -/
def stringField (setOff setLen : State → State) : Op Unit := do
  update setOff
  let s ← getState
  skipString (stringRounds s)
  update setLen

/-- The write of `HDR_NAME_OFF`. -/
def setNameOff (s : State) : State := { s with hdr := { s.hdr with nameOff := s.bytePos } }

/-- The write of `HDR_NAME_LEN`, after the string. -/
def setNameLen (s : State) : State :=
  { s with hdr := { s.hdr with nameLen := BitVec.ofNat 32 (s.bytePos.toNat - 1 - s.hdr.nameOff.toNat) } }

/-- The write of `HDR_COMMENT_OFF`. -/
def setCommentOff (s : State) : State := { s with hdr := { s.hdr with commentOff := s.bytePos } }

/-- The write of `HDR_COMMENT_LEN`, after the string. -/
def setCommentLen (s : State) : State :=
  { s with hdr := { s.hdr with commentLen := BitVec.ofNat 32 (s.bytePos.toNat - 1 - s.hdr.commentOff.toNat) } }

theorem nameField_eq : nameField = stringField setNameOff setNameLen := rfl

theorem commentField_eq : commentField = stringField setCommentOff setCommentLen := rfl

section strings
variable {s : State} {setOff setLen : State → State} {r : HeaderRecord} (h0 : s.bitOff = 0)
  (hoff : setOff s = { s with hdr := r })
include h0 hoff

theorem stringField_of_zero {n : Nat} (h : s.bytePos.toNat + n < s.inLen.toNat)
    (hne : ∀ j, j < n → inByte s (s.bytePos.toNat + j) ≠ 0) (hz : inByte s (s.bytePos.toNat + n) = 0) :
    stringField setOff setLen s =
      .ok () (setLen { s with bytePos := BitVec.ofNat 32 (s.bytePos.toNat + n + 1), hdr := r }) := by
  simp only [stringField, bind_apply, update_apply, getState_apply, hoff,
    skipString_of_zero (s := { s with hdr := r }) h0 h hne hz]

theorem stringField_of_no_zero (hle : s.bytePos.toNat ≤ s.inLen.toNat)
    (hne : ∀ a, s.bytePos.toNat ≤ a → a < s.inLen.toNat → inByte s a ≠ 0) :
    stringField setOff setLen s = .error (.trap .unexpectedEof) { s with bytePos := s.inLen, hdr := r } := by
  simp only [stringField, bind_apply, update_apply, getState_apply, hoff,
    skipString_of_no_zero (s := { s with hdr := r }) h0 hle hne]

end strings

/-- The length that is recorded: the zero byte does not count (R203). -/
theorem stringLength {s : State} {n : Nat} (h : s.bytePos.toNat + n < s.inLen.toNat) :
    (BitVec.ofNat 32 (s.bytePos.toNat + n + 1)).toNat - 1 - s.bytePos.toNat = n := by
  have := bytePos_after (s := s) (n := n + 1) h
  rw [Nat.add_assoc, this]
  omega

/-- Settles O16: by whether the field is there and its zero byte is, once for both fields. -/
theorem gzStringResult : Obligations.GzStringResult := by
  unfold Obligations.GzStringResult
  intro s h0 hle
  refine ⟨finish_optional_absent, finish_optional_absent, fun n h hne hz => ⟨fun hflag => ?_, fun hflag => ?_⟩,
    fun hne => ⟨fun hflag => ?_, fun hflag => ?_⟩⟩
  · have hfield := stringField_of_zero (setOff := setNameOff) (setLen := setNameLen) h0 rfl h hne hz
    refine (finish_optional_ok hflag hfield).trans ?_
    simp only [setNameLen, stringLength h]
    rfl
  · have hfield := stringField_of_zero (setOff := setCommentOff) (setLen := setCommentLen) h0 rfl h hne hz
    refine (finish_optional_ok hflag hfield).trans ?_
    simp only [setCommentLen, stringLength h]
    rfl
  · have hfield := stringField_of_no_zero (setOff := setNameOff) (setLen := setNameLen) h0 rfl hle hne
    exact finish_optional_trap hflag hfield
  · have hfield := stringField_of_no_zero (setOff := setCommentOff) (setLen := setCommentLen) h0 rfl hle hne
    exact finish_optional_trap hflag hfield

/-! ### GZ.FHCRC (R205, R206) -/

/-- The state after the header CRC field has been read. -/
def withHcrc (s : State) : State :=
  { s with bytePos := s.bytePos + 2, hdr := { s.hdr with hcrc := le16 s s.bytePos.toNat } }

section hcrc
variable {s : State}

theorem hcrcField_of_lt (h : s.inLen.toNat < s.bytePos.toNat + 2) :
    hcrcField s = .error (.trap .unexpectedEof) s := by
  rw [hcrcField, bind_apply, getState_apply]
  simp only [bind_apply, readBytesLe_of_lt h]

/-- The check value is that of the bytes before the field. -/
theorem headerCrc16_withHcrc (s : State) (p : Nat) : headerCrc16 (withHcrc s) p = headerCrc16 s p :=
  congrArg (fun bytes => (crc32 bytes).setWidth 16) (inBytes_congr (s := s) (t := withHcrc s) rfl 0 p)

/-- The field is there: it is recorded, and then compared if `CFG.HCRC_CHECK` says so. -/
theorem hcrcField_of_le (h : s.bytePos.toNat + 2 ≤ s.inLen.toNat) :
    hcrcField s =
      if s.hcrcCheck = 1 then
        require (decide (headerCrc16 s s.bytePos.toNat = le16 s s.bytePos.toNat)) .headerCrcMismatch (withHcrc s)
      else .ok () (withHcrc s) := by
  rw [← headerCrc16_withHcrc]
  simp only [hcrcField, bind_apply, getState_apply, readBytesLe_two h, update_apply, BitVec.ofNat_toNat,
    BitVec.setWidth_eq, ite_apply_op]
  rfl

end hcrc

/-- Settles O17: by whether the field is there and whether it is compared. -/
theorem gzFhcrcResult : Obligations.GzFhcrcResult := by
  unfold Obligations.GzFhcrcResult
  intro s _
  refine ⟨finish_optional_absent, fun hflag => ⟨fun h => ?_, fun h => ⟨fun hok => ?_, fun hcheck hne => ?_⟩⟩⟩
  · exact finish_optional_trap hflag (hcrcField_of_lt h)
  · have hfield : hcrcField s = .ok () (withHcrc s) := by
      rw [hcrcField_of_le h]
      split_ifs with hcheck
      · have heq : headerCrc16 s s.bytePos.toNat = le16 s s.bytePos.toNat :=
          hok.resolve_left (by rw [hcheck]; decide)
        rw [heq, decide_eq_true rfl, require_true]
      · rfl
    exact finish_optional_ok hflag hfield
  · have hfield : hcrcField s = .error (.trap .headerCrcMismatch) (withHcrc s) := by
      rw [hcrcField_of_le h, if_pos hcheck, headerCrc16, decide_eq_false hne, require_false]
    exact finish_optional_trap hflag hfield

/-! ### GZ.TRAILER (R210, R212) -/

/-- GZ.TRAILER once both fields are recorded. -/
def trailerCompare : Op Unit := do
  let s ← getState
  require (decide (s.trl.crc32 = s.crc)) .crcMismatch
  require (decide (s.trl.isize = s.outPos.setWidth 32)) .sizeMismatch
  update fun s => { s with trailing := if atEnd s then 0 else 1 }
  update (setPhase .done)

/-- GZ.TRAILER from the size field on. -/
def trailerFromIsize : Op Unit := do
  let isize ← readBytesLe 4
  update fun s => { s with trl := { s.trl with isize := BitVec.ofNat 32 isize } }
  trailerCompare

/-- GZ.TRAILER after the alignment. -/
def trailerFromCrc : Op Unit := do
  let crc ← readBytesLe 4
  update fun s => { s with trl := { s.trl with crc32 := BitVec.ofNat 32 crc } }
  trailerFromIsize

/-- The state with the CRC field recorded. -/
def withTrlCrc (s : State) : State := { s with trl := { s.trl with crc32 := le32 s (alignedPos s) } }

/-- The state with both fields recorded. -/
def withTrl (s : State) : State :=
  { s with trl := { crc32 := le32 s (alignedPos s), isize := le32 s (alignedPos s + 4) } }

section trailer
variable {s : State}

theorem exec_gzTrailer (s : State) : exec .gzTrailer s = finish trailerFromCrc (atByte (alignedPos s) s) := by
  change finish (alignToByte >>= fun _ => trailerFromCrc) s = _
  rw [finish, bind_apply, alignToByte_eq_atByte]
  rfl

theorem exec_gzTrailer_of_crc (h : alignedPos s + 4 ≤ s.inLen.toNat) :
    exec .gzTrailer s = finish trailerFromIsize (atByte (alignedPos s + 4) (withTrlCrc s)) := by
  rw [exec_gzTrailer, trailerFromCrc, finish_readBytesLe_atByte s _ 4 h]
  simp only [inLe_four, BitVec.ofNat_toNat, BitVec.setWidth_eq]
  rfl

theorem exec_gzTrailer_of_isize (h : alignedPos s + 8 ≤ s.inLen.toNat) :
    exec .gzTrailer s = finish trailerCompare (atByte (alignedPos s + 8) (withTrl s)) := by
  rw [exec_gzTrailer_of_crc (by omega), trailerFromIsize,
    finish_readBytesLe_atByte (withTrlCrc s) (alignedPos s + 4) 4 h]
  simp only [inLe_four, BitVec.ofNat_toNat, BitVec.setWidth_eq]
  rfl

/-- The comparison with `CRC` comes first. -/
theorem trailerCompare_of_badCrc (h : s.trl.crc32 ≠ s.crc) :
    finish trailerCompare s = .next (takeTrap .crcMismatch s) :=
  finish_require_of_not h

theorem trailerCompare_of_badSize (hcrc : s.trl.crc32 = s.crc) (h : s.trl.isize ≠ s.outPos.setWidth 32) :
    finish trailerCompare s = .next (takeTrap .sizeMismatch s) :=
  (finish_require_of hcrc).trans (finish_require_of_not h)

theorem trailerCompare_of_eq (hcrc : s.trl.crc32 = s.crc) (h : s.trl.isize = s.outPos.setWidth 32) :
    finish trailerCompare s = .next { s with trailing := if atEnd s then 0 else 1, phase := .done } :=
  (finish_require_of hcrc).trans (finish_require_of h)

/-- `OUT_POS mod 2^32` (R210). -/
theorem ofNat_outPos_mod (s : State) : BitVec.ofNat 32 (s.outPos.toNat % 2 ^ 32) = s.outPos.setWidth 32 := by
  apply BitVec.eq_of_toNat_eq
  simp

theorem atEnd_atByte {a : Nat} (h : a ≤ s.inLen.toNat) : atEnd (atByte a s) = true ↔ a = s.inLen.toNat := by
  rw [atEnd, decide_eq_true_iff, ← BitVec.toNat_inj, bytePos_atByte h]
  rfl

end trailer

/-- Settles O18: by how many bytes are left after the alignment, and then by the two comparisons. -/
theorem gzTrailerResult : Obligations.GzTrailerResult := by
  unfold Obligations.GzTrailerResult
  intro s hc
  rw [ofNat_outPos_mod]
  refine ⟨fun h => ?_, fun h hlt => ?_, fun h => ⟨fun hcrc => ?_, fun hcrc hsize => ?_, fun hcrc hsize => ?_⟩⟩
  · exact (exec_gzTrailer s).trans (finish_readBytesLe_atByte_end s _ 4 (alignedPos_le hc) h)
  · exact (exec_gzTrailer_of_crc h).trans (finish_readBytesLe_atByte_end (withTrlCrc s) (alignedPos s + 4) 4 h hlt)
  · exact (exec_gzTrailer_of_isize h).trans (trailerCompare_of_badCrc hcrc)
  · exact (exec_gzTrailer_of_isize h).trans (trailerCompare_of_badSize hcrc hsize)
  · have hend : alignedPos s + 8 = s.inLen.toNat ↔ _ := (atEnd_atByte (s := withTrl s) h).symm
    simp only [hend]
    exact (exec_gzTrailer_of_isize h).trans (trailerCompare_of_eq hcrc hsize)

/-! ### CRC-32 (R209) -/

/-- Settles O19: one more byte is one more step of the fold; the known values are computed. -/
theorem crcKnownValues : Obligations.CrcKnownValues :=
  ⟨rfl, crc32_snoc, by decide +kernel, by decide +kernel, by decide +kernel, by decide +kernel⟩

/-! ### What the header operations leave unchanged (R200) -/

section writes
variable {α : Type} {erase : State → State}

protected theorem WritesOnly.pure (a : α) : WritesOnly erase (pure a) := keeps_pure SameBut.refl a

protected theorem WritesOnly.skipString (n : Nat)
    (h : ∀ b s, SameBut erase s { s with bytePos := b } := by exact fun _ _ => rfl) :
    WritesOnly erase (skipString n) := keeps_skipString SameBut.refl SameBut.trans (fun s _ => h _ s) n

/-- An optional header field and the passing on to the next phase. -/
protected theorem WritesOnly.optional {field : Op Unit} {p : Phase} {present : Bool} (h : WritesOnly erase field)
    (hp : ∀ s, SameBut erase s (setPhase p s) := by exact fun _ => rfl) :
    WritesOnly erase (do
      if present then field else pure ()
      update (setPhase p)) :=
  .ite (.bind h fun _ => .update hp) (.update hp)

end writes

/-- Without what the header operations may write. -/
def eraseHeader (s : State) : State := { eraseStatus s with bytePos := 0, hdr := HeaderRecord.zero }

theorem writesOnly_stringField {setOff setLen : State → State}
    (hoff : ∀ s, SameBut eraseHeader s (setOff s) := by exact fun _ => rfl)
    (hlen : ∀ s, SameBut eraseHeader s (setLen s) := by exact fun _ => rfl) :
    WritesOnly eraseHeader (stringField setOff setLen) :=
  .bind (.update hoff) fun _ => .bind .getState fun _ => .bind (.skipString _) fun _ => .update hlen

/-- The header, field by field (R201 to R205). -/
theorem header_sameBut {i : Instr} {s t : State} (hi : i ∈ [.gzHdr, .gzFextra, .gzFname, .gzFcomment, .gzFhcrc])
    (h : exec i s = .next t) : SameBut eraseHeader s t := by
  simp only [List.mem_cons, List.not_mem_nil, or_false] at hi
  rcases hi with rfl | rfl | rfl | rfl | rfl <;> refine sameBut_of_finish (op := _) ?_ h
  · exact .bind (.readBytesLe 2) fun _ => .bind (.require _ _) fun _ => .bind (.readBytesLe 1) fun _ =>
      .bind (.require _ _) fun _ => .bind (.readBytesLe 1) fun _ => .bind .update fun _ =>
      .bind (.readBytesLe 4) fun _ => .bind .update fun _ => .bind (.readBytesLe 1) fun _ => .bind .update fun _ =>
      .bind (.readBytesLe 1) fun _ => .bind .update fun _ => .update
  · exact .optional <| .bind (.readBytesLe 2) fun _ => .bind .getState fun _ => .bind (.require _ _) fun _ =>
      .bind .update fun _ => .bind .update fun _ => .update
  · exact .optional (nameField_eq ▸ writesOnly_stringField)
  · exact .optional (commentField_eq ▸ writesOnly_stringField)
  · exact .optional <| .bind .getState fun _ => .bind (.readBytesLe 2) fun _ => .bind .update fun _ =>
      .bind .getState fun _ => .ite (.require _ _) (.pure _)

/-- Settles O20: what is left after erasing the written fields is the same, and the memories are part of it. -/
theorem gzipHeaderFrame : Obligations.GzipHeaderFrame := by
  unfold Obligations.GzipHeaderFrame
  intro i s t hi h
  have hsame := header_sameBut hi h
  exact ⟨congrArg (fun u => { u with phase := t.phase, err := t.err, bytePos := t.bytePos, hdr := t.hdr }) hsame,
    bytes_of_sameBut hsame⟩

end Sys2Proof.Machine
end

section
/-! PROOFS. A core step does not see the host (spec/46_host_control.md R236): every operation answers the same, and ends
alike, when the fields that only the host uses are replaced in the state it starts from. -/

namespace Sys2Proof.Machine

/-- The same end of an operation, in another state. -/
def mapEnd {α : Type} (f : State → State) : EStateM.Result Stop State α → EStateM.Result Stop State α
  | .ok a s => .ok a (f s)
  | .error e s => .error e (f s)

/-- The same outcome of a step, with another next state. -/
def mapNext (f : State → State) : Host.Outcome State Fault Refusal → Host.Outcome State Fault Refusal
  | .next s => .next (f s)
  | .fault r => .fault r
  | .refused r => .refused r

/-- Replacing the host's fields before the operation replaces them in the state it ends in, and nothing else. -/
def IgnoresHost {α : Type} (op : Op α) : Prop :=
  ∀ pending hostData draws s,
    op (withHost pending hostData draws s) = mapEnd (withHost pending hostData draws) (op s)

/-- The same of a step. -/
def StepIgnoresHost (f : State → Host.Outcome State Fault Refusal) : Prop :=
  ∀ pending hostData draws s,
    f (withHost pending hostData draws s) = mapNext (withHost pending hostData draws) (f s)

/-! ### The input, read from such a state -/

section input
variable (pending : List HostMove) (hostData : Word) (draws : Nat) (s : State)

@[simp] theorem inField_withHost (k n : Nat) : inField (withHost pending hostData draws s) k n = inField s k n := by
  induction n generalizing k with
  | zero => rfl
  | succ n ih => rw [inField, ih]; rfl

@[simp] theorem headerCrc16_withHost (p : Nat) :
    headerCrc16 (withHost pending hostData draws s) p = headerCrc16 s p :=
  congrArg (fun bytes => (crc32 bytes).setWidth 16)
    (inBytes_congr (s := s) (t := withHost pending hostData draws s) rfl 0 p)

end input

/-! ### The operations -/

section operations
variable {α β : Type}

protected theorem IgnoresHost.bind {x : Op α} {f : α → Op β} (hx : IgnoresHost x) (hf : ∀ a, IgnoresHost (f a)) :
    IgnoresHost (x >>= f) := fun pending hostData draws s => by
  rw [bind_apply, bind_apply, hx]
  cases x s with
  | ok a u => exact hf a pending hostData draws u
  | error e u => rfl

/-- What follows may look at the state, if it looks at none of the host's fields. -/
protected theorem IgnoresHost.getState_bind {f : State → Op β} (hf : ∀ s, IgnoresHost (f s))
    (hview : ∀ pending hostData draws s, f (withHost pending hostData draws s) = f s := by exact fun _ _ _ _ => rfl) :
    IgnoresHost (getState >>= f) := fun pending hostData draws s => by
  rw [bind_apply, bind_apply, getState_apply, getState_apply]
  exact (congrFun (hview pending hostData draws s) _).trans (hf s pending hostData draws s)

protected theorem IgnoresHost.pure (a : α) : IgnoresHost (pure a) := fun _ _ _ _ => rfl

/-- A write that neither uses nor touches the host's fields. -/
protected theorem IgnoresHost.update {f : State → State}
    (h : ∀ pending hostData draws s,
      f (withHost pending hostData draws s) = withHost pending hostData draws (f s) := by exact fun _ _ _ _ => rfl) :
    IgnoresHost (update f) := fun pending hostData draws s =>
  congrArg (EStateM.Result.ok ()) (h pending hostData draws s)

protected theorem IgnoresHost.raise (e : Trap) : IgnoresHost (raise e : Op α) := fun _ _ _ _ => rfl

protected theorem IgnoresHost.stopFault (r : Fault) : IgnoresHost (stopFault r : Op α) := fun _ _ _ _ => rfl

protected theorem IgnoresHost.stopRefuse (r : Refusal) : IgnoresHost (stopRefuse r : Op α) := fun _ _ _ _ => rfl

protected theorem IgnoresHost.require (c : Bool) (e : Trap) : IgnoresHost (require c e) := fun _ _ _ _ => by
  cases c <;> rfl

protected theorem IgnoresHost.ite {c : Prop} [Decidable c] {x y : Op α} (hx : IgnoresHost x) (hy : IgnoresHost y) :
    IgnoresHost (if c then x else y) := by
  split
  · exact hx
  · exact hy

protected theorem IgnoresHost.readBits (n : Nat) : IgnoresHost (readBits n) := fun _ _ _ _ => by
  simp only [Machine.readBits, apply_ite (mapEnd _)]
  rw [inField_withHost]
  rfl

protected theorem IgnoresHost.readBytesLe (k : Nat) : IgnoresHost (readBytesLe k) := fun pending hostData draws s => by
  simp only [Machine.readBytesLe, apply_ite (mapEnd _)]
  rw [inLe_congr (s := s) (t := withHost pending hostData draws s) rfl]
  rfl

protected theorem IgnoresHost.alignToByte : IgnoresHost alignToByte := fun _ _ _ s => by
  rw [alignToByte_eq_atByte, alignToByte_eq_atByte s]
  rfl

protected theorem IgnoresHost.emit (b : Byte) : IgnoresHost (emit b) := fun _ _ _ _ => by
  simp only [Machine.emit, apply_ite (mapEnd _)]
  rfl

protected theorem IgnoresHost.readWindow : IgnoresHost readWindow := fun _ _ _ _ => by
  simp only [Machine.readWindow, apply_ite (mapEnd _)]
  rfl

protected theorem IgnoresHost.skipString (n : Nat) : IgnoresHost (skipString n) := by
  induction n with
  | zero => exact .raise _
  | succ n ih => exact .bind (.readBytesLe 1) fun _ => .ite (.pure ()) ih

protected theorem IgnoresHost.readClLens (l : List Nat) : IgnoresHost (readClLens l) := by
  induction l with
  | nil => exact .pure ()
  | cons sym rest ih => exact .bind (.readBits 3) fun _ => .bind .update fun _ => ih

protected theorem IgnoresHost.huffDecode (lens : List Nat) (m : Nat) : IgnoresHost (huffDecode lens m) := by
  have loop : ∀ n len code, IgnoresHost (huffLoop lens len code n) := by
    intro n
    induction n with
    | zero => exact fun _ _ => .raise _
    | succ n ih =>
      refine fun len code => .bind (.readBits 1) fun b => ?_
      cases findSym lens len (code <<< 1 ||| b) with
      | some sym => exact .pure sym
      | none => exact ih _ _
  exact loop m 1 0

protected theorem IgnoresHost.blockEnd : IgnoresHost blockEnd := .update

protected theorem IgnoresHost.zeroRun (base n : Nat) : IgnoresHost (zeroRun base n) :=
  .bind (.readBits n) fun _ => .getState_bind fun _ => .bind (.require _ _) fun _ => .update

protected theorem IgnoresHost.matchLength (k : Nat) : IgnoresHost (matchLength k) :=
  .bind (.readBits _) fun _ => .update

protected theorem IgnoresHost.matchDistance (k : Nat) : IgnoresHost (matchDistance k) :=
  .bind (.readBits _) fun _ => .getState_bind fun _ => .bind (.require _ _) fun _ => .update

end operations

/-! ### The fetch -/

protected theorem IgnoresHost.decoded (sel : Selector) : IgnoresHost (decoded sel) := by
  unfold Machine.decoded
  split
  · exact .pure _
  · exact .stopRefuse _

theorem fetch_ignoresHost : IgnoresHost fetch := by
  have hsymbol : ∀ (lens : List Nat) (m : Nat) (sel : Nat → Selector),
      IgnoresHost (huffDecode lens m >>= fun sym => decoded (sel sym)) := fun lens m sel =>
    .bind (.huffDecode lens m) fun _ => .decoded _
  refine .getState_bind fun s => ?_
  cases s.phase
  case blkHdr => exact .bind (.readBits 1) fun _ => .bind .update fun _ => .bind (.readBits 2) fun _ => .decoded _
  case dynLens => exact .getState_bind fun _ => .ite (.pure none) (hsymbol _ _ _)
  case sym | symDist => exact .getState_bind fun _ => .ite (hsymbol _ _ _) (.stopFault _)
  case idle | done | error => exact .stopFault _
  all_goals exact .decoded _

/-! ### The instructions -/

/-- A step made of such an operation, which may be chosen by the state: a trap is taken alike (R251). -/
theorem stepIgnoresHost_finish {op : State → Op Unit} (hop : ∀ s, IgnoresHost (op s))
    (hview : ∀ pending hostData draws s, op (withHost pending hostData draws s) = op s := by
      exact fun _ _ _ _ => rfl) :
    StepIgnoresHost fun s => finish (op s) s := fun pending hostData draws s => by
  simp only [finish]
  rw [hview, hop s]
  cases op s s with
  | ok _ t => rfl
  | error e t => cases e <;> rfl

/-- An optional header field and the passing on to the next phase (R181, R200). -/
protected theorem IgnoresHost.optional {field : Op Unit} {p : Phase} {present : Bool} (h : IgnoresHost field) :
    IgnoresHost (do
      if present then field else pure ()
      update (setPhase p)) :=
  .ite (.bind h fun _ => .update) .update

protected theorem IgnoresHost.hcrcField : IgnoresHost hcrcField := by
  refine .getState_bind fun _ => .bind (.readBytesLe 2) fun _ => .bind .update fun _ =>
    .getState_bind (fun _ => .ite (.require _ _) (.pure _)) fun pending hostData draws s => ?_
  simp only [headerCrc16_withHost]
  rfl

/-- The header, field by field (R201 to R206). -/
theorem header_ignoresHost {i : Instr} (hi : i ∈ [.gzHdr, .gzFextra, .gzFname, .gzFcomment, .gzFhcrc]) :
    StepIgnoresHost (exec i) := by
  simp only [List.mem_cons, List.not_mem_nil, or_false] at hi
  rcases hi with rfl | rfl | rfl | rfl | rfl
  · exact stepIgnoresHost_finish fun _ => .bind (.readBytesLe 2) fun _ => .bind (.require _ _) fun _ =>
      .bind (.readBytesLe 1) fun _ => .bind (.require _ _) fun _ => .bind (.readBytesLe 1) fun _ =>
      .bind .update fun _ => .bind (.readBytesLe 4) fun _ => .bind .update fun _ => .bind (.readBytesLe 1) fun _ =>
      .bind .update fun _ => .bind (.readBytesLe 1) fun _ => .bind .update fun _ => .update
  · exact stepIgnoresHost_finish fun _ => .optional <| .bind (.readBytesLe 2) fun _ => .getState_bind fun _ =>
      .bind (.require _ _) fun _ => .bind .update fun _ => .bind .update fun _ => .update
  · exact stepIgnoresHost_finish fun _ => .optional <| .bind .update fun _ => .getState_bind fun _ =>
      .bind (.skipString _) fun _ => .update
  · exact stepIgnoresHost_finish fun _ => .optional <| .bind .update fun _ => .getState_bind fun _ =>
      .bind (.skipString _) fun _ => .update
  · exact stepIgnoresHost_finish fun _ => .optional .hcrcField

/-- The trailer and the stored block (R166, R167, R210). -/
theorem trailerOrStored_ignoresHost {i : Instr} (hi : i ∈ [.gzTrailer, .storedLen, .storedByte]) :
    StepIgnoresHost (exec i) := by
  simp only [List.mem_cons, List.not_mem_nil, or_false] at hi
  rcases hi with rfl | rfl | rfl
  · exact stepIgnoresHost_finish fun _ => .bind .alignToByte fun _ => .bind (.readBytesLe 4) fun _ =>
      .bind .update fun _ => .bind (.readBytesLe 4) fun _ => .bind .update fun _ => .getState_bind fun _ =>
      .bind (.require _ _) fun _ => .bind (.require _ _) fun _ => .bind .update fun _ => .update
  · exact stepIgnoresHost_finish fun _ => .bind .alignToByte fun _ => .bind (.readBytesLe 2) fun _ =>
      .bind (.readBytesLe 2) fun _ => .bind (.require _ _) fun _ => .bind .update fun _ => .update
  · exact stepIgnoresHost_finish fun _ => .ite .blockEnd <| .bind (.readBytesLe 1) fun _ => .bind (.emit _) fun _ =>
      .update

/-- The block types: each writes registers only, the reserved one before its trap (R161 to R165). -/
theorem block_ignoresHost {i : Instr} {b : BitVec 1}
    (hi : i ∈ [.blkStored b, .blkFixed b, .blkDynamic b, .blkReserved b]) :
    StepIgnoresHost (exec i) := by
  simp only [List.mem_cons, List.not_mem_nil, or_false] at hi
  rcases hi with rfl | rfl | rfl | rfl <;> exact fun _ _ _ _ => rfl

/-- The dynamic table reader's own operations, and COPY (R141, R142, R145, R148, R185). -/
theorem table_ignoresHost {i : Instr} (hi : i ∈ [.dynCounts, .dynCllen, .clRep16, .dynBuild, .copy]) :
    StepIgnoresHost (exec i) := by
  simp only [List.mem_cons, List.not_mem_nil, or_false] at hi
  rcases hi with rfl | rfl | rfl | rfl | rfl
  · exact stepIgnoresHost_finish fun _ => .bind (.readBits 5) fun _ => .bind .update fun _ =>
      .bind (.readBits 5) fun _ => .bind .update fun _ => .bind (.readBits 4) fun _ => .bind .update fun _ =>
      .getState_bind fun _ => .bind (.require _ _) fun _ => .bind (.require _ _) fun _ => .update
  · exact stepIgnoresHost_finish fun _ => .bind .update fun _ => .bind (.readClLens _) fun _ => .getState_bind fun _ =>
      .bind (.require _ _) fun _ => .bind .update fun _ => .update
  · exact stepIgnoresHost_finish fun _ => .bind (.readBits 2) fun _ => .getState_bind fun _ =>
      .bind (.require _ _) fun _ => .bind (.require _ _) fun _ => .update
  · exact stepIgnoresHost_finish fun _ => .bind .update fun _ => .bind .update fun _ => .getState_bind fun _ =>
      .bind (.require _ _) fun _ => .bind (.require _ _) fun _ => .update
  · exact stepIgnoresHost_finish fun _ => .ite .update <| .bind .readWindow fun _ => .bind (.emit _) fun _ => .update

/-- START, which the core never fetches, as well (R232, R233). -/
theorem start_ignoresHost : StepIgnoresHost (exec .start) := fun pending hostData draws s =>
  congrArg Host.Outcome.next (apply_ite (withHost pending hostData draws) (s.busy = true) s (started s)).symm

theorem exec_ignoresHost (i : Instr) : StepIgnoresHost (exec i) := by
  by_cases hstart : i = .start
  · exact hstart ▸ start_ignoresHost
  cases hb : readsBytes i with
  | true =>
    have hkind : i ∈ [.gzHdr, .gzFextra, .gzFname, .gzFcomment, .gzFhcrc] ∨
        i ∈ [.gzTrailer, .storedLen, .storedByte] := by
      cases i <;> simp [readsBytes] at hb ⊢
    exact hkind.elim header_ignoresHost trailerOrStored_ignoresHost
  | false =>
    rcases exec_shape hb hstart with hlen | hdist | hcl | hzero | hreserved | ⟨b, hblock⟩ | htable | rfl | ⟨v, rfl⟩
    · obtain ⟨⟨j, base, extra⟩, hrow, rfl⟩ := List.mem_map.1 hlen
      obtain ⟨k, -, -, hexec⟩ := lengthRow_numbers hrow
      exact funext hexec ▸ stepIgnoresHost_finish fun _ => .matchLength k
    · obtain ⟨⟨j, base, extra⟩, hrow, rfl⟩ := List.mem_map.1 hdist
      obtain ⟨k, -, -, hexec⟩ := distanceRow_numbers hrow
      exact funext hexec ▸ stepIgnoresHost_finish fun _ => .matchDistance k
    · obtain ⟨⟨j, v⟩, hrow, rfl⟩ := List.mem_map.1 hcl
      exact funext (codeLengthRow_value hrow) ▸ fun _ _ _ _ => rfl
    · simp only [List.mem_cons, List.not_mem_nil, or_false] at hzero
      rcases hzero with rfl | rfl <;> exact stepIgnoresHost_finish fun _ => .zeroRun _ _
    · simp only [List.mem_cons, List.not_mem_nil, or_false] at hreserved
      rcases hreserved with rfl | rfl | rfl | rfl <;> exact stepIgnoresHost_finish fun _ => .raise _
    · exact block_ignoresHost hblock
    · exact table_ignoresHost htable
    · exact stepIgnoresHost_finish fun _ => .blockEnd
    · exact stepIgnoresHost_finish fun _ => .emit v

/-! ### The core step -/

theorem coreStep_ignoresHost : StepIgnoresHost coreStep := fun pending hostData draws s => by
  simp only [coreStep]
  rw [fetch_ignoresHost]
  cases fetch s with
  | ok fetched t =>
    cases fetched with
    | some i => exact exec_ignoresHost i pending hostData draws t
    | none => rfl
  | error e t => cases e <;> rfl

/-- Settles O53: the fetch and every instruction ignore the host's fields. -/
theorem coreIgnoresTheHost : Obligations.CoreIgnoresTheHost := by
  unfold Obligations.CoreIgnoresTheHost
  intro s pending hostData draws
  rw [coreStep_ignoresHost]
  cases coreStep s <;> rfl

end Sys2Proof.Machine
end

section
/-! PROOFS. The host's register accesses (spec/10_state.md R30 to R35, spec/46_host_control.md R234, R235). -/

namespace Sys2Proof.Machine

/-! ### The width of an access -/

theorem aligned_of {offset size : Nat} (hsize : size = 4) (hoff : offset % 4 = 0) : aligned offset size = true := by
  simp [aligned, hsize, hoff]

theorem aligned_eq_false {offset size : Nat} (h : size ≠ 4 ∨ offset % 4 ≠ 0) : aligned offset size = false := by
  simpa [aligned, imp_iff_not_or] using h

/-- An access that is not 32 bits wide and aligned is refused (R32). -/
theorem guarded_by_width {offset size : Nat} (h : size ≠ 4 ∨ offset % 4 ≠ 0)
    (o : Host.Outcome State Fault Refusal) :
    (if !aligned offset size then .refused .unalignedRegisterAccess else o) = .refused .unalignedRegisterAccess :=
  if_pos (by rw [aligned_eq_false h, Bool.not_false])

/-! ### Reads -/

/-- The offsets of the register map, in its order (R30). -/
def registerOffsets : List Nat := (List.range 23).map (4 * ·)

/-- The map lists what the model reads at each of its offsets (R30, R38). -/
theorem registerMap_eq (s : State) :
    registerMap s = registerOffsets.map fun offset => (offset, regValue s offset) := rfl

theorem mem_registerMap_iff {s : State} {offset : Nat} {v : Word} :
    (offset, v) ∈ registerMap s ↔ offset ∈ registerOffsets ∧ v = regValue s offset := by
  rw [registerMap_eq, List.mem_map]
  constructor
  · rintro ⟨o, ho, heq⟩
    cases heq
    exact ⟨ho, rfl⟩
  · rintro ⟨ho, rfl⟩
    exact ⟨offset, ho, rfl⟩

/-- Off the map a read gives 0 (R32). -/
theorem regValue_of_not_mem {s : State} {offset : Nat} (h : offset ∉ registerOffsets) : regValue s offset = 0 := by
  unfold regValue
  split
  case h_23 => rfl
  all_goals exact absurd (by decide) h

section reads
variable {s : State} {offset size : Nat} (hal : aligned offset size = true)
include hal

theorem hostRegRead_of_not_busy (hb : s.busy = false) :
    hostRegRead offset size s = .next { s with hostData := regValue s offset } := by
  simp only [hostRegRead, hal, hb, Bool.not_true, Bool.false_eq_true, if_false]

theorem hostRegRead_of_busy (hb : s.busy = true) :
    hostRegRead offset size s = .next (withHost s.pending (busyValue s offset) (s.draws + 1) s) := by
  simp only [hostRegRead, hal, hb, Bool.not_true, Bool.false_eq_true, if_false, if_true]
  rfl

end reads

/-- `STATUS.STATE` reads 1 while BUSY, whatever is drawn for the rest of the word (R35). -/
theorem busyValue_state (s : State) : (busyValue s 0x0C).extractLsb' 0 2 = 1 := by
  change ((Config.busyRead s.draws &&& 4) ||| 1).extractLsb' 0 2 = 1
  rw [BitVec.extractLsb'_or, BitVec.extractLsb'_and]
  simp

/-- Settles O55: a pending read is the next step; what it answers is the map's value, or 0 off the map. -/
theorem registerReads : Obligations.RegisterReads := by
  unfold Obligations.RegisterReads
  intro s offset size rest hp
  rw [step_of_hostActs hp rfl]
  refine ⟨fun hwidth => guarded_by_width hwidth _, fun hsize hoff =>
    ⟨fun hb => ⟨fun v hv => ?onMap, fun hv => ?offMap⟩, fun hb => ?busy⟩⟩
  case onMap =>
    obtain ⟨-, rfl⟩ := mem_registerMap_iff.1 hv
    exact hostRegRead_of_not_busy (aligned_of hsize hoff) hb
  case offMap =>
    have hzero : regValue { s with pending := rest } offset = 0 :=
      regValue_of_not_mem fun ho => hv _ (mem_registerMap_iff.2 ⟨ho, rfl⟩)
    rw [← hzero]
    exact hostRegRead_of_not_busy (aligned_of hsize hoff) hb
  case busy =>
    refine ⟨_, _, hostRegRead_of_busy (aligned_of hsize hoff) hb, ?_, ?_, ?_⟩
    · rintro rfl; rfl
    · rintro rfl; rfl
    · rintro rfl; exact busyValue_state _

/-! ### Writes -/

section writes
variable {s : State} {offset size : Nat} {data : Word}

/-- While BUSY a write other than to CTRL is ignored (R33, R34). -/
theorem hostRegWrite_of_busy (hal : aligned offset size = true) (hctrl : offset ≠ 0) (hb : s.busy = true) :
    hostRegWrite offset size data s = .next s := by
  simp only [hostRegWrite, hal, hctrl, hb, Bool.not_true, Bool.false_eq_true, if_false, if_true, ite_self]

/-- A write to no writable register is ignored (R235). -/
theorem hostRegWrite_of_not_writable (hal : aligned offset size = true) (hctrl : offset ≠ 0) (hcfg : offset ≠ 0x04)
    (hlen : offset ≠ 0x08) : hostRegWrite offset size data s = .next s := by
  simp only [hostRegWrite, hal, hctrl, hcfg, hlen, Bool.not_true, Bool.false_eq_true, if_false]

theorem hostRegWrite_cfg (hb : s.busy = false) :
    hostRegWrite 0x04 4 data s = .next { s with hcrcCheck := data.setWidth 1 } := by
  simp [hostRegWrite, aligned, hb]

theorem hostRegWrite_inLen (hb : s.busy = false) : hostRegWrite 0x08 4 data s = .next { s with inLen := data } := by
  simp [hostRegWrite, aligned, hb]

end writes

/-- Settles O56: by the offset written and by whether the block is BUSY. -/
theorem registerWrites : Obligations.RegisterWrites := by
  unfold Obligations.RegisterWrites
  intro s offset size data rest hp
  rw [step_of_hostActs hp rfl]
  refine ⟨fun hwidth => guarded_by_width hwidth _, fun hsize hoff hctrl =>
    ⟨fun hignored => ?ignored, fun hb hcfg => ?cfg, fun hb hlen => ?inLen⟩⟩
  case ignored =>
    rcases hignored with hb | ⟨hcfg, hlen⟩
    · exact hostRegWrite_of_busy (aligned_of hsize hoff) hctrl hb
    · exact hostRegWrite_of_not_writable (aligned_of hsize hoff) hctrl hcfg hlen
  case cfg =>
    subst hsize hcfg
    exact hostRegWrite_cfg hb
  case inLen =>
    subst hsize hlen
    exact hostRegWrite_inLen hb

end Sys2Proof.Machine
end

section
/-! PROOFS. Traps (spec/60_exceptions.md R250, R251), and the faults each phase can raise (R267): one rule per way of
putting operations together and one per primitive, then the instructions, then the step. -/

namespace Sys2Proof.Machine

/-- Settles O45: the trap is taken in the state the operation left, with the codes of `trapCode`. -/
theorem trapEntryWritesErrAndPhase : Obligations.TrapEntryWritesErrAndPhase := by
  unfold Obligations.TrapEntryWritesErrAndPhase
  exact ⟨fun _ _ _ _ => finish_trap, rfl, rfl, rfl, rfl, rfl, rfl, rfl, rfl, rfl, rfl, rfl, rfl⟩

/-! ### Which faults an operation raises -/

/-- From `s` the operation raises no fault but those with these codes, and where it goes through, its answer and the
state it leaves satisfy `Q`. -/
def RaisesOnly {α : Type} (codes : List (BitVec 4)) (op : Op α) (s : State) (Q : α → State → Prop) : Prop :=
  match op s with
  | .ok a t => Q a t
  | .error (.trap e) _ => trapCode e ∈ codes
  | .error (.fault _) _ => True
  | .error (.refuse _) _ => True

/-- A next state has no fault in `ERR`, or one of these codes. -/
def ErrIn (codes : List (BitVec 4)) (o : Host.Outcome State Fault Refusal) : Prop :=
  ∀ t, o = .next t → t.err = 0 ∨ t.err ∈ codes

/-- From a state with no fault in `ERR` the operation raises no fault but those with these codes, and where it goes
through, `ERR` still holds none. -/
def FaultsIn {α : Type} (codes : List (BitVec 4)) (op : Op α) : Prop :=
  ∀ s, s.err = 0 → RaisesOnly codes op s fun _ t => t.err = 0

section calculus
variable {α β : Type} {codes : List (BitVec 4)} {s : State} {Q : α → State → Prop} {Q' : β → State → Prop}

theorem raisesOnly_of_ends {op : Op α} (hok : ∀ a t, op s = .ok a t → Q a t)
    (herr : ∀ e t, op s = .error (.trap e) t → trapCode e ∈ codes) : RaisesOnly codes op s Q := by
  unfold RaisesOnly
  split
  · exact hok _ _ ‹_›
  · exact herr _ _ ‹_›
  · trivial
  · trivial

theorem raisesOnly_bind {x : Op α} {f : α → Op β} (hx : RaisesOnly codes x s Q)
    (hf : ∀ a u, Q a u → RaisesOnly codes (f a) u Q') : RaisesOnly codes (x >>= f) s Q' := by
  revert hx
  unfold RaisesOnly
  rw [bind_apply]
  cases x s with
  | ok a u => exact hf a u
  | error e u => cases e <;> exact id

theorem raisesOnly_ite {c : Prop} [Decidable c] {x y : Op α} (hx : RaisesOnly codes x s Q)
    (hy : RaisesOnly codes y s Q) : RaisesOnly codes (if c then x else y) s Q := by
  split
  · exact hx
  · exact hy

theorem errIn_finish {op : Op Unit} (h : FaultsIn codes op) (h0 : s.err = 0) : ErrIn codes (finish op s) :=
  fun t ht => by
    have hop := h s h0
    unfold RaisesOnly at hop
    rcases finish_next ht with hok | ⟨e, u, herr, rfl⟩
    · rw [hok] at hop
      exact .inl hop
    · rw [herr] at hop
      exact .inr hop

protected theorem FaultsIn.bind {x : Op α} {f : α → Op β} (hx : FaultsIn codes x) (hf : ∀ a, FaultsIn codes (f a)) :
    FaultsIn codes (x >>= f) := fun s h0 => raisesOnly_bind (hx s h0) fun a u hu => hf a u hu

protected theorem FaultsIn.ite {c : Prop} [Decidable c] {x y : Op α} (hx : FaultsIn codes x) (hy : FaultsIn codes y) :
    FaultsIn codes (if c then x else y) := fun s h0 => raisesOnly_ite (hx s h0) (hy s h0)

protected theorem FaultsIn.pure (a : α) : FaultsIn codes (pure a) := fun _ h0 => h0

protected theorem FaultsIn.getState : FaultsIn codes getState := fun _ h0 => h0

protected theorem FaultsIn.update {f : State → State} (h : ∀ s, (f s).err = s.err := by exact fun _ => rfl) :
    FaultsIn codes (update f) := fun s h0 => (h s).trans h0

protected theorem FaultsIn.raise (e : Trap) (he : trapCode e ∈ codes := by decide) :
    FaultsIn codes (raise e : Op α) := fun _ _ => he

protected theorem FaultsIn.require (c : Bool) (e : Trap) (he : trapCode e ∈ codes := by decide) :
    FaultsIn codes (require c e) := fun _ h0 => by
  cases c
  · exact he
  · exact h0

end calculus

/-! ### The reader, the decoder and the window -/

section primitives
variable {codes : List (BitVec 4)}

protected theorem FaultsIn.readBits (n : Nat) (heof : 1 ∈ codes := by decide) : FaultsIn codes (readBits n) :=
  fun s h0 => by
    refine raisesOnly_of_ends (fun v t hok => ?_) fun e t herr => ?_
    · obtain ⟨-, -, rfl⟩ := readBits_ok hok
      exact h0
    · obtain ⟨-, he, -⟩ := readBits_error herr
      cases he
      exact heof

protected theorem FaultsIn.readBytesLe (k : Nat) (heof : 1 ∈ codes := by decide) : FaultsIn codes (readBytesLe k) :=
  fun s h0 => by
    refine raisesOnly_of_ends (fun v t hok => ?_) fun e t herr => ?_
    · obtain ⟨-, -, rfl⟩ := readBytesLe_ok hok
      exact h0
    · obtain ⟨-, he, -⟩ := readBytesLe_error herr
      cases he
      exact heof

protected theorem FaultsIn.alignToByte : FaultsIn codes alignToByte := fun s h0 => by
  rw [RaisesOnly, alignToByte_eq_atByte]
  exact h0

protected theorem FaultsIn.emit (b : Byte) (hfull : 12 ∈ codes := by decide) : FaultsIn codes (emit b) :=
  fun s h0 => by
    refine raisesOnly_of_ends (fun a t hok => ?_) fun e t herr => ?_
    · obtain ⟨-, rfl⟩ := emit_ok hok
      exact h0
    · obtain ⟨-, ⟨he, -⟩ | ⟨he, -⟩⟩ := emit_error herr <;> cases he
      exact hfull

/-- The read of the window raises no fault of the stream (R184, R185). -/
protected theorem FaultsIn.readWindow : FaultsIn codes readWindow := fun s h0 => by
  refine raisesOnly_of_ends (fun b t hok => ?_) fun e t herr => ?_
  · obtain ⟨rfl, -⟩ := readWindow_ok hok
    exact h0
  · unfold Machine.readWindow at herr
    split at herr <;> cases herr

protected theorem FaultsIn.skipString (n : Nat) (heof : 1 ∈ codes := by decide) : FaultsIn codes (skipString n) := by
  induction n with
  | zero => exact .raise _ heof
  | succ n ih => exact .bind (.readBytesLe 1 heof) fun _ => .ite (.pure ()) ih

protected theorem FaultsIn.readClLens (l : List Nat) (heof : 1 ∈ codes := by decide) :
    FaultsIn codes (readClLens l) := by
  induction l with
  | nil => exact .pure ()
  | cons sym rest ih => exact .bind (.readBits 3 heof) fun _ => .bind .update fun _ => ih

section decoder
variable {lens : List Nat} {m : Nat} {s : State} (hc : linPos s ≤ 8 * s.inLen.toNat) (h0 : s.err = 0)
include hc h0

/-- The symbol decoder runs out of input or finds no code (R126, R255, R259). -/
theorem huffDecode_raisesOnly (heof : 1 ∈ codes := by decide) (hcode : 5 ∈ codes := by decide) :
    RaisesOnly codes (huffDecode lens m) s fun _ t => t.err = 0 := by
  unfold RaisesOnly
  rcases huffDecode_cases lens m hc with ⟨_, _, -, -, -, -, -, hd⟩ | ⟨_, -, -, -, hd⟩ | ⟨-, -, hd⟩ <;> rw [hd]
  · exact h0
  · exact heof
  · exact hcode

/-- With a complete array it can only run out of input (R126). -/
theorem huffDecode_raisesOnly_of_complete (hk : kraftCheck lens m = .ok) (hm : 1 ≤ m)
    (heof : 1 ∈ codes := by decide) : RaisesOnly codes (huffDecode lens m) s fun _ t => t.err = 0 := by
  unfold RaisesOnly
  rcases completeArrayDecodesOrEndsInput lens m s hk hm hc with ⟨_, -, -, hd⟩ | hd <;> rw [hd]
  · exact h0
  · exact heof

end decoder

end primitives

/-! ### The instructions -/

section instructions
variable {codes : List (BitVec 4)} {i : Instr} {s : State}

/-- An optional header field and the passing on to the next phase (R181, R200). -/
protected theorem FaultsIn.optional {field : Op Unit} {present : Bool} {p : Phase} (h : FaultsIn codes field) :
    FaultsIn codes (do
      if present then field else pure ()
      update (setPhase p)) :=
  .ite (.bind h fun _ => .update) .update

theorem faultsIn_stringField {setOff setLen : State → State}
    (hoff : ∀ s, (setOff s).err = s.err := by exact fun _ => rfl)
    (hlen : ∀ s, (setLen s).err = s.err := by exact fun _ => rfl) : FaultsIn [1] (stringField setOff setLen) :=
  .bind (.update hoff) fun _ => .bind .getState fun _ => .bind (.skipString _) fun _ => .update hlen

/-- The instructions reached by position. -/
theorem exec_byPhase_errIn (h : decodePhase s.phase = .ok i) (h0 : s.err = 0) :
    ErrIn (phaseFaults s.phase) (exec i s) := by
  cases hp : s.phase <;> rw [hp] at h <;> cases h <;> refine errIn_finish (op := _) ?_ h0
  case hdrFixed =>
    exact .bind (.readBytesLe 2) fun _ => .bind (.require _ _) fun _ => .bind (.readBytesLe 1) fun _ =>
      .bind (.require _ _) fun _ => .bind (.readBytesLe 1) fun _ => .bind .update fun _ =>
      .bind (.readBytesLe 4) fun _ => .bind .update fun _ => .bind (.readBytesLe 1) fun _ => .bind .update fun _ =>
      .bind (.readBytesLe 1) fun _ => .bind .update fun _ => .update
  case hdrExtra =>
    exact .optional <| .bind (.readBytesLe 2) fun _ => .bind .getState fun _ => .bind (.require _ _) fun _ =>
      .bind .update fun _ => .bind .update fun _ => .update
  case hdrName => exact .optional (nameField_eq ▸ faultsIn_stringField)
  case hdrComment => exact .optional (commentField_eq ▸ faultsIn_stringField)
  case hdrHcrc =>
    exact .optional <| .bind .getState fun _ => .bind (.readBytesLe 2) fun _ => .bind .update fun _ =>
      .bind .getState fun _ => .ite (.require _ _) (.pure _)
  case storedLen =>
    exact .bind .alignToByte fun _ => .bind (.readBytesLe 2) fun _ => .bind (.readBytesLe 2) fun _ =>
      .bind (.require _ _) fun _ => .bind .update fun _ => .update
  case storedCopy =>
    exact .ite .update <| .bind (.readBytesLe 1) fun _ => .bind (.emit _) fun _ => .update
  case dynCounts =>
    exact .bind (.readBits 5) fun _ => .bind .update fun _ => .bind (.readBits 5) fun _ => .bind .update fun _ =>
      .bind (.readBits 4) fun _ => .bind .update fun _ => .bind .getState fun _ => .bind (.require _ _) fun _ =>
      .bind (.require _ _) fun _ => .update
  case dynCllen =>
    exact .bind .update fun _ => .bind (.readClLens _) fun _ => .bind .getState fun _ => .bind (.require _ _) fun _ =>
      .bind .update fun _ => .update
  case dynBuild =>
    exact .bind .update fun _ => .bind .update fun _ => .bind .getState fun _ => .bind (.require _ _) fun _ =>
      .bind (.require _ _) fun _ => .update
  case copy => exact .ite .update <| .bind .readWindow fun _ => .bind (.emit _) fun _ => .update
  case trailer =>
    exact .bind .alignToByte fun _ => .bind (.readBytesLe 4) fun _ => .bind .update fun _ =>
      .bind (.readBytesLe 4) fun _ => .bind .update fun _ => .bind .getState fun _ => .bind (.require _ _) fun _ =>
      .bind (.require _ _) fun _ => .bind .update fun _ => .update

/-- Only the reserved block type faults (R260). -/
theorem decodeBtype_errIn (bfinal : BitVec 1) (w : BitVec 2) (h0 : s.err = 0) :
    ErrIn [1, 6] (exec (decodeBtype bfinal w) s) := by
  obtain ⟨hstored, hfixed, hdynamic, hreserved⟩ := blockTypesDispatch bfinal s
  unfold decodeBtype
  split_ifs <;> intro t ht
  · cases hstored.symm.trans ht; exact .inl h0
  · cases hfixed.symm.trans ht; exact .inl h0
  · cases hdynamic.symm.trans ht; exact .inl h0
  · cases hreserved.symm.trans ht; exact .inr (by simp)

/-- A run must fit the array it fills, and a repetition must follow a length (R258). -/
theorem decodeCL_errIn {sym : Nat} (h : decodeCL sym = .ok i) (h0 : s.err = 0) : ErrIn [1, 4] (exec i s) := by
  obtain ⟨j, hj, hkind⟩ := decodeCL_lt (lt_of_decodeCL h)
  cases hj.symm.trans h
  rcases hkind with ⟨v, he⟩ | rfl | ⟨base, n, he⟩
  · rw [he]
    exact errIn_finish .update h0
  · refine errIn_finish (op := _) ?_ h0
    exact .bind (.readBits 2) fun _ => .bind .getState fun _ => .bind (.require _ _) fun _ =>
      .bind (.require _ _) fun _ => .update
  · rw [he]
    exact errIn_finish (.bind (.readBits n) fun _ => .bind .getState fun _ => .bind (.require _ _) fun _ => .update) h0

/-- A literal needs room, a length its extra bits, and two symbols are reserved (R255, R259, R266). -/
theorem decodeLL_errIn {sym : Nat} (h : decodeLL sym = .ok i) (h0 : s.err = 0) : ErrIn [1, 5, 12] (exec i s) := by
  obtain ⟨j, hj, hkind⟩ := decodeLL_lt (lt_of_decodeLL h)
  cases hj.symm.trans h
  rcases hkind with ⟨v, rfl⟩ | rfl | ⟨k, -, he⟩ | he
  · exact errIn_finish (.emit v) h0
  · exact errIn_finish (op := blockEnd) .update h0
  · rw [he]
    exact errIn_finish (.bind (.readBits _) fun _ => .update) h0
  · rw [he]
    exact errIn_finish (.raise _) h0

/-- A distance needs its extra bits and must not reach before the output, and two symbols are reserved (R255, R259,
R262). -/
theorem decodeDist_errIn {sym : Nat} (h : decodeDist sym = .ok i) (h0 : s.err = 0) : ErrIn [1, 5, 8] (exec i s) := by
  obtain ⟨j, hj, hkind⟩ := decodeDist_lt (lt_of_decodeDist h)
  cases hj.symm.trans h
  rcases hkind with ⟨k, -, he⟩ | he <;> rw [he]
  · exact errIn_finish (.bind (.readBits _) fun _ => .bind .getState fun _ => .bind (.require _ _) fun _ => .update) h0
  · exact errIn_finish (.raise _) h0

end instructions

/-! ### The fetch and the step -/

/-- What `ERR` holds after the core has run what the fetch answered (R143, R189). -/
def FetchErrIn (codes : List (BitVec 4)) : Option Instr → State → Prop
  | some i, u => ErrIn codes (exec i u)
  | none, u => u.err = 0

section step
variable {codes : List (BitVec 4)} {s : State}

theorem errIn_coreStep (h : RaisesOnly codes fetch s (FetchErrIn codes)) : ErrIn codes (coreStep s) := by
  intro t ht
  unfold RaisesOnly at h
  unfold coreStep at ht
  split at ht
  case h_1 i u hf =>
    rw [hf] at h
    exact h t ht
  case h_2 u hf =>
    rw [hf] at h
    cases ht
    exact .inl h
  case h_3 e u hf =>
    rw [hf] at h
    cases ht
    exact .inr h
  case h_4 => cases ht
  case h_5 => cases ht

theorem raisesOnly_decoded {sel : Selector} {Q : Option Instr → State → Prop}
    (h : ∀ i, decode sel = .ok i → Q (some i) s) : RaisesOnly codes (decoded sel) s Q := by
  unfold decoded
  split
  · exact h _ ‹_›
  · trivial

/-- A symbol decoder and the instruction of its symbol. -/
theorem raisesOnly_symbol {lens : List Nat} {m : Nat} {sel : Nat → Selector}
    (hsym : RaisesOnly codes (huffDecode lens m) s fun _ t => t.err = 0)
    (hexec : ∀ sym i u, decode (sel sym) = .ok i → u.err = 0 → ErrIn codes (exec i u)) :
    RaisesOnly codes (huffDecode lens m >>= fun sym => decoded (sel sym)) s (FetchErrIn codes) :=
  raisesOnly_bind hsym fun sym u hu => raisesOnly_decoded fun i hi => hexec sym i u hi hu

theorem fetchBlockHeader_raisesOnly (h0 : s.err = 0) :
    RaisesOnly [1, 6] fetchBlockHeader s (FetchErrIn [1, 6]) := by
  refine raisesOnly_bind (FaultsIn.readBits 1 (by decide) s h0) fun bfinal u hu => ?_
  refine raisesOnly_bind (Q := fun _ t => t.err = 0) hu fun _ v hv => ?_
  refine raisesOnly_bind (FaultsIn.readBits 2 (by decide) v hv) fun btype w hw => raisesOnly_decoded fun i hi => ?_
  cases hi
  exact decodeBtype_errIn _ _ hw

theorem fetchClSymbol_raisesOnly (hc : linPos s ≤ 8 * s.inLen.toNat)
    (hk : kraftCheck (lensOf s.clLen) Config.maxBitsCL = .ok) (h0 : s.err = 0) :
    RaisesOnly [1, 4] fetchClSymbol s (FetchErrIn [1, 4]) :=
  show RaisesOnly [1, 4] (if s.idx.toNat = flatTotal s then _ else _) s _ from
    raisesOnly_ite h0 <| raisesOnly_symbol (huffDecode_raisesOnly_of_complete hc h0 hk (by decide))
      fun _ _ _ => decodeCL_errIn

theorem fetchLLSymbol_raisesOnly (hc : linPos s ≤ 8 * s.inLen.toNat) (h0 : s.err = 0) :
    RaisesOnly [1, 5, 12] fetchLLSymbol s (FetchErrIn [1, 5, 12]) :=
  show RaisesOnly [1, 5, 12] (if hasActiveTables s = true then _ else _) s _ from
    raisesOnly_ite (raisesOnly_symbol (huffDecode_raisesOnly hc h0) fun _ _ _ => decodeLL_errIn) trivial

theorem fetchDistSymbol_raisesOnly (hc : linPos s ≤ 8 * s.inLen.toNat) (h0 : s.err = 0) :
    RaisesOnly [1, 5, 8] fetchDistSymbol s (FetchErrIn [1, 5, 8]) :=
  show RaisesOnly [1, 5, 8] (if hasActiveTables s = true then _ else _) s _ from
    raisesOnly_ite (raisesOnly_symbol (huffDecode_raisesOnly hc h0) fun _ _ _ => decodeDist_errIn) trivial

/-- Every phase faults as R267 lists. In DYN_LENS the code-length code is complete, so InvalidCode is not among its
faults (R126). -/
theorem coreStep_errIn (h : Inv s) (hb : s.busy = true) : ErrIn (phaseFaults s.phase) (coreStep s) := by
  obtain ⟨-, -, h0, -⟩ := quiet_of_inv h hb
  obtain ⟨hcursor, -, -, hok⟩ := h.run hb
  have hc := cursorOk_iff.1 hcursor
  refine errIn_coreStep ?_
  unfold RaisesOnly
  cases hp : s.phase
  case idle | done | error => simp [State.busy, hp, Phase.busy] at hb
  case blkHdr =>
    rw [fetch_of_blkHdr hp]
    exact fetchBlockHeader_raisesOnly h0
  case dynLens =>
    rw [PhaseOk, hp] at hok
    obtain ⟨-, -, -, hkraft⟩ := hok
    rw [fetch_of_dynLens hp]
    exact fetchClSymbol_raisesOnly hc hkraft h0
  case sym =>
    rw [fetch_of_sym hp]
    exact fetchLLSymbol_raisesOnly hc h0
  case symDist =>
    rw [fetch_of_symDist hp]
    exact fetchDistSymbol_raisesOnly hc h0
  all_goals
    rw [fetch_byPhase (by rw [hp]; rfl), ← hp]
    exact exec_byPhase_errIn (by rw [hp]; rfl) h0

end step

/-- Settles O46: a sound state in ERROR has a fault in `ERR`, and the step leaves none there but those of its phase. -/
theorem faultsByPhase : Obligations.FaultsByPhase := by
  unfold Obligations.FaultsByPhase
  intro s t h hp ht herror
  have hfault := (stepKeepsSoundness s t h ht).err.1.2 herror
  rw [step_of_pending_nil hp] at ht
  exact (coreStep_errIn h (busy_of_coreStep ht) t ht).resolve_left hfault

end Sys2Proof.Machine
end
